-- ==== Sys2Proof/Word.lean ====
section
/-! DEFINITION. The word types of MCPE and the two closed sets of names its command word selects from
(spec/00_scope.md R2, R7, R9; spec/30_encoding.md R82, R83). -/

namespace Sys2Proof

/-- A host word, a command word, a 32-bit register (R7). -/
abbrev Word := BitVec 32

/-- One byte of DATA, IV, WORK or SAVE (R9, R10). -/
abbrev Byte := BitVec 8

/-- The six padding schemes, in the order of the PAD field values 0x0 to 0x5 (R2, R83). -/
inductive Scheme where
  /-- NoPadding, PAD 0x0. -/
  | nopad
  /-- ZeroPadding, PAD 0x1. -/
  | zero
  /-- ISO7816-4, PAD 0x2. -/
  | iso7816
  /-- ANSI X.923, PAD 0x3. -/
  | x923
  /-- ISO10126, PAD 0x4. -/
  | iso10126
  /-- PKCS7, PAD 0x5. -/
  | pkcs7
deriving DecidableEq, Repr

/-- The five cipher modes, in the order of the MODE field values 0x0 to 0x4 (R2, R82). -/
inductive Mode where
  /-- MODE 0x0, a block mode. -/
  | ecb
  /-- MODE 0x1, a block mode. -/
  | cbc
  /-- MODE 0x2, a stream mode. -/
  | cfb
  /-- MODE 0x3, a stream mode. -/
  | ofb
  /-- MODE 0x4, a stream mode. -/
  | ctr
deriving DecidableEq, Repr

end Sys2Proof
end

