-- ==== Sys2Proof/Config.lean ====
section
/-! DEFINITION. What an MCPE is built with and what the spec leaves open: the build parameters (spec/00_scope.md
R4, R6), the external block cipher (R12, R69), the draws (R13, R54, R64, R71, R43) and the platform's base
address (spec/20_memory.md R62). -/

namespace Sys2Proof

/-- The build parameters. They are hardwired (R29, R30); the State carries them, so that a statement about every
state speaks of every build. -/
structure Params where
  /-- BLOCK_WORDS, the cipher's block size in 32-bit words (R4). -/
  blockWords : Nat
  /-- BUF_BYTES, the capacity of DATA in bytes (R6). -/
  bufBytes : Nat
deriving DecidableEq, Repr

/-- The reference build of the spec: BLOCK_WORDS 4 (R4) and BUF_BYTES 256 (R6). -/
def Params.reference : Params := ⟨4, 256⟩

/-- The external block cipher, R12's `E` and `D`. A function gives byte `j` of the answer to a block, from the block
size in bytes and the name of the external key. The engine takes exactly B of these bytes (R69). -/
structure Cipher where
  /-- `E`: block bytes, key, block, index. -/
  enc : Nat → Nat → List Byte → Nat → Byte
  /-- `D`: block bytes, key, block, index. -/
  dec : Nat → Nat → List Byte → Nat → Byte
deriving Inhabited

/-- The cipher behind the cipher port. FREE (R12, decision D24): nothing is known of it, not even `D (E x) = x`,
which a claim that needs it names as a hypothesis (`Cipher.Inverse`). -/
opaque Config.cipher : Cipher

/-- Draw number `n` (R13): one byte the spec leaves open. FREE: a claim holds for every sequence of draws. -/
opaque Config.draw : Nat → Byte

/-- MCPE_BASE: where offset 0 sits in the platform's map. FREE (R62, decision D5). Host accesses are given by offset,
so every claim holds for every base. -/
opaque Config.mcpeBase : Nat

/-- The platform address of a host offset (R62). -/
def Config.platformAddress (off : Nat) : Nat := Config.mcpeBase + off

/-- The block `E` answers for `v`: exactly `n` bytes (R12, R69). -/
def Cipher.encBlock (c : Cipher) (n key : Nat) (v : List Byte) : List Byte := (List.range n).map (c.enc n key v)

/-- The block `D` answers for `v`: exactly `n` bytes (R12, R69). -/
def Cipher.decBlock (c : Cipher) (n key : Nat) (v : List Byte) : List Byte := (List.range n).map (c.dec n key v)

/-- R12's named property `D(E(x)) = x` for every x, for one block size and one key. -/
def Cipher.Inverse (c : Cipher) (n key : Nat) : Prop :=
  ∀ x : List Byte, x.length = n → c.decBlock n key (c.encBlock n key x) = x

end Sys2Proof
end

