-- ==== Sys2Proof/Syntax.lean ====
section
/-! DEFINITION. The commands of MCPE: one constructor for each of the 32 rows of spec/opcode_table.json
(spec/30_encoding.md R89, R90). A command has no operand but the PAD selector of ENC and DEC (R86). -/

namespace Sys2Proof

/-- The 32 commands. The PAD field of ENC and DEC is kept for the stream modes too, where the engine ignores it
(R151). -/
inductive Instr where
  /-- PAD.NONE (R113). -/
  | padNone
  /-- PAD.ZERO (R115). -/
  | padZero
  /-- PAD.ISO7816 (R117). -/
  | padIso7816
  /-- PAD.X923 (R119). -/
  | padX923
  /-- PAD.ISO10126 (R121). -/
  | padIso10126
  /-- PAD.PKCS7 (R123). -/
  | padPkcs7
  /-- UNPAD.NONE (R114). -/
  | unpadNone
  /-- UNPAD.ZERO (R116). -/
  | unpadZero
  /-- UNPAD.ISO7816 (R118). -/
  | unpadIso7816
  /-- UNPAD.X923 (R120). -/
  | unpadX923
  /-- UNPAD.ISO10126 (R122). -/
  | unpadIso10126
  /-- UNPAD.PKCS7 (R124). -/
  | unpadPkcs7
  /-- FWD.ECB (R181). -/
  | fwdEcb
  /-- FWD.CBC (R183). -/
  | fwdCbc
  /-- FWD.CFB (R200). -/
  | fwdCfb
  /-- FWD.OFB (R203). -/
  | fwdOfb
  /-- FWD.CTR (R211). -/
  | fwdCtr
  /-- INV.ECB (R182). -/
  | invEcb
  /-- INV.CBC (R184). -/
  | invCbc
  /-- INV.CFB (R201). -/
  | invCfb
  /-- INV.OFB (R204). -/
  | invOfb
  /-- INV.CTR (R212). -/
  | invCtr
  /-- ENC.ECB (R154). -/
  | encEcb (p : Scheme)
  /-- ENC.CBC (R156). -/
  | encCbc (p : Scheme)
  /-- ENC.CFB (R158). -/
  | encCfb (p : Scheme)
  /-- ENC.OFB (R160). -/
  | encOfb (p : Scheme)
  /-- ENC.CTR (R162). -/
  | encCtr (p : Scheme)
  /-- DEC.ECB (R155). -/
  | decEcb (p : Scheme)
  /-- DEC.CBC (R157). -/
  | decCbc (p : Scheme)
  /-- DEC.CFB (R159). -/
  | decCfb (p : Scheme)
  /-- DEC.OFB (R161). -/
  | decOfb (p : Scheme)
  /-- DEC.CTR (R163). -/
  | decCtr (p : Scheme)
deriving DecidableEq, Repr

end Sys2Proof
end

