-- ==== Sys2Proof/WellFormed.lean ====
section
/-! DEFINITION. What is well formed: the four fields of a command word (spec/30_encoding.md R80, R84, R85) and the
build parameters (spec/00_scope.md R4, R6). -/

namespace Sys2Proof

/-- The fields of a command word (R80). -/
structure Fields where
  /-- Bits 3:0, the operation. -/
  op : BitVec 4
  /-- Bits 7:4, the cipher mode. -/
  mode : BitVec 4
  /-- Bits 11:8, the padding scheme. -/
  pad : BitVec 4
  /-- Bits 31:12, reserved. -/
  rsv : BitVec 20
deriving DecidableEq, Repr

/-- The field legality table of R85, with the reserved bits of R84. -/
def Fields.wellFormed (f : Fields) : Bool :=
  f.rsv == 0 &&
  (((f.op == 1 || f.op == 2) && f.mode == 0 && decide (f.pad ≤ 5)) ||
   ((f.op == 3 || f.op == 4) && decide (f.mode ≤ 4) && f.pad == 0) ||
   ((f.op == 5 || f.op == 6) && decide (f.mode ≤ 4) && decide (f.pad ≤ 5)))

/-- The legal build parameters: 1 to 63 block words (R4); a capacity that is a multiple of 4 from 4 to 2^24 (R6). -/
def Params.wellFormed (p : Params) : Bool :=
  decide (1 ≤ p.blockWords) && decide (p.blockWords ≤ 63) &&
  p.bufBytes % 4 == 0 && decide (4 ≤ p.bufBytes) && decide (p.bufBytes ≤ 2 ^ 24)

end Sys2Proof
end

