-- ==== Sys2Proof/Decode.lean ====
section
/-! DEFINITION. The decoder of spec/30_encoding.md R87, total on every 32-bit word and rejecting by name, and the
encoder of R89. -/

namespace Sys2Proof

/-- Why a word is an illegal command (R88). -/
inductive Illegal where
  /-- A bit of RSV is set (R84). -/
  | rsvSet
  /-- OP 0x0 or 0x7 to 0xF (R81). -/
  | opReserved
  /-- MODE is not 0x0 for PAD or UNPAD (R85). -/
  | modeNotZero
  /-- MODE 0x5 to 0xF for FWD, INV, ENC or DEC (R82, R85). -/
  | modeReserved
  /-- PAD 0x6 to 0xF for PAD, UNPAD, ENC or DEC (R83, R85). -/
  | padReserved
  /-- PAD is not 0x0 for FWD or INV (R85). -/
  | padNotZero
deriving DecidableEq, Repr

/-- R87: "a command or `Illegal`". -/
inductive Decoded where
  /-- The word is this command. -/
  | command (i : Instr)
  /-- The word is illegal, and why. -/
  | illegal (why : Illegal)
deriving DecidableEq, Repr

/-- The fields of a word, as R80 places them. -/
def fieldsOf (w : Word) : Fields :=
  { op := w.extractLsb' 0 4, mode := w.extractLsb' 4 4, pad := w.extractLsb' 8 4, rsv := w.extractLsb' 12 20 }

/-- The word of four fields, as R80 places them. -/
def wordOf (f : Fields) : Word := f.rsv ++ f.pad ++ f.mode ++ f.op

/-- The scheme a PAD value selects (R83). -/
def schemeOf (v : BitVec 4) : Option Scheme :=
  match v.toNat with
  | 0 => some .nopad
  | 1 => some .zero
  | 2 => some .iso7816
  | 3 => some .x923
  | 4 => some .iso10126
  | 5 => some .pkcs7
  | _ => none

/-- The mode a MODE value selects (R82). -/
def modeOf (v : BitVec 4) : Option Mode :=
  match v.toNat with
  | 0 => some .ecb
  | 1 => some .cbc
  | 2 => some .cfb
  | 3 => some .ofb
  | 4 => some .ctr
  | _ => none

/-- PAD.p (R89). -/
def padCommand : Scheme → Instr
  | .nopad => .padNone
  | .zero => .padZero
  | .iso7816 => .padIso7816
  | .x923 => .padX923
  | .iso10126 => .padIso10126
  | .pkcs7 => .padPkcs7

/-- UNPAD.p (R89). -/
def unpadCommand : Scheme → Instr
  | .nopad => .unpadNone
  | .zero => .unpadZero
  | .iso7816 => .unpadIso7816
  | .x923 => .unpadX923
  | .iso10126 => .unpadIso10126
  | .pkcs7 => .unpadPkcs7

/-- FWD.m (R89). -/
def fwdCommand : Mode → Instr
  | .ecb => .fwdEcb
  | .cbc => .fwdCbc
  | .cfb => .fwdCfb
  | .ofb => .fwdOfb
  | .ctr => .fwdCtr

/-- INV.m (R89). -/
def invCommand : Mode → Instr
  | .ecb => .invEcb
  | .cbc => .invCbc
  | .cfb => .invCfb
  | .ofb => .invOfb
  | .ctr => .invCtr

/-- ENC.m with PAD field p (R89). -/
def encCommand : Mode → Scheme → Instr
  | .ecb => .encEcb
  | .cbc => .encCbc
  | .cfb => .encCfb
  | .ofb => .encOfb
  | .ctr => .encCtr

/-- DEC.m with PAD field p (R89). -/
def decCommand : Mode → Scheme → Instr
  | .ecb => .decEcb
  | .cbc => .decCbc
  | .cfb => .decCfb
  | .ofb => .decOfb
  | .ctr => .decCtr

/-- The branch of R87 for PAD and UNPAD: MODE 0, a legal PAD. -/
def decodePadding (f : Fields) (mk : Scheme → Instr) : Decoded :=
  if f.mode ≠ 0 then .illegal .modeNotZero
  else match schemeOf f.pad with
    | none => .illegal .padReserved
    | some p => .command (mk p)

/-- The branch of R87 for FWD and INV: a legal MODE, PAD 0. -/
def decodeTransform (f : Fields) (mk : Mode → Instr) : Decoded :=
  match modeOf f.mode with
  | none => .illegal .modeReserved
  | some m => if f.pad ≠ 0 then .illegal .padNotZero else .command (mk m)

/-- The branch of R87 for ENC and DEC: a legal MODE and a legal PAD. -/
def decodeContract (f : Fields) (mk : Mode → Scheme → Instr) : Decoded :=
  match modeOf f.mode with
  | none => .illegal .modeReserved
  | some m =>
    match schemeOf f.pad with
    | none => .illegal .padReserved
    | some p => .command (mk m p)

/-- R87 on the fields of a word: RSV first, then OP, then MODE and PAD as OP asks. -/
def decodeFields (f : Fields) : Decoded :=
  if f.rsv ≠ 0 then .illegal .rsvSet
  else match f.op.toNat with
    | 1 => decodePadding f padCommand
    | 2 => decodePadding f unpadCommand
    | 3 => decodeTransform f fwdCommand
    | 4 => decodeTransform f invCommand
    | 5 => decodeContract f encCommand
    | 6 => decodeContract f decCommand
    | _ => .illegal .opReserved

/-- R87. -/
def decode (w : Word) : Decoded := decodeFields (fieldsOf w)

/-- The word is a command, not `Illegal`. -/
def isCommand : Decoded → Bool
  | .command _ => true
  | .illegal _ => false

/-- The PAD value of a scheme (R83). -/
def schemeValue : Scheme → BitVec 4
  | .nopad => 0
  | .zero => 1
  | .iso7816 => 2
  | .x923 => 3
  | .iso10126 => 4
  | .pkcs7 => 5

/-- The MODE value of a mode (R82). -/
def modeValue : Mode → BitVec 4
  | .ecb => 0
  | .cbc => 1
  | .cfb => 2
  | .ofb => 3
  | .ctr => 4

/-- The fields of a command, from the opcode map of R89 (OP, MODE, PAD, RSV). -/
def encodeFields : Instr → Fields
  | .padNone => ⟨1, 0, 0, 0⟩
  | .padZero => ⟨1, 0, 1, 0⟩
  | .padIso7816 => ⟨1, 0, 2, 0⟩
  | .padX923 => ⟨1, 0, 3, 0⟩
  | .padIso10126 => ⟨1, 0, 4, 0⟩
  | .padPkcs7 => ⟨1, 0, 5, 0⟩
  | .unpadNone => ⟨2, 0, 0, 0⟩
  | .unpadZero => ⟨2, 0, 1, 0⟩
  | .unpadIso7816 => ⟨2, 0, 2, 0⟩
  | .unpadX923 => ⟨2, 0, 3, 0⟩
  | .unpadIso10126 => ⟨2, 0, 4, 0⟩
  | .unpadPkcs7 => ⟨2, 0, 5, 0⟩
  | .fwdEcb => ⟨3, 0, 0, 0⟩
  | .fwdCbc => ⟨3, 1, 0, 0⟩
  | .fwdCfb => ⟨3, 2, 0, 0⟩
  | .fwdOfb => ⟨3, 3, 0, 0⟩
  | .fwdCtr => ⟨3, 4, 0, 0⟩
  | .invEcb => ⟨4, 0, 0, 0⟩
  | .invCbc => ⟨4, 1, 0, 0⟩
  | .invCfb => ⟨4, 2, 0, 0⟩
  | .invOfb => ⟨4, 3, 0, 0⟩
  | .invCtr => ⟨4, 4, 0, 0⟩
  | .encEcb p => ⟨5, 0, schemeValue p, 0⟩
  | .encCbc p => ⟨5, 1, schemeValue p, 0⟩
  | .encCfb p => ⟨5, 2, schemeValue p, 0⟩
  | .encOfb p => ⟨5, 3, schemeValue p, 0⟩
  | .encCtr p => ⟨5, 4, schemeValue p, 0⟩
  | .decEcb p => ⟨6, 0, schemeValue p, 0⟩
  | .decCbc p => ⟨6, 1, schemeValue p, 0⟩
  | .decCfb p => ⟨6, 2, schemeValue p, 0⟩
  | .decOfb p => ⟨6, 3, schemeValue p, 0⟩
  | .decCtr p => ⟨6, 4, schemeValue p, 0⟩

/-- The word of a command (R89). -/
def encode (i : Instr) : Word := wordOf (encodeFields i)

/-- A command is well formed when its fields are legal (R85). -/
def Instr.wellFormed (i : Instr) : Bool := (encodeFields i).wellFormed

/-- The written forms of a command (R90); ENC and DEC may carry a padding suffix. -/
inductive Spelling where
  /-- `PAD.p` -/
  | pad (p : Scheme)
  /-- `UNPAD.p` -/
  | unpad (p : Scheme)
  /-- `FWD.m` -/
  | fwd (m : Mode)
  /-- `INV.m` -/
  | inv (m : Mode)
  /-- `ENC.m` or `ENC.m.p` -/
  | enc (m : Mode) (p : Option Scheme)
  /-- `DEC.m` or `DEC.m.p` -/
  | dec (m : Mode) (p : Option Scheme)
deriving DecidableEq, Repr

/-- The spelling of a mode (R82, R90). -/
def modeText : Mode → String
  | .ecb => "ECB"
  | .cbc => "CBC"
  | .cfb => "CFB"
  | .ofb => "OFB"
  | .ctr => "CTR"

/-- The spelling of a scheme (R90). -/
def schemeText : Scheme → String
  | .nopad => "NONE"
  | .zero => "ZERO"
  | .iso7816 => "ISO7816"
  | .x923 => "X923"
  | .iso10126 => "ISO10126"
  | .pkcs7 => "PKCS7"

/-- The padding suffix of ENC and DEC (R90). -/
def suffixText : Option Scheme → String
  | none => ""
  | some p => "." ++ schemeText p

/-- The mnemonic, upper case (R90). -/
def spellingText : Spelling → String
  | .pad p => "PAD." ++ schemeText p
  | .unpad p => "UNPAD." ++ schemeText p
  | .fwd m => "FWD." ++ modeText m
  | .inv m => "INV." ++ modeText m
  | .enc m p => "ENC." ++ modeText m ++ suffixText p
  | .dec m p => "DEC." ++ modeText m ++ suffixText p

/-- The scheme an assembler puts into ENC or DEC: for ECB and CBC the suffix, or ISO7816-4 where there is none (R91);
for a stream mode PAD 0x0, and a suffix is refused (R92). -/
def assembledScheme : Mode → Option Scheme → Option Scheme
  | .ecb, p => some (p.getD .iso7816)
  | .cbc, p => some (p.getD .iso7816)
  | _, none => some .nopad
  | _, some _ => none

/-- The command a spelling assembles to, none where an assembler refuses it (R90 to R92). -/
def assemble : Spelling → Option Instr
  | .pad p => some (padCommand p)
  | .unpad p => some (unpadCommand p)
  | .fwd m => some (fwdCommand m)
  | .inv m => some (invCommand m)
  | .enc m p => (assembledScheme m p).map (encCommand m)
  | .dec m p => (assembledScheme m p).map (decCommand m)

/-- The padding schemes, in the order of R83. -/
def schemes : List Scheme := [.nopad, .zero, .iso7816, .x923, .iso10126, .pkcs7]

/-- The cipher modes, in the order of R82. -/
def modes : List Mode := [.ecb, .cbc, .cfb, .ofb, .ctr]

/-- The suffixes an ENC or DEC may be written with (R90, R91). -/
def suffixes : List (Option Scheme) := none :: schemes.map some

/-- Every spelling. -/
def spellings : List Spelling :=
  schemes.map .pad ++ schemes.map .unpad ++ modes.map .fwd ++ modes.map .inv ++
    modes.flatMap (fun m => suffixes.map (.enc m)) ++ modes.flatMap (fun m => suffixes.map (.dec m))

/-- The word the assembler gives for a text, none for a text that is no mnemonic or that it refuses (R90 to R92). -/
def assembleText (t : String) : Option Word :=
  ((spellings.find? fun x => spellingText x == t).bind assemble).map encode

/-- The command of an instruction of the opcode table whose bits are `w`, every bit above `nbits` zero. A command is
one 32-bit word (R80), so nothing is laid out in memory. -/
def decodeTableWord (nbits w : Nat) : Option Instr :=
  if w % 2 ^ nbits < 2 ^ 32 then
    match decode (BitVec.ofNat 32 (w % 2 ^ nbits)) with
    | .command i => some i
    | .illegal _ => none
  else none

end Sys2Proof
end

