-- ==== Sys2Proof/Machine/State.lean ====
section
/-! DEFINITION. The state of MCPE (spec/10_state.md R20 to R43), what stands outside it and acts on it (the host, the
cipher port, the random port, reset: spec/00_scope.md R8, spec/70_reset_and_hazards.md R260), the reset state
(R39), and the reasons a step can stop. -/

namespace Sys2Proof.Machine

/-- Why a step stops with a fault. The faults the spec describes (R230) are NOT here: they are completions, next
states with ERR and ERRCODE. -/
inductive Fault where
  /-- Raised by the skeleton of every command (`runCommand`) where the build parameters are outside R4 and R6 or LEN is
  above BUF_BYTES: the spec gives such a machine no meaning (decision D2), and the engine would reach a DATA
  index that does not exist. SAFE: no run from a legal build gets there (R40). -/
  | outsideBuild
deriving DecidableEq, Repr

/-- Why a step has no meaning. -/
inductive Refusal where
  /-- Raised by a refused arm of exec, for an instruction without a meaning. SAFE. No arm does so in this model. -/
  | notModelled (mnemonic : String)
deriving DecidableEq, Repr

/-- The engine phase (R21). STATUS.BUSY reflects it (R23). -/
inductive Phase where
  /-- Waiting for a command. -/
  | idle
  /-- A command runs: it was issued and has not completed. -/
  | busy
deriving DecidableEq, Repr

/-- One thing that happens at MCPE, in the order it happens (R50, R63): which agent moves next is data of the State.
An access carries its width in bytes, so that an access of another width than 32 bits (R51) can be spoken of. -/
inductive Input where
  /-- The host reads `bytes` bytes at offset `off` (R50). -/
  | read (off : Word) (bytes : Nat)
  /-- The host writes value `v`, `bytes` bytes wide, at offset `off` (R50). -/
  | write (off : Word) (bytes : Nat) (v : Word)
  /-- The engine has its turn before the next host access (R266, R275, R277). -/
  | engine
  /-- The reset input is asserted, and released before anything else happens (R260, R261, R263). DESIGN CHOICE
  (notes/assumptions 23): the spec does not say what an access or an event does while reset is held. -/
  | reset
  /-- The platform changes the cipher's key (R265). -/
  | rekey (key : Nat)
  /-- From now on the cipher port and the random port answer, or do not (R69, R70, R275). -/
  | ports (cipher random : Bool)
deriving DecidableEq, Repr

/-- The state. The first group is the spec's (R20), the second the MODEL's own: what stands outside MCPE. -/
structure State where
  /-- BLOCK_WORDS and BUF_BYTES, read from INFO and CAP (R29, R30). Hardwired: nothing writes it. -/
  params : Params
  /-- The engine phase (R21). -/
  phase : Phase
  /-- The sequencer index IDX (R21). Hidden. -/
  idx : BitVec 25
  /-- The latched command word CUR (R43). Hidden. -/
  cur : Word
  /-- STATUS.DONE (R23). -/
  done : Bool
  /-- STATUS.ERR (R23). -/
  err : Bool
  /-- STATUS.HOSTERR (R23). -/
  hosterr : Bool
  /-- STATUS.ERRCODE (R23). -/
  errcode : BitVec 8
  /-- INTEN.DONE_IE (R34). -/
  doneIe : Bool
  /-- INTEN.ERR_IE (R34). -/
  errIe : Bool
  /-- INTEN.HOSTERR_IE (R34). -/
  hosterrIe : Bool
  /-- LEN (R24). -/
  len : Word
  /-- ERRINFO (R33). -/
  errinfo : Word
  /-- LASTCMD (R32). -/
  lastcmd : Word
  /-- The 64-bit value of IVVALID1 and IVVALID0, IVVALID1 above (R35). -/
  ivvalid : BitVec 64
  /-- IV[0] to IV[B-1] (R25). -/
  iv : List Byte
  /-- WORK[0] to WORK[B-1] (R26). Hidden. -/
  work : List Byte
  /-- SAVE[0] to SAVE[B-1] (R27). Hidden. -/
  save : List Byte
  /-- The written bytes of DATA (R28), addresses strictly rising. A byte that is not listed was never written since
  reset: each read of it is a draw (R71). -/
  data : List Host.Cell
  /-- MODEL. The name of the external key (R44). -/
  key : Nat
  /-- MODEL. The key was changed since the running command's issue: its cipher answers are draws (R265). -/
  keyChanged : Bool
  /-- MODEL. The cipher port answers (R69). -/
  cipherUp : Bool
  /-- MODEL. The random port answers (R70). -/
  randomUp : Bool
  /-- MODEL. How many draws were taken: the next draw is `Config.draw draws`. -/
  draws : Nat
  /-- MODEL. The word the last host read returned. -/
  rdata : Word
  /-- MODEL. What happens next at MCPE, first thing first. -/
  inputs : List Input
deriving DecidableEq, Repr

/-- The state right after reset of an MCPE built with `p` (R39). IV, WORK, SAVE, IDX and CUR are zeros by the model's choice,
since the spec leaves them unspecified (notes/assumptions 1); DATA lists nothing. -/
def State.resetOf (p : Params) : State :=
  { params := p, phase := .idle, idx := 0, cur := 0, done := false, err := false, hosterr := false, errcode := 0,
    doneIe := false, errIe := false, hosterrIe := false, len := 0, errinfo := 0, lastcmd := 0, ivvalid := 0,
    iv := List.replicate (4 * p.blockWords) 0, work := List.replicate (4 * p.blockWords) 0,
    save := List.replicate (4 * p.blockWords) 0, data := [],
    key := 0, keyChanged := false, cipherUp := true, randomUp := true, draws := 0, rdata := 0, inputs := [] }

/-- The state right after reset of the reference build (R39, R4, R6). -/
def State.reset : State := State.resetOf Params.reference

end Sys2Proof.Machine
end

