-- ==== Sys2Proof/Machine/Operands.lean ====
section
/-! DEFINITION. The implicit operands of the commands (spec/30_encoding.md R86) and the arithmetic on lengths
(spec/00_scope.md R5, R16; spec/40_padding.md R110; spec/41_mode_contract.md R151). -/

namespace Sys2Proof.Machine

/-- B, the block size in bytes (R5). -/
def State.blockBytes (s : State) : Nat := 4 * s.params.blockWords

/-- BUF_BYTES (R6). -/
def State.bufBytes (s : State) : Nat := s.params.bufBytes

/-- LEN as a number (R16 computes on unbounded integers). -/
def State.length (s : State) : Nat := s.len.toNat

/-- `N(L) = B - (L mod B)` (R110). -/
def requiredPad (B L : Nat) : Nat := B - L % B

/-- `Z(L) = (B - (L mod B)) mod B` (R110). -/
def zeroPad (B L : Nat) : Nat := (B - L % B) % B

/-- The number of bytes a pad stage appends (R111). -/
def padCount (q : Scheme) (B L : Nat) : Nat :=
  match q with
  | .nopad => 0
  | .zero => zeroPad B L
  | .iso7816 => requiredPad B L
  | .x923 => requiredPad B L
  | .iso10126 => requiredPad B L
  | .pkcs7 => requiredPad B L

/-- A block mode works on whole blocks (R59). -/
def isBlockMode : Mode → Bool
  | .ecb => true
  | .cbc => true
  | .cfb => false
  | .ofb => false
  | .ctr => false

/-- The modes that need the IV (R96). -/
def needsIv : Mode → Bool
  | .ecb => false
  | .cbc => true
  | .cfb => true
  | .ofb => true
  | .ctr => true

/-- `eff_pad(m, p)` (R151). -/
def effPad (m : Mode) (p : Scheme) : Scheme := if isBlockMode m then p else .nopad

/-- The number of blocks a length touches, the last one perhaps partial: `ceil(L / B)` (R211). -/
def blocksTouched (B L : Nat) : Nat := (L + B - 1) / B

/-- `IV_COMPLETE`: IVVALID bits 0 to BLOCK_WORDS-1 are all 1 (R35). -/
def State.ivComplete (s : State) : Bool := (List.range s.params.blockWords).all fun w => s.ivvalid.getLsbD w

/-- The machines the spec gives a meaning to: a legal build (R4, R6) with LEN within the buffer (R40). -/
def State.legal (s : State) : Bool := s.params.wellFormed && decide (s.length ≤ s.bufBytes)

end Sys2Proof.Machine
end

