-- ==== Sys2Proof/Machine/Flags.lean ====
section
/-! DEFINITION. STATUS, INTEN, the error codes and irq (spec/10_state.md R23, R34, R36, R42; spec/60_exceptions.md
R230). MCPE has no flag that a command's data sets (R42). -/

namespace Sys2Proof.Machine

/-- The eight faults of a command (R230). -/
inductive Err where
  /-- The length byte is zero, or there is none. -/
  | paddingUnderflow
  /-- The length byte exceeds B or LEN. -/
  | paddingOverflow
  /-- A filler byte or the ISO7816-4 marker is wrong. -/
  | paddingByteMismatch
  /-- The ISO7816-4 scan met only 0x00. -/
  | paddingNotFound
  /-- The word does not decode. -/
  | illegalCommand
  /-- IV_COMPLETE is false. -/
  | ivMissing
  /-- A block mode on an unaligned length. -/
  | lengthNotAligned
  /-- A pad stage would pass BUF_BYTES. -/
  | bufferOverflow
deriving DecidableEq, Repr

/-- ERRCODE of a fault (R230). -/
def errCode : Err → BitVec 8
  | .paddingUnderflow => 0x01
  | .paddingOverflow => 0x02
  | .paddingByteMismatch => 0x03
  | .paddingNotFound => 0x04
  | .illegalCommand => 0x10
  | .ivMissing => 0x11
  | .lengthNotAligned => 0x12
  | .bufferOverflow => 0x13

/-- STATUS.BUSY reflects the phase (R21, R23). -/
def State.busy (s : State) : Bool :=
  match s.phase with
  | .idle => false
  | .busy => true

/-- The word a read of STATUS returns (R23, R38). -/
def State.statusWord (s : State) : Word :=
  (0 : BitVec 16) ++ s.errcode ++ (0 : BitVec 4) ++ BitVec.ofBool s.hosterr ++ BitVec.ofBool s.err ++
    BitVec.ofBool s.done ++ BitVec.ofBool s.busy

/-- The word a read of INTEN returns (R34). -/
def State.intenWord (s : State) : Word :=
  (0 : BitVec 29) ++ BitVec.ofBool s.hosterrIe ++ BitVec.ofBool s.errIe ++ BitVec.ofBool s.doneIe

/-- The output irq (R36). -/
def State.irq (s : State) : Bool := (s.done && s.doneIe) || (s.err && s.errIe) || (s.hosterr && s.hosterrIe)

/-- STATUS.HOSTERR becomes 1 (R51, R237). -/
def State.setHosterr (s : State) : State := { s with hosterr := true }

/-- A write of `v` to STATUS: a 1 in bit 1, 2 or 3 clears DONE, ERR or HOSTERR; clearing ERR also clears ERRCODE and
ERRINFO (R23). -/
def State.writeStatus (v : Word) (s : State) : State :=
  { s with
    done := s.done && !v.getLsbD 1
    err := s.err && !v.getLsbD 2
    errcode := if v.getLsbD 2 then 0 else s.errcode
    errinfo := if v.getLsbD 2 then 0 else s.errinfo
    hosterr := s.hosterr && !v.getLsbD 3 }

/-- A write of `v` to INTEN: bits 0, 1 and 2 (R34). -/
def State.writeInten (v : Word) (s : State) : State :=
  { s with doneIe := v.getLsbD 0, errIe := v.getLsbD 1, hosterrIe := v.getLsbD 2 }

end Sys2Proof.Machine
end

