-- ==== Sys2Proof/Machine/Ops.lean ====
section
/-! DEFINITION. The shared operations: byte order, draws, DATA, the registers of the engine, the two ports, the
preconditions, and the issue and the two completions of a command (spec/20_memory.md; spec/30_encoding.md R94 to
R97; spec/60_exceptions.md R233 to R235). -/

namespace Sys2Proof.Machine

/-! ## Bytes and words -/

/-- A host word from four bytes, big-endian (R52, R53). -/
def packWord (b0 b1 b2 b3 : Byte) : Word := b0 ++ b1 ++ b2 ++ b3

/-- The four bytes of a host word, big-endian: bits 31:24 first (R52, R53). -/
def wordBytes (w : Word) : List Byte :=
  [w.extractLsb' 24 8, w.extractLsb' 16 8, w.extractLsb' 8 8, w.extractLsb' 0 8]

/-- `a ^ b` on byte vectors (R10). -/
def xorBytes (a b : List Byte) : List Byte := List.zipWith (· ^^^ ·) a b

/-- A number as a 32-bit register value. -/
def toWord (n : Nat) : Word := BitVec.ofNat 32 n

/-- A number as one byte (R110: every padding length fits). -/
def toByte (n : Nat) : Byte := BitVec.ofNat 8 n

/-! ## Draws -/

/-- The state that has taken `n` draws in all. -/
def State.setDraws (n : Nat) (s : State) : State := { s with draws := n }

/-- Draws number `d` to `d + n - 1`. -/
def drawnBytes (d n : Nat) : List Byte := (List.range n).map fun j => Config.draw (d + j)

/-- Take `n` draws (R13): their values and the state that has taken them. -/
def State.drawBytes (n : Nat) (s : State) : List Byte × State := (drawnBytes s.draws n, s.setDraws (s.draws + n))

/-- The word of draws number `n` to `n + 3`. -/
def drawnWord (n : Nat) : Word :=
  packWord (Config.draw n) (Config.draw (n + 1)) (Config.draw (n + 2)) (Config.draw (n + 3))

/-! ## DATA -/

/-- DATA is in canonical form: addresses strictly rising. No byte value equals what an unlisted address reads as,
since that is a draw (R71). -/
abbrev Memory.wf (m : List Host.Cell) : Prop := m.Pairwise fun x y => x.1 < y.1

/-- Every listed address is an index of a buffer of `n` bytes (R28). -/
abbrev Memory.within (n : Nat) (m : List Host.Cell) : Prop := ∀ x ∈ m, x.1 < n

/-- The byte written at an index, none where nothing was written since reset. -/
def Memory.lookup : List Host.Cell → Nat → Option Byte
  | [], _ => none
  | (a, b) :: m, i => if a = i then some b else Memory.lookup m i

/-- Write one byte, keeping the addresses strictly rising. -/
def Memory.write : List Host.Cell → Nat → Byte → List Host.Cell
  | [], i, b => [(i, b)]
  | (a, x) :: m, i, b =>
    if i < a then (i, b) :: (a, x) :: m
    else if i = a then (i, b) :: m
    else (a, x) :: Memory.write m i b

/-- What a byte that nothing has written reads as: draw number `n` (R71). -/
def Memory.unwritten (n : Nat) : Byte := Config.draw n

/-- The byte of DATA at an index, none where nothing was written since reset. -/
def State.byteAt (s : State) (i : Nat) : Option Byte := Memory.lookup s.data i

/-- Read `DATA[i]`: the byte written there, else a draw, fresh at every read (R57, R71). -/
def State.readByte (i : Nat) (s : State) : Byte × State :=
  match Memory.lookup s.data i with
  | some b => (b, s)
  | none => (Memory.unwritten s.draws, s.setDraws (s.draws + 1))

/-- `DATA[i] <- b` (R57). -/
def State.writeByte (i : Nat) (b : Byte) (s : State) : State := { s with data := Memory.write s.data i b }

/-- `MemRead(i, n)` (R11). -/
def memRead : Nat → Nat → State → List Byte × State
  | 0, _, s => ([], s)
  | n + 1, i, s => ((s.readByte i).1 :: (memRead n (i + 1) (s.readByte i).2).1, (memRead n (i + 1) (s.readByte i).2).2)

/-- `MemWrite(i, n, v)` with `n` the length of `v` (R11). -/
def memWrite : List Byte → Nat → State → State
  | [], _, s => s
  | b :: v, i, s => memWrite v (i + 1) (s.writeByte i b)

/-! ## The engine's registers -/

/-- `IDX <- i` (R21). -/
def State.setIdx (i : Nat) (s : State) : State := { s with idx := BitVec.ofNat 25 i }

/-- `LEN <- n` (R24). -/
def State.setLen (n : Nat) (s : State) : State := { s with len := toWord n }

/-- `WORK <- v` (R26). -/
def State.setWork (v : List Byte) (s : State) : State := { s with work := v }

/-- `SAVE <- v` (R27). -/
def State.setSave (v : List Byte) (s : State) : State := { s with save := v }

/-- `v[j]` of a byte vector (R10). -/
def byteOf (v : List Byte) (j : Nat) : Byte := v.getD j 0

/-! ## How a stage ends -/

/-- The end of a stage of a command. -/
inductive StageResult where
  /-- The stage finished. -/
  | ok (s : State)
  /-- `raise e(info)` (R14), with the state the raise leaves. -/
  | raised (e : Err) (info : Word) (s : State)
  /-- A port does not answer: the command does not complete (R69, R70, R275). -/
  | waiting
deriving DecidableEq, Repr

/-- The next stage runs when the one before it finished; a raise ends the command (R14, R94). -/
def StageResult.andThen : StageResult → (State → StageResult) → StageResult
  | .ok s, f => f s
  | .raised e v s, _ => .raised e v s
  | .waiting, _ => .waiting

/-! ## The ports -/

/-- One request at the cipher port answered with `answer`: none where the port does not answer; draws where the key was
changed during the command (R69, R265). -/
def State.cipherAnswer (answer : List Byte) (s : State) : Option (List Byte × State) :=
  if s.cipherUp then
    if s.keyChanged then some (s.drawBytes s.blockBytes) else some (answer, s)
  else none

/-- `BlockEncrypt(v)` (R12). -/
def blockEncrypt (c : Cipher) (v : List Byte) (s : State) : Option (List Byte × State) :=
  s.cipherAnswer (c.encBlock s.blockBytes s.key v)

/-- `BlockDecrypt(v)` (R12). -/
def blockDecrypt (c : Cipher) (v : List Byte) (s : State) : Option (List Byte × State) :=
  s.cipherAnswer (c.decBlock s.blockBytes s.key v)

/-- `RandomByte()`: a draw; none where the random port does not answer (R13, R70). -/
def randomByte (s : State) : Option (Byte × State) :=
  if s.randomUp then some (Config.draw s.draws, s.setDraws (s.draws + 1)) else none

/-! ## The preconditions -/

/-- `iv_check()`: IvMissing with bits 31:0 of IVVALID where IV_COMPLETE is false (R96). -/
def ivCheck (s : State) : StageResult :=
  if s.ivComplete then .ok s else .raised .ivMissing (s.ivvalid.extractLsb' 0 32) s

/-- `capacity(L, n)` with `total = L + n` (R111). -/
def capacity (total : Nat) (s : State) : StageResult :=
  if s.bufBytes < total then .raised .bufferOverflow (toWord total) s else .ok s

/-- LengthNotAligned with the length tested, where it is no multiple of B (R180, R152). -/
def aligned (total : Nat) (s : State) : StageResult :=
  if total % s.blockBytes ≠ 0 then .raised .lengthNotAligned (toWord total) s else .ok s

/-! ## Issue and completion -/

/-- What the acceptance of a command word does: LASTCMD and CUR take it, the last completion is cleared (R95). The
model's record of a key change (R265) is cleared too. -/
def State.accept (w : Word) (s : State) : State :=
  { s with lastcmd := w, cur := w, done := false, err := false, errcode := 0, errinfo := 0, keyChanged := false }

/-- The state in which the command word `w` has been issued and the engine has not yet run it (R95, R277). -/
def State.started (w : Word) (s : State) : State := { s.accept w with phase := .busy }

/-- After a command WORK, SAVE, IDX and CUR are unspecified (R26, R43): each becomes a draw, IDX within 0 to
BUF_BYTES (R21). -/
def State.scrub (s : State) : State :=
  { s with
    work := drawnBytes s.draws s.blockBytes
    save := drawnBytes (s.draws + s.blockBytes) s.blockBytes
    cur := drawnWord (s.draws + 2 * s.blockBytes)
    idx := BitVec.ofNat 25 ((drawnWord (s.draws + 2 * s.blockBytes + 4)).toNat % (s.bufBytes + 1))
    draws := s.draws + 2 * s.blockBytes + 8 }

/-- Successful completion (R233). -/
def completeOk (s : State) : State := { s.scrub with phase := .idle, done := true }

/-- Fault completion, MCPE's taking of an exception: BUSY falls, ERR rises, ERRCODE and ERRINFO say what and where;
control goes nowhere (R234). -/
def completeFault (e : Err) (info : Word) (s : State) : State :=
  { s.scrub with phase := .idle, err := true, errcode := errCode e, errinfo := info }

/-- Issue of the word `w` while IDLE: an illegal word completes at once, a command makes the engine BUSY (R95). -/
def State.issue (w : Word) (s : State) : State :=
  match decode w with
  | .illegal _ => completeFault .illegalCommand w (s.accept w)
  | .command _ => s.started w

/-- The skeleton of every command: its preconditions and stages, then completion (R94). A command that waits for a port
has not completed: the machine stays as it is, BUSY (R275). -/
def runCommand (stages : State → StageResult) (s : State) : Host.Outcome State Fault Refusal :=
  if s.legal then
    match stages s with
    | .ok t => .next (completeOk t)
    | .raised e info t => .next (completeFault e info t)
    | .waiting => .next s
  else .fault .outsideBuild

end Sys2Proof.Machine
end

