-- ==== Sys2Proof/Machine/BlockModes.lean ====
section
/-! DEFINITION. The block-mode transforms ECB and CBC and the meanings of FWD and INV of those modes
(spec/42_ecb_cbc.md R180 to R187). During each loop IDX = k*B. -/

namespace Sys2Proof.Machine

/-- `block_check()` (R180). -/
def blockCheck (s : State) : StageResult := aligned s.length s

/-- The loop of `fwd_ECB`: `n` blocks from block `k` on (R181). -/
def fwdEcbLoop (c : Cipher) : Nat → Nat → State → StageResult
  | 0, _, s => .ok s
  | n + 1, k, s =>
    let B := s.blockBytes
    let r := memRead B (k * B) (s.setIdx (k * B))
    match blockEncrypt c r.1 r.2 with
    | none => .waiting
    | some (y, t) => fwdEcbLoop c n (k + 1) (memWrite y (k * B) t)

/-- `fwd_ECB` (R181). -/
def fwdEcbStage (c : Cipher) (s : State) : StageResult :=
  (blockCheck s).andThen fun s => fwdEcbLoop c (s.length / s.blockBytes) 0 s

/-- The loop of `inv_ECB`: `n` blocks from block `k` on (R182). -/
def invEcbLoop (c : Cipher) : Nat → Nat → State → StageResult
  | 0, _, s => .ok s
  | n + 1, k, s =>
    let B := s.blockBytes
    let r := memRead B (k * B) (s.setIdx (k * B))
    match blockDecrypt c r.1 r.2 with
    | none => .waiting
    | some (y, t) => invEcbLoop c n (k + 1) (memWrite y (k * B) t)

/-- `inv_ECB` (R182). -/
def invEcbStage (c : Cipher) (s : State) : StageResult :=
  (blockCheck s).andThen fun s => invEcbLoop c (s.length / s.blockBytes) 0 s

/-- The XOR operand of block `k` in `fwd_CBC`: the IV for block 0, else block k-1 of DATA, which the previous iteration
has written (R183, R187). -/
def cbcPrev (k : Nat) (s : State) : List Byte × State :=
  if k = 0 then (s.iv, s) else memRead s.blockBytes ((k - 1) * s.blockBytes) s

/-- The loop of `fwd_CBC`: `n` blocks from block `k` on (R183). -/
def fwdCbcLoop (c : Cipher) : Nat → Nat → State → StageResult
  | 0, _, s => .ok s
  | n + 1, k, s =>
    let B := s.blockBytes
    let p := cbcPrev k (s.setIdx (k * B))
    let r := memRead B (k * B) p.2
    match blockEncrypt c (xorBytes r.1 p.1) r.2 with
    | none => .waiting
    | some (y, t) => fwdCbcLoop c n (k + 1) (memWrite y (k * B) t)

/-- `fwd_CBC` (R183). -/
def fwdCbcStage (c : Cipher) (s : State) : StageResult :=
  (blockCheck s).andThen fun s => fwdCbcLoop c (s.length / s.blockBytes) 0 s

/-- The loop of `inv_CBC`: `n` blocks from block `k` on. SAVE clones the incoming block, the block is decrypted in place
and then XORed with WORK, and WORK takes the clone (R184). -/
def invCbcLoop (c : Cipher) : Nat → Nat → State → StageResult
  | 0, _, s => .ok s
  | n + 1, k, s =>
    let B := s.blockBytes
    let r := memRead B (k * B) (s.setIdx (k * B))
    let s1 := r.2.setSave r.1
    match blockDecrypt c s1.save s1 with
    | none => .waiting
    | some (y, s2) =>
      let q := memRead B (k * B) (memWrite y (k * B) s2)
      let s3 := memWrite (xorBytes q.1 q.2.work) (k * B) q.2
      invCbcLoop c n (k + 1) (s3.setWork s3.save)

/-- `inv_CBC` (R184). -/
def invCbcStage (c : Cipher) (s : State) : StageResult :=
  (blockCheck s).andThen fun s => invCbcLoop c (s.length / s.blockBytes) 0 (s.setWork s.iv)

/-- FWD.ECB (R181). -/
def execFwdEcb (s : State) : Host.Outcome State Fault Refusal := runCommand (fwdEcbStage Config.cipher) s

/-- INV.ECB (R182). -/
def execInvEcb (s : State) : Host.Outcome State Fault Refusal := runCommand (invEcbStage Config.cipher) s

/-- FWD.CBC, after the IV check (R183, R96). -/
def execFwdCbc (s : State) : Host.Outcome State Fault Refusal :=
  runCommand (fun s => (ivCheck s).andThen (fwdCbcStage Config.cipher)) s

/-- INV.CBC, after the IV check (R184, R96). -/
def execInvCbc (s : State) : Host.Outcome State Fault Refusal :=
  runCommand (fun s => (ivCheck s).andThen (invCbcStage Config.cipher)) s

end Sys2Proof.Machine
end

