-- ==== Sys2Proof/Machine/Padding.lean ====
section
/-! DEFINITION. The padding stages and the meanings of PAD.x and UNPAD.x (spec/40_padding.md R110 to R128). The IV is
not checked (R96). -/

namespace Sys2Proof.Machine

/-! ## Pad stages -/

/-- `for i in i .. i+n-1: DATA[i] <- b`. -/
def fill (b : Byte) : Nat → Nat → State → State
  | 0, _, s => s
  | n + 1, i, s => fill b n (i + 1) ((s.setIdx i).writeByte i b)

/-- `for i in i .. i+n-1: DATA[i] <- RandomByte()` (R121). -/
def fillRandom : Nat → Nat → State → StageResult
  | 0, _, s => .ok s
  | n + 1, i, s =>
    match randomByte (s.setIdx i) with
    | none => .waiting
    | some (b, t) => fillRandom n (i + 1) (t.writeByte i b)

/-- `pad_NONE` (R113). -/
def padNoneStage (s : State) : StageResult := .ok s

/-- `pad_ZERO` (R115). -/
def padZeroStage (s : State) : StageResult :=
  let L := s.length
  let z := zeroPad s.blockBytes L
  (capacity (L + z) s).andThen fun s => .ok ((fill 0x00 z L s).setLen (L + z))

/-- `pad_ISO7816` (R117). -/
def padIso7816Stage (s : State) : StageResult :=
  let L := s.length
  let N := requiredPad s.blockBytes L
  (capacity (L + N) s).andThen fun s =>
    .ok ((fill 0x00 (N - 1) (L + 1) ((s.setIdx L).writeByte L 0x80)).setLen (L + N))

/-- `pad_X923` (R119). -/
def padX923Stage (s : State) : StageResult :=
  let L := s.length
  let N := requiredPad s.blockBytes L
  (capacity (L + N) s).andThen fun s =>
    .ok ((((fill 0x00 (N - 1) L s).setIdx (L + N - 1)).writeByte (L + N - 1) (toByte N)).setLen (L + N))

/-- `pad_ISO10126` (R121): one random request per filler byte, in index order. -/
def padIso10126Stage (s : State) : StageResult :=
  let L := s.length
  let N := requiredPad s.blockBytes L
  (capacity (L + N) s).andThen fun s =>
    (fillRandom (N - 1) L s).andThen fun s =>
      .ok (((s.setIdx (L + N - 1)).writeByte (L + N - 1) (toByte N)).setLen (L + N))

/-- `pad_PKCS7` (R123). -/
def padPkcs7Stage (s : State) : StageResult :=
  let L := s.length
  let N := requiredPad s.blockBytes L
  (capacity (L + N) s).andThen fun s => .ok ((fill (toByte N) N L s).setLen (L + N))

/-- `pad_q` (R128). -/
def padStage : Scheme → State → StageResult
  | .nopad => padNoneStage
  | .zero => padZeroStage
  | .iso7816 => padIso7816Stage
  | .x923 => padX923Stage
  | .iso10126 => padIso10126Stage
  | .pkcs7 => padPkcs7Stage

/-! ## Unpad stages -/

/-- The loop of `unpad_ZERO` from length `L` down, and its LEN write (R116). DEDUCED (notes/assumptions 24): R58 has an unpad read
`DATA[LEN_end .. LEN_start-1]` only, but R116's loop also reads `DATA[LEN_end-1]`, the byte that stops it; R58 is derived from
R116 (R15), so R116 is followed. -/
def stripZeros : Nat → State → State
  | 0, s => s.setLen 0
  | L + 1, s =>
    let r := (s.setIdx L).readByte L
    if r.1 = 0x00 then stripZeros L r.2 else r.2.setLen (L + 1)

/-- The scan of `unpad_ISO7816` with `m` bytes left to examine, the next one below index `i` (R118). A scan that raises has read
bytes that R58 does not give it (notes/assumptions 24). -/
def isoScan : Nat → Nat → State → StageResult
  | 0, i, s => .raised .paddingNotFound (toWord i) s
  | m + 1, i, s =>
    let r := (s.setIdx (i - 1)).readByte (i - 1)
    if r.1 = 0x80 then .ok (r.2.setLen (i - 1))
    else if r.1 ≠ 0x00 then .raised .paddingByteMismatch (toWord (i - 1)) r.2
    else isoScan m (i - 1) r.2

/-- `decode_len()`: the padding length of a length-byte scheme, given to the rest of the stage (R112). Where it raises it has
read the length byte, which R58 does not give it (notes/assumptions 24). -/
def decodeLen (s : State) (rest : Nat → State → StageResult) : StageResult :=
  let L := s.length
  if L = 0 then .raised .paddingUnderflow (toWord 0) s
  else
    let r := (s.setIdx (L - 1)).readByte (L - 1)
    let N := r.1.toNat
    if N = 0 then .raised .paddingUnderflow (toWord (L - 1)) r.2
    else if s.blockBytes < N then .raised .paddingOverflow (toWord (L - 1)) r.2
    else if L < N then .raised .paddingOverflow (toWord (L - 1)) r.2
    else rest N r.2

/-- `for i from i down to i-n+1: if DATA[i] != b: raise PaddingByteMismatch(i)` (R120, R124). Where it raises it has read
bytes that R58 does not give it (notes/assumptions 24). -/
def checkFiller (b : Byte) : Nat → Nat → State → StageResult
  | 0, _, s => .ok s
  | n + 1, i, s =>
    let r := (s.setIdx i).readByte i
    if r.1 ≠ b then .raised .paddingByteMismatch (toWord i) r.2 else checkFiller b n (i - 1) r.2

/-- `unpad_NONE` (R114). -/
def unpadNoneStage (s : State) : StageResult := .ok s

/-- `unpad_ZERO` (R116). -/
def unpadZeroStage (s : State) : StageResult := .ok (stripZeros s.length s)

/-- `unpad_ISO7816` (R118). -/
def unpadIso7816Stage (s : State) : StageResult := isoScan (min s.length s.blockBytes) s.length s

/-- `unpad_X923` (R120). -/
def unpadX923Stage (s : State) : StageResult :=
  let L := s.length
  decodeLen s fun N s => (checkFiller 0x00 (N - 1) (L - 2) s).andThen fun s => .ok (s.setLen (L - N))

/-- `unpad_ISO10126` (R122). -/
def unpadIso10126Stage (s : State) : StageResult :=
  let L := s.length
  decodeLen s fun N s => .ok (s.setLen (L - N))

/-- `unpad_PKCS7` (R124). -/
def unpadPkcs7Stage (s : State) : StageResult :=
  let L := s.length
  decodeLen s fun N s => (checkFiller (toByte N) (N - 1) (L - 2) s).andThen fun s => .ok (s.setLen (L - N))

/-- `unpad_q` (R128). -/
def unpadStage : Scheme → State → StageResult
  | .nopad => unpadNoneStage
  | .zero => unpadZeroStage
  | .iso7816 => unpadIso7816Stage
  | .x923 => unpadX923Stage
  | .iso10126 => unpadIso10126Stage
  | .pkcs7 => unpadPkcs7Stage

/-! ## Meanings -/

/-- PAD.NONE (R113). -/
def execPadNone (s : State) : Host.Outcome State Fault Refusal := runCommand padNoneStage s

/-- PAD.ZERO (R115). -/
def execPadZero (s : State) : Host.Outcome State Fault Refusal := runCommand padZeroStage s

/-- PAD.ISO7816 (R117). -/
def execPadIso7816 (s : State) : Host.Outcome State Fault Refusal := runCommand padIso7816Stage s

/-- PAD.X923 (R119). -/
def execPadX923 (s : State) : Host.Outcome State Fault Refusal := runCommand padX923Stage s

/-- PAD.ISO10126 (R121). -/
def execPadIso10126 (s : State) : Host.Outcome State Fault Refusal := runCommand padIso10126Stage s

/-- PAD.PKCS7 (R123). -/
def execPadPkcs7 (s : State) : Host.Outcome State Fault Refusal := runCommand padPkcs7Stage s

/-- UNPAD.NONE (R114). -/
def execUnpadNone (s : State) : Host.Outcome State Fault Refusal := runCommand unpadNoneStage s

/-- UNPAD.ZERO (R116). -/
def execUnpadZero (s : State) : Host.Outcome State Fault Refusal := runCommand unpadZeroStage s

/-- UNPAD.ISO7816 (R118). -/
def execUnpadIso7816 (s : State) : Host.Outcome State Fault Refusal := runCommand unpadIso7816Stage s

/-- UNPAD.X923 (R120). -/
def execUnpadX923 (s : State) : Host.Outcome State Fault Refusal := runCommand unpadX923Stage s

/-- UNPAD.ISO10126 (R122). -/
def execUnpadIso10126 (s : State) : Host.Outcome State Fault Refusal := runCommand unpadIso10126Stage s

/-- UNPAD.PKCS7 (R124). -/
def execUnpadPkcs7 (s : State) : Host.Outcome State Fault Refusal := runCommand unpadPkcs7Stage s

end Sys2Proof.Machine
end

