-- ==== Sys2Proof/Machine/StreamModes.lean ====
section
/-! DEFINITION. The stream-mode transforms CFB, OFB and CTR and the meanings of FWD and INV of those modes
(spec/43_cfb_ofb_ctr.md R200 to R214). They send only encrypt requests. -/

namespace Sys2Proof.Machine

/-! ## CFB and OFB: the keystream in WORK -/

/-- `if i mod B = 0: WORK <- BlockEncrypt(WORK)` (R200, R201, R203). -/
def refresh (c : Cipher) (i : Nat) (s : State) : Option State :=
  if i % s.blockBytes = 0 then
    match blockEncrypt c s.work s with
    | none => none
    | some (y, t) => some (t.setWork y)
  else some s

/-- The loop of `fwd_CFB`: `n` bytes from index `i` on. The ciphertext byte is fed back (R200). -/
def fwdCfbLoop (c : Cipher) : Nat → Nat → State → StageResult
  | 0, _, s => .ok s
  | n + 1, i, s =>
    match refresh c i (s.setIdx i) with
    | none => .waiting
    | some t =>
      let j := i % t.blockBytes
      let r := t.readByte i
      let ct := r.1 ^^^ byteOf r.2.work j
      fwdCfbLoop c n (i + 1) ((r.2.writeByte i ct).setWork (r.2.work.set j ct))

/-- `fwd_CFB` (R200). -/
def fwdCfbStage (c : Cipher) (s : State) : StageResult := fwdCfbLoop c s.length 0 (s.setWork s.iv)

/-- The loop of `inv_CFB`: `n` bytes from index `i` on. The ciphertext byte, read before it is overwritten, is fed back
(R201). -/
def invCfbLoop (c : Cipher) : Nat → Nat → State → StageResult
  | 0, _, s => .ok s
  | n + 1, i, s =>
    match refresh c i (s.setIdx i) with
    | none => .waiting
    | some t =>
      let j := i % t.blockBytes
      let r := t.readByte i
      let ct := r.1
      invCfbLoop c n (i + 1) ((r.2.writeByte i (ct ^^^ byteOf r.2.work j)).setWork (r.2.work.set j ct))

/-- `inv_CFB` (R201). -/
def invCfbStage (c : Cipher) (s : State) : StageResult := invCfbLoop c s.length 0 (s.setWork s.iv)

/-- The loop of `fwd_OFB`: `n` bytes from index `i` on (R203). -/
def fwdOfbLoop (c : Cipher) : Nat → Nat → State → StageResult
  | 0, _, s => .ok s
  | n + 1, i, s =>
    match refresh c i (s.setIdx i) with
    | none => .waiting
    | some t =>
      let r := t.readByte i
      fwdOfbLoop c n (i + 1) (r.2.writeByte i (r.1 ^^^ byteOf r.2.work (i % r.2.blockBytes)))

/-- `fwd_OFB` (R203). -/
def fwdOfbStage (c : Cipher) (s : State) : StageResult := fwdOfbLoop c s.length 0 (s.setWork s.iv)

/-- `inv_OFB() = fwd_OFB()` (R204). -/
def invOfbStage (c : Cipher) (s : State) : StageResult := fwdOfbStage c s

/-! ## CTR: the counter in WORK, the scratch keystream in SAVE -/

/-- `n` bytes of the counter window from index `p` downward: add 1, and carry on while the byte wraps (R210). -/
def ctrCarry : Nat → Nat → List Byte → List Byte
  | 0, _, w => w
  | n + 1, p, w =>
    let b := byteOf w p + 1
    if b ≠ 0x00 then w.set p b else ctrCarry n (p - 1) (w.set p b)

/-- `ctr_inc(v)` of a vector of `B` bytes: the window is the last 4 bytes (R210). -/
def ctrInc (B : Nat) (v : List Byte) : List Byte := ctrCarry 4 (B - 1) v

/-- The inner loop of `fwd_CTR`: `n` bytes from byte `j` of the block at index `base` on (R211). During it IDX is the index of
the byte (R21). -/
def ctrBytes (base : Nat) : Nat → Nat → State → State
  | 0, _, s => s
  | n + 1, j, s =>
    let r := (s.setIdx (base + j)).readByte (base + j)
    ctrBytes base n (j + 1) (r.2.writeByte (base + j) (r.1 ^^^ byteOf r.2.save j))

/-- The block loop of `fwd_CTR`: `n` blocks from block `k` on, in a buffer of `L` bytes (R211). During the request of block `k`
IDX is k*B (R21). -/
def fwdCtrLoop (c : Cipher) (L : Nat) : Nat → Nat → State → StageResult
  | 0, _, s => .ok s
  | n + 1, k, s =>
    let B := s.blockBytes
    let s1 := (s.setIdx (k * B)).setSave s.work
    match blockEncrypt c s1.save s1 with
    | none => .waiting
    | some (y, t) =>
      let u := ctrBytes (k * B) (min L (k * B + B) - k * B) 0 (t.setSave y)
      fwdCtrLoop c L n (k + 1) (u.setWork (ctrInc B u.work))

/-- `fwd_CTR` (R211). -/
def fwdCtrStage (c : Cipher) (s : State) : StageResult :=
  fwdCtrLoop c s.length (blocksTouched s.blockBytes s.length) 0 (s.setWork s.iv)

/-- `inv_CTR() = fwd_CTR()`, "the same routine, not a second implementation" (R212). -/
def invCtrStage (c : Cipher) (s : State) : StageResult := fwdCtrStage c s

/-! ## Meanings: each after the IV check (R96) -/

/-- FWD.CFB (R200). -/
def execFwdCfb (s : State) : Host.Outcome State Fault Refusal :=
  runCommand (fun s => (ivCheck s).andThen (fwdCfbStage Config.cipher)) s

/-- INV.CFB (R201). -/
def execInvCfb (s : State) : Host.Outcome State Fault Refusal :=
  runCommand (fun s => (ivCheck s).andThen (invCfbStage Config.cipher)) s

/-- FWD.OFB (R203). -/
def execFwdOfb (s : State) : Host.Outcome State Fault Refusal :=
  runCommand (fun s => (ivCheck s).andThen (fwdOfbStage Config.cipher)) s

/-- INV.OFB (R204). -/
def execInvOfb (s : State) : Host.Outcome State Fault Refusal :=
  runCommand (fun s => (ivCheck s).andThen (invOfbStage Config.cipher)) s

/-- FWD.CTR (R211). -/
def execFwdCtr (s : State) : Host.Outcome State Fault Refusal :=
  runCommand (fun s => (ivCheck s).andThen (fwdCtrStage Config.cipher)) s

/-- INV.CTR (R212). -/
def execInvCtr (s : State) : Host.Outcome State Fault Refusal :=
  runCommand (fun s => (ivCheck s).andThen (invCtrStage Config.cipher)) s

end Sys2Proof.Machine
end

