-- ==== Sys2Proof/Machine/Contract.lean ====
section
/-! DEFINITION. The mode base contract: encrypt is pad then the forward transform, decrypt is the inverse transform then
unpad (spec/41_mode_contract.md R150 to R163). -/

namespace Sys2Proof.Machine

/-- `fwd_m` (R152). -/
def fwdStage (c : Cipher) : Mode → State → StageResult
  | .ecb => fwdEcbStage c
  | .cbc => fwdCbcStage c
  | .cfb => fwdCfbStage c
  | .ofb => fwdOfbStage c
  | .ctr => fwdCtrStage c

/-- `inv_m` (R153). -/
def invStage (c : Cipher) : Mode → State → StageResult
  | .ecb => invEcbStage c
  | .cbc => invCbcStage c
  | .cfb => invCfbStage c
  | .ofb => invOfbStage c
  | .ctr => invCtrStage c

/-- The IV check, for the modes that need the IV (R96). -/
def modeIvCheck (m : Mode) (s : State) : StageResult := if needsIv m then ivCheck s else .ok s

/-- `enc(m, p)` (R152): the IV, capacity and alignment checks, all before any write; the pad stage; the transform. -/
def encStages (c : Cipher) (m : Mode) (p : Scheme) (s : State) : StageResult :=
  let q := effPad m p
  let total := s.length + padCount q s.blockBytes s.length
  (modeIvCheck m s).andThen fun s =>
  (capacity total s).andThen fun s =>
  (if isBlockMode m then aligned total s else .ok s).andThen fun s =>
  (padStage q s).andThen (fwdStage c m)

/-- `dec(m, p)` (R153): the IV check, the transform (which checks the alignment in a block mode), the unpad stage. -/
def decStages (c : Cipher) (m : Mode) (p : Scheme) (s : State) : StageResult :=
  (modeIvCheck m s).andThen fun s => (invStage c m s).andThen (unpadStage (effPad m p))

/-- ENC.ECB (R154). -/
def execEncEcb (p : Scheme) (s : State) : Host.Outcome State Fault Refusal := runCommand (encStages Config.cipher .ecb p) s

/-- ENC.CBC (R156). -/
def execEncCbc (p : Scheme) (s : State) : Host.Outcome State Fault Refusal := runCommand (encStages Config.cipher .cbc p) s

/-- ENC.CFB (R158). -/
def execEncCfb (p : Scheme) (s : State) : Host.Outcome State Fault Refusal := runCommand (encStages Config.cipher .cfb p) s

/-- ENC.OFB (R160). -/
def execEncOfb (p : Scheme) (s : State) : Host.Outcome State Fault Refusal := runCommand (encStages Config.cipher .ofb p) s

/-- ENC.CTR (R162). -/
def execEncCtr (p : Scheme) (s : State) : Host.Outcome State Fault Refusal := runCommand (encStages Config.cipher .ctr p) s

/-- DEC.ECB (R155). -/
def execDecEcb (p : Scheme) (s : State) : Host.Outcome State Fault Refusal := runCommand (decStages Config.cipher .ecb p) s

/-- DEC.CBC (R157). -/
def execDecCbc (p : Scheme) (s : State) : Host.Outcome State Fault Refusal := runCommand (decStages Config.cipher .cbc p) s

/-- DEC.CFB (R159). -/
def execDecCfb (p : Scheme) (s : State) : Host.Outcome State Fault Refusal := runCommand (decStages Config.cipher .cfb p) s

/-- DEC.OFB (R161). -/
def execDecOfb (p : Scheme) (s : State) : Host.Outcome State Fault Refusal := runCommand (decStages Config.cipher .ofb p) s

/-- DEC.CTR (R163). -/
def execDecCtr (p : Scheme) (s : State) : Host.Outcome State Fault Refusal := runCommand (decStages Config.cipher .ctr p) s

end Sys2Proof.Machine
end

