-- ==== Sys2Proof/Machine/Dispatch.lean ====
section
/-! DEFINITION. The dispatch: one arm for each command of spec/opcode_table.json. -/

namespace Sys2Proof.Machine

/-- What the engine does with a command that was issued (spec/30_encoding.md R94). -/
def exec (i : Instr) (s : State) : Host.Outcome State Fault Refusal :=
  match i with
  | .padNone => Sys2Proof.Machine.execPadNone s
  | .padZero => Sys2Proof.Machine.execPadZero s
  | .padIso7816 => Sys2Proof.Machine.execPadIso7816 s
  | .padX923 => Sys2Proof.Machine.execPadX923 s
  | .padIso10126 => Sys2Proof.Machine.execPadIso10126 s
  | .padPkcs7 => Sys2Proof.Machine.execPadPkcs7 s
  | .unpadNone => Sys2Proof.Machine.execUnpadNone s
  | .unpadZero => Sys2Proof.Machine.execUnpadZero s
  | .unpadIso7816 => Sys2Proof.Machine.execUnpadIso7816 s
  | .unpadX923 => Sys2Proof.Machine.execUnpadX923 s
  | .unpadIso10126 => Sys2Proof.Machine.execUnpadIso10126 s
  | .unpadPkcs7 => Sys2Proof.Machine.execUnpadPkcs7 s
  | .fwdEcb => Sys2Proof.Machine.execFwdEcb s
  | .fwdCbc => Sys2Proof.Machine.execFwdCbc s
  | .fwdCfb => Sys2Proof.Machine.execFwdCfb s
  | .fwdOfb => Sys2Proof.Machine.execFwdOfb s
  | .fwdCtr => Sys2Proof.Machine.execFwdCtr s
  | .invEcb => Sys2Proof.Machine.execInvEcb s
  | .invCbc => Sys2Proof.Machine.execInvCbc s
  | .invCfb => Sys2Proof.Machine.execInvCfb s
  | .invOfb => Sys2Proof.Machine.execInvOfb s
  | .invCtr => Sys2Proof.Machine.execInvCtr s
  | .encEcb p => Sys2Proof.Machine.execEncEcb p s
  | .encCbc p => Sys2Proof.Machine.execEncCbc p s
  | .encCfb p => Sys2Proof.Machine.execEncCfb p s
  | .encOfb p => Sys2Proof.Machine.execEncOfb p s
  | .encCtr p => Sys2Proof.Machine.execEncCtr p s
  | .decEcb p => Sys2Proof.Machine.execDecEcb p s
  | .decCbc p => Sys2Proof.Machine.execDecCbc p s
  | .decCfb p => Sys2Proof.Machine.execDecCfb p s
  | .decOfb p => Sys2Proof.Machine.execDecOfb p s
  | .decCtr p => Sys2Proof.Machine.execDecCtr p s

end Sys2Proof.Machine
end

