-- ==== Sys2Proof/Machine/HostAccess.lean ====
section
/-! DEFINITION. The host interface: the register map, reads, writes, host-interface errors, reset, and the events of the
platform (spec/10_state.md R23 to R38; spec/20_memory.md R50 to R54, R64; spec/70_reset_and_hazards.md R260, R261,
R265). -/

namespace Sys2Proof.Machine

/-- The registers of the host offset space (R37). -/
inductive Reg where
  /-- 0x000, RO (R29). -/
  | info
  /-- 0x004, RO (R30). -/
  | cap
  /-- 0x008, WO (R31). -/
  | cmd
  /-- 0x00C, RO / W1C (R23). -/
  | status
  /-- 0x010, RW (R34). -/
  | inten
  /-- 0x014, RW (R24). -/
  | len
  /-- 0x018, RO (R33). -/
  | errinfo
  /-- 0x01C, RO (R32). -/
  | lastcmd
  /-- 0x020, RO (R35). -/
  | ivvalid0
  /-- 0x024, RO (R35). -/
  | ivvalid1
  /-- 0x100 + 4w, RW (R25, R53). -/
  | ivWord (w : Nat)
  /-- 0x1000 + 4k, RW (R28, R52). -/
  | dataWord (k : Nat)
deriving DecidableEq, Repr

/-- The register at a multiple of 4 below 0x100 (R37). -/
def controlReg (off : Nat) : Option Reg :=
  match off with
  | 0x000 => some .info
  | 0x004 => some .cap
  | 0x008 => some .cmd
  | 0x00C => some .status
  | 0x010 => some .inten
  | 0x014 => some .len
  | 0x018 => some .errinfo
  | 0x01C => some .lastcmd
  | 0x020 => some .ivvalid0
  | 0x024 => some .ivvalid1
  | _ => none

/-- The register at an offset, none where the offset is no multiple of 4 or is unmapped (R37, R50). -/
def regAt (p : Params) (off : Nat) : Option Reg :=
  if off % 4 ≠ 0 then none
  else if off < 0x100 then controlReg off
  else if off < 0x1000 then if (off - 0x100) / 4 < p.blockWords then some (.ivWord ((off - 0x100) / 4)) else none
  else if off - 0x1000 < p.bufBytes then some (.dataWord ((off - 0x1000) / 4)) else none

/-- The register an access reaches, none where the access is a host-interface error whatever its direction (R51). -/
def accessed (p : Params) (off : Word) (bytes : Nat) : Option Reg := if bytes = 4 then regAt p off.toNat else none

/-- A read that returns `v`. -/
def State.answer (v : Word) (s : State) : State := { s with rdata := v }

/-- A read that returns an unspecified word: a draw (R54, R64). -/
def State.answerDraw (s : State) : State := (s.setDraws (s.draws + 4)).answer (drawnWord s.draws)

/-- The word of four bytes of a byte vector from index `i` on, big-endian (R52, R53). -/
def wordAt (v : List Byte) (i : Nat) : Word := packWord (byteOf v i) (byteOf v (i + 1)) (byteOf v (i + 2)) (byteOf v (i + 3))

/-- A host read of a mapped register. No read has a side effect (R50, R60). -/
def readReg (r : Reg) (s : State) : State :=
  match r with
  | .info => s.answer (BitVec.setWidth 32 (BitVec.ofNat 8 s.params.blockWords))
  | .cap => s.answer (toWord s.bufBytes)
  | .cmd => s.answer 0
  | .status => s.answer s.statusWord
  | .inten => s.answer s.intenWord
  | .len => s.answer s.len
  | .errinfo => s.answer s.errinfo
  | .lastcmd => s.answer s.lastcmd
  | .ivvalid0 => s.answer (s.ivvalid.extractLsb' 0 32)
  | .ivvalid1 => s.answer (s.ivvalid.extractLsb' 32 32)
  | .ivWord w => if s.ivvalid.getLsbD w then s.answer (wordAt s.iv (4 * w)) else s.answerDraw
  | .dataWord k =>
    if s.busy then s.answerDraw
    else (memRead 4 (4 * k) s).2.answer (wordAt (memRead 4 (4 * k) s).1 0)

/-- Four bytes of a byte vector replaced from index `i` on. -/
def putBytes : List Byte → Nat → List Byte → List Byte
  | [], _, v => v
  | b :: bs, i, v => putBytes bs (i + 1) (v.set i b)

/-- A host write of IV word `w` while IDLE: its four bytes and its IVVALID bit (R25, R53). -/
def State.writeIv (w : Nat) (v : Word) (s : State) : State :=
  { s with iv := putBytes (wordBytes v) (4 * w) s.iv, ivvalid := s.ivvalid ||| (1 <<< w) }

/-- A write the engine accepts only while IDLE: while BUSY it is ignored and sets HOSTERR (R51). -/
def whileIdle (s : State) (t : State) : State := if s.busy then s.setHosterr else t

/-- A host write of `v` to a mapped register. -/
def writeReg (r : Reg) (v : Word) (s : State) : State :=
  match r with
  | .info => s.setHosterr
  | .cap => s.setHosterr
  | .cmd => whileIdle s (s.issue v)
  | .status => s.writeStatus v
  | .inten => s.writeInten v
  | .len => whileIdle s (if s.bufBytes < v.toNat then s.setHosterr else { s with len := v })
  | .errinfo => s.setHosterr
  | .lastcmd => s.setHosterr
  | .ivvalid0 => s.setHosterr
  | .ivvalid1 => s.setHosterr
  | .ivWord w => whileIdle s (s.writeIv w v)
  | .dataWord k => whileIdle s (memWrite (wordBytes v) (4 * k) s)

/-- A host read (R50); an erroneous one returns 0 and sets HOSTERR (R51). -/
def hostRead (off : Word) (bytes : Nat) (s : State) : State :=
  match accessed s.params off bytes with
  | none => s.setHosterr.answer 0
  | some r => readReg r s

/-- A host write (R50); an erroneous one changes nothing but HOSTERR (R51). -/
def hostWrite (off : Word) (bytes : Nat) (v : Word) (s : State) : State :=
  match accessed s.params off bytes with
  | none => s.setHosterr
  | some r => writeReg r v s

/-- The reset input (R260, R261): every piece of MCPE's state takes its reset value, and DATA is unspecified again. What
stands outside MCPE stays: the key, the ports, the draws taken, the word last read, the inputs to come. DESIGN CHOICE: the
assertion and the release are one event, so nothing falls between them (notes/assumptions 23). -/
def State.assertReset (s : State) : State :=
  { State.resetOf s.params with
    key := s.key, cipherUp := s.cipherUp, randomUp := s.randomUp, draws := s.draws, rdata := s.rdata, inputs := s.inputs }

/-- The platform changes the key; during a command this is remembered (R265). -/
def State.rekeyed (k : Nat) (s : State) : State := { s with key := k, keyChanged := s.keyChanged || s.busy }

/-- The platform's ports answer from now on, or do not (R275). -/
def State.setPorts (cipher random : Bool) (s : State) : State := { s with cipherUp := cipher, randomUp := random }

/-! ## The host notation of R93 -/

/-- `WR off, v`. -/
def wr (off : Nat) (v : Word) : Input := .write (toWord off) 4 v

/-- `RD off`. -/
def rd (off : Nat) : Input := .read (toWord off) 4

/-- `ISSUE cmd`. -/
def issueCommand (i : Instr) : List Input := [wr 0x008 (encode i)]

/-- `CLEAR`: clears DONE, ERR and HOSTERR. -/
def clearStatus : List Input := [wr 0x00C 0x0000000E]

/-- Consecutive word writes from an offset on. -/
def wrWords : Nat → List Word → List Input
  | _, [] => []
  | off, v :: vs => wr off v :: wrWords (off + 4) vs

/-- `LOADIV v0, v1, …`. -/
def loadIv (vs : List Word) : List Input := wrWords 0x100 vs

/-- `LOAD n, d0, d1, …`. -/
def loadData (n : Word) (ds : List Word) : List Input := wrWords 0x1000 ds ++ [wr 0x014 n]

end Sys2Proof.Machine
end

