-- ==== Sys2Proof/Machine/Engine.lean ====
section
/-! DEFINITION. The turns of the agents: the engine's turn, and one input (spec/00_scope.md R8; spec/20_memory.md R63;
spec/70_reset_and_hazards.md R275, R277). -/

namespace Sys2Proof.Machine

/-- The engine's turn: IDLE, it does nothing (R248); BUSY, it runs the command latched in CUR to its completion (R277).
A CUR that does not decode, which no issue leaves (R95), completes as IllegalCommand (R88). -/
def engineTurn (s : State) : Host.Outcome State Fault Refusal :=
  match s.phase with
  | .idle => .next s
  | .busy =>
    match decode s.cur with
    | .command i => exec i s
    | .illegal _ => .next (completeFault .illegalCommand s.cur s)

/-- One input takes effect. -/
def takeInput (x : Input) (s : State) : Host.Outcome State Fault Refusal :=
  match x with
  | .read off bytes => .next (hostRead off bytes s)
  | .write off bytes v => .next (hostWrite off bytes v s)
  | .engine => engineTurn s
  | .reset => .next s.assertReset
  | .rekey k => .next (s.rekeyed k)
  | .ports c r => .next (s.setPorts c r)

/-- The state without its first input. -/
def State.dropInput (s : State) : State := { s with inputs := s.inputs.tail }

/-- The next thing that happens: the first input; where there is none, the engine has its turn (R275: a command completes
when nothing else happens). -/
def nextTurn (s : State) : Host.Outcome State Fault Refusal :=
  match s.inputs with
  | [] => engineTurn s
  | x :: _ => takeInput x s.dropInput

end Sys2Proof.Machine
end

