-- ==== Sys2Proof/Machine/Step.lean ====
section
/-! DEFINITION. The step of the machine, and the placing of a command where the next step runs it. -/

namespace Sys2Proof.Machine

/-- One step (Machine/Engine.lean: `nextTurn`). -/
def step (s : State) : Host.Outcome State Fault Refusal := nextTurn s

/-- The state in which the command word `w` stands where the next step takes its command from: latched in CUR by an issue
that is over, with the engine BUSY (R95) and no input before the engine's turn (notes/assumptions 2). -/
def State.withFetchWord (s : State) (nbits w : Nat) : State :=
  { s.started (BitVec.ofNat 32 (w % 2 ^ nbits)) with inputs := [] }

end Sys2Proof.Machine
end

