-- ==== Sys2Proof/Safety.lean ====
section
/-! DEFINITION. What counts as a safe run, and the words the statements are made of: the invariant of the machine, the
contents of the buffer, what a command leaves alone, how a command ends, what a pad stage appends and what an unpad
stage answers. The last two are written from the rules of spec/40_padding.md, not from the machine's loops. -/

namespace Sys2Proof.Machine

/-! ## The invariant -/

/-- The ERRCODE values (R230). -/
def errCodes : List (BitVec 8) := [0x00, 0x01, 0x02, 0x03, 0x04, 0x10, 0x11, 0x12, 0x13]

/-- What holds of every state a run of a legal build reaches. -/
structure State.Inv (s : State) : Prop where
  /-- The build is legal (R4, R6). -/
  build : s.params.wellFormed = true
  /-- LEN is within the buffer (R40). -/
  len_le : s.length ≤ s.bufBytes
  /-- IDX holds 0 to BUF_BYTES (R21). -/
  idx_le : s.idx.toNat ≤ s.bufBytes
  /-- IV has B bytes (R25). -/
  iv_length : s.iv.length = s.blockBytes
  /-- WORK has B bytes (R26). -/
  work_length : s.work.length = s.blockBytes
  /-- SAVE has B bytes (R27). -/
  save_length : s.save.length = s.blockBytes
  /-- IVVALID bits at or above BLOCK_WORDS read 0 (R35). -/
  ivvalid_high : ∀ w, w < 64 → s.params.blockWords ≤ w → s.ivvalid.getLsbD w = false
  /-- DATA is in canonical form. -/
  data_wf : Memory.wf s.data
  /-- DATA lists indices of the buffer only (R28). -/
  data_within : Memory.within s.bufBytes s.data
  /-- DONE and ERR are never both 1 (R23). -/
  not_both : s.done = false ∨ s.err = false
  /-- While BUSY, DONE and ERR are 0 (R23). -/
  busy_clear : s.busy = true → s.done = false ∧ s.err = false
  /-- ERRCODE is not 0 exactly when ERR is 1 (R23). -/
  errcode_iff : s.errcode ≠ 0 ↔ s.err = true
  /-- ERRCODE is one of the codes (R230). -/
  errcode_legal : s.errcode ∈ errCodes
  /-- ERRINFO is 0 when ERR is 0 (R33). -/
  errinfo_zero : s.err = false → s.errinfo = 0
  /-- While BUSY, CUR equals LASTCMD (R43) and is a command (R95). -/
  busy_cur : s.busy = true → s.cur = s.lastcmd ∧ isCommand (decode s.cur) = true

/-- A safe run: the invariant holds. The fault `outsideBuild` and every refusal are excluded by it. -/
abbrev Safe (s : State) : Prop := s.Inv

/-! ## The buffer -/

/-- `v` is what the buffer `DATA[0 .. LEN-1]` holds, every byte of it written. -/
def State.bufferIs (s : State) (v : List Byte) : Prop :=
  v.length = s.length ∧ ∀ i, i < s.length → s.byteAt i = some (byteOf v i)

/-- `v` is what one read of each byte of the buffer may return: the byte written there, or any byte where nothing was
written (R71). -/
def State.mayHold (s : State) (v : List Byte) : Prop :=
  v.length = s.length ∧ ∀ i, i < s.length → s.byteAt i = some (byteOf v i) ∨ s.byteAt i = none

/-- How many of the bytes `DATA[i +: n]` nothing has written: the reads of them return draws (R71). -/
def State.unwrittenIn (s : State) (i n : Nat) : Nat := (List.range n).countP fun j => (s.byteAt (i + j)).isNone

/-- `v[a +: n]` (R10). -/
def slice (v : List Byte) (a n : Nat) : List Byte := (v.drop a).take n

/-- Every byte of DATA is as it was. -/
def SameData (s t : State) : Prop := ∀ i, t.byteAt i = s.byteAt i

/-- Every byte of DATA from index `n` on is as it was. -/
def SameBeyond (n : Nat) (s t : State) : Prop := ∀ i, n ≤ i → t.byteAt i = s.byteAt i

/-- `DATA[LEN ..]` took the bytes of `tail`, LEN grew by their number, every other byte is as it was. -/
def Appended (s t : State) (tail : List Byte) : Prop :=
  t.length = s.length + tail.length ∧
  (∀ j, j < tail.length → t.byteAt (s.length + j) = some (byteOf tail j)) ∧
  (∀ i, i < s.length ∨ s.length + tail.length ≤ i → t.byteAt i = s.byteAt i)

/-! ## What a command leaves alone, and how it ends -/

/-- What no command writes: INFO and CAP, HOSTERR, INTEN, LASTCMD, IV and IVVALID (R41, R42), and the fields of the model
that stand outside MCPE. Not in it: what a completion writes (the phase, DONE, ERR, ERRCODE, ERRINFO), LEN and DATA,
which each statement speaks of, and the hidden WORK, SAVE, IDX and CUR, which are unspecified after a command (R43). -/
structure Frame (s t : State) : Prop where
  params : t.params = s.params
  hosterr : t.hosterr = s.hosterr
  doneIe : t.doneIe = s.doneIe
  errIe : t.errIe = s.errIe
  hosterrIe : t.hosterrIe = s.hosterrIe
  lastcmd : t.lastcmd = s.lastcmd
  ivvalid : t.ivvalid = s.ivvalid
  iv : t.iv = s.iv
  key : t.key = s.key
  keyChanged : t.keyChanged = s.keyChanged
  cipherUp : t.cipherUp = s.cipherUp
  randomUp : t.randomUp = s.randomUp
  rdata : t.rdata = s.rdata
  inputs : t.inputs = s.inputs

/-- Successful completion (R233). -/
structure Completed (s t : State) : Prop where
  phase : t.phase = .idle
  done : t.done = true
  err : t.err = s.err
  errcode : t.errcode = s.errcode
  errinfo : t.errinfo = s.errinfo

/-- Fault completion with error `e` and information `info` (R234); LEN is as at issue (R235). -/
structure Faulted (e : Err) (info : Word) (s t : State) : Prop where
  phase : t.phase = .idle
  done : t.done = s.done
  err : t.err = true
  errcode : t.errcode = errCode e
  errinfo : t.errinfo = info
  len : t.len = s.len

/-- The command `i` raises `e` with information `info` and leaves DATA and LEN as at issue (R235). -/
def Raises (i : Instr) (s : State) (e : Err) (info : Word) : Prop :=
  ∃ t, exec i s = .next t ∧ Faulted e info s t ∧ Frame s t ∧ SameData s t

/-- A transform read `v` from the buffer, left `w` in it, and changed nothing else of LEN and DATA (R58). -/
structure Transformed (s t : State) (v w : List Byte) : Prop where
  completed : Completed s t
  frame : Frame s t
  len : t.len = s.len
  before : s.mayHold v
  after : t.bufferIs w
  beyond : SameBeyond s.length s t

/-- The cipher port serves a command: it answers, and the key was not changed (R69, R265). An empty buffer needs no
answer. -/
def State.cipherServes (s : State) : Prop := (s.length = 0 ∨ s.cipherUp = true) ∧ s.keyChanged = false

/-- Block `k` of a byte vector, for the block size of a state (R11). -/
def State.blk (s : State) (v : List Byte) (k : Nat) : List Byte := slice v (k * s.blockBytes) s.blockBytes

/-- `BlockEncrypt` as a function, with the block size and the key of a state (R12). -/
def State.E (s : State) (c : Cipher) (v : List Byte) : List Byte := c.encBlock s.blockBytes s.key v

/-- `BlockDecrypt` as a function, with the block size and the key of a state (R12). -/
def State.D (s : State) (c : Cipher) (v : List Byte) : List Byte := c.decBlock s.blockBytes s.key v

/-- The block before block `k` of the ciphertext `x`, the IV for block 0 (R183, R184, R202). -/
def State.previous (s : State) (x : List Byte) (k : Nat) : List Byte := if k = 0 then s.iv else s.blk x (k - 1)

/-- Two buffers of one length whose block `k` is related by `f k`, for every whole block. -/
def BlockwiseIs (s : State) (v w : List Byte) (f : Nat → List Byte) : Prop :=
  w.length = v.length ∧ ∀ k, (k + 1) * s.blockBytes ≤ v.length → s.blk w k = f k

/-- Two buffers of one length of which each byte of one is the other's byte XORed with the byte of the keystream, whose
block `k` is `ks k`. -/
def XoredWith (s : State) (v w : List Byte) (ks : Nat → List Byte) : Prop :=
  w.length = v.length ∧
    ∀ i, i < v.length → byteOf w i = byteOf v i ^^^ byteOf (ks (i / s.blockBytes)) (i % s.blockBytes)

/-- `w` is what the forward transform of mode `m` makes of the buffer `v` (R181, R183, R200, R202, R203, R205, R211,
R213). -/
def Forward (c : Cipher) (m : Mode) (s : State) (v w : List Byte) : Prop :=
  match m with
  | .ecb => BlockwiseIs s v w fun k => s.E c (s.blk v k)
  | .cbc => BlockwiseIs s v w fun k => s.E c (xorBytes (s.blk v k) (s.previous w k))
  | .cfb => XoredWith s v w fun k => s.E c (s.previous w k)
  | .ofb => XoredWith s v w fun k => (s.E c)^[k + 1] s.iv
  | .ctr => XoredWith s v w fun k => s.E c ((ctrInc s.blockBytes)^[k] s.iv)

/-- `w` is what the inverse transform of mode `m` makes of the buffer `v` (R182, R184, R201, R202, R204, R212). -/
def Backward (c : Cipher) (m : Mode) (s : State) (v w : List Byte) : Prop :=
  match m with
  | .ecb => BlockwiseIs s v w fun k => s.D c (s.blk v k)
  | .cbc => BlockwiseIs s v w fun k => xorBytes (s.D c (s.blk v k)) (s.previous v k)
  | .cfb => XoredWith s v w fun k => s.E c (s.previous v k)
  | .ofb => Forward c .ofb s v w
  | .ctr => Forward c .ctr s v w

/-- The transform of mode `m` has the lengths it asks for: whole blocks in a block mode (R59). -/
def LengthFits (m : Mode) (B L : Nat) : Prop := isBlockMode m = true → L % B = 0

/-- The IV is there where the mode needs it (R96). -/
def State.ivReady (s : State) (m : Mode) : Prop := needsIv m = true → s.ivComplete = true

/-- The random port serves the pad stage of scheme `q`: it answers, or the stage asks for no byte (R70, R121). -/
def State.randomServes (s : State) (q : Scheme) : Prop :=
  q = .iso10126 → s.randomUp = true ∨ requiredPad s.blockBytes s.length = 1

/-- The length an encrypt command gives the buffer (R152). -/
def paddedLength (q : Scheme) (B L : Nat) : Nat := L + padCount q B L

/-- The state in which command `i`, issued by a host write to CMD (R95), is about to run. -/
def State.issued (s : State) (i : Instr) : State := hostWrite 0x008 4 (encode i) s

/-! ## Padding, from the rules -/

/-- `tail` is what a pad stage of scheme `q` appends to a buffer of length `L` (R113, R115, R117, R119, R121, R123). The
filler of ISO10126 is any bytes. -/
def PadTail (q : Scheme) (B L : Nat) (tail : List Byte) : Prop :=
  match q with
  | .nopad => tail = []
  | .zero => tail = List.replicate (zeroPad B L) 0x00
  | .iso7816 => tail = 0x80 :: List.replicate (requiredPad B L - 1) 0x00
  | .x923 => tail = List.replicate (requiredPad B L - 1) 0x00 ++ [toByte (requiredPad B L)]
  | .iso10126 => ∃ filler : List Byte, filler.length = requiredPad B L - 1 ∧ tail = filler ++ [toByte (requiredPad B L)]
  | .pkcs7 => tail = List.replicate (requiredPad B L) (toByte (requiredPad B L))

/-- The length byte of a buffer: its last byte (R112). -/
def lastByte (v : List Byte) : Nat := (byteOf v (v.length - 1)).toNat

/-- The bytes of `v` from index `a` up to, not including, `b` all are `x`. -/
def AllAre (x : Byte) (v : List Byte) (a b : Nat) : Prop := ∀ i, a ≤ i → i < b → byteOf v i = x

/-- The length byte of `v` is legal (R112). -/
def LengthByteOk (B : Nat) (v : List Byte) : Prop :=
  0 < v.length ∧ 1 ≤ lastByte v ∧ lastByte v ≤ B ∧ lastByte v ≤ v.length

/-- An unpad stage of scheme `q` succeeds on the buffer `v` and leaves the length `n` (R114, R116, R118, R120, R122,
R124). -/
def Unpads (q : Scheme) (B : Nat) (v : List Byte) (n : Nat) : Prop :=
  match q with
  | .nopad => n = v.length
  | .zero => n ≤ v.length ∧ AllAre 0x00 v n v.length ∧ (0 < n → byteOf v (n - 1) ≠ 0x00)
  | .iso7816 => n < v.length ∧ v.length - n ≤ B ∧ byteOf v n = 0x80 ∧ AllAre 0x00 v (n + 1) v.length
  | .x923 => LengthByteOk B v ∧ n = v.length - lastByte v ∧ AllAre 0x00 v n (v.length - 1)
  | .iso10126 => LengthByteOk B v ∧ n = v.length - lastByte v
  | .pkcs7 => LengthByteOk B v ∧ n = v.length - lastByte v ∧ AllAre (toByte (lastByte v)) v n (v.length - 1)

/-- The length byte of `v` raises `e` with information `i` (R112). -/
def LengthByteFails (B : Nat) (v : List Byte) (e : Err) (i : Nat) : Prop :=
  (v.length = 0 ∧ e = .paddingUnderflow ∧ i = 0) ∨
  (0 < v.length ∧ lastByte v = 0 ∧ e = .paddingUnderflow ∧ i = v.length - 1) ∨
  (0 < v.length ∧ (B < lastByte v ∨ v.length < lastByte v) ∧ e = .paddingOverflow ∧ i = v.length - 1)

/-- The filler check of X.923 and PKCS7 fails at index `i`, the first that fails from LEN-2 downward (R120, R124). -/
def FillerFails (x : Byte) (B : Nat) (v : List Byte) (e : Err) (i : Nat) : Prop :=
  LengthByteOk B v ∧ v.length - lastByte v ≤ i ∧ i < v.length - 1 ∧ byteOf v i ≠ x ∧ AllAre x v (i + 1) (v.length - 1) ∧
    e = .paddingByteMismatch

/-- An unpad stage of scheme `q` raises `e` with information `i` on the buffer `v` (R112, R118, R120, R122, R124). -/
def UnpadFails (q : Scheme) (B : Nat) (v : List Byte) (e : Err) (i : Nat) : Prop :=
  match q with
  | .nopad => False
  | .zero => False
  | .iso7816 =>
    (i < v.length ∧ v.length - i ≤ B ∧ byteOf v i ≠ 0x80 ∧ byteOf v i ≠ 0x00 ∧ AllAre 0x00 v (i + 1) v.length ∧
      e = .paddingByteMismatch) ∨
    (i = v.length - min v.length B ∧ AllAre 0x00 v i v.length ∧ e = .paddingNotFound)
  | .x923 => LengthByteFails B v e i ∨ FillerFails 0x00 B v e i
  | .iso10126 => LengthByteFails B v e i
  | .pkcs7 => LengthByteFails B v e i ∨ FillerFails (toByte (lastByte v)) B v e i

/-- A DEC from `s` to `t` whose inverse transform made the buffer `w`: `w` stands in DATA, and the unpad stage of scheme `q` ran
on it to its end, by a success that lowers LEN or by a fault that leaves LEN (R153, R235, R72). -/
structure Unpadded (q : Scheme) (s t : State) (w : List Byte) : Prop where
  frame : Frame s t
  data : ∀ a, a < s.length → t.byteAt a = some (byteOf w a)
  beyond : SameBeyond s.length s t
  ended : (Unpads q s.blockBytes w t.length ∧ Completed s t) ∨
    (∃ e a, UnpadFails q s.blockBytes w e a ∧ Faulted e (toWord a) s t)

/-! ## Faults, by command -/

/-- The faults of the unpad stage of scheme `q` (R231). -/
def unpadFaults : Scheme → List Err
  | .nopad => []
  | .zero => []
  | .iso7816 => [.paddingByteMismatch, .paddingNotFound]
  | .x923 => [.paddingUnderflow, .paddingOverflow, .paddingByteMismatch]
  | .iso10126 => [.paddingUnderflow, .paddingOverflow]
  | .pkcs7 => [.paddingUnderflow, .paddingOverflow, .paddingByteMismatch]

/-- The faults of the checks before the pad stage of an encrypt command in a block mode (R231). -/
def padFaults : Scheme → List Err
  | .nopad => [.lengthNotAligned]
  | _ => [.bufferOverflow]

/-- The faults a command may raise (R231). -/
def faultsOf : Instr → List Err
  | .padNone => []
  | .padZero => [.bufferOverflow]
  | .padIso7816 => [.bufferOverflow]
  | .padX923 => [.bufferOverflow]
  | .padIso10126 => [.bufferOverflow]
  | .padPkcs7 => [.bufferOverflow]
  | .unpadNone => unpadFaults .nopad
  | .unpadZero => unpadFaults .zero
  | .unpadIso7816 => unpadFaults .iso7816
  | .unpadX923 => unpadFaults .x923
  | .unpadIso10126 => unpadFaults .iso10126
  | .unpadPkcs7 => unpadFaults .pkcs7
  | .fwdEcb => [.lengthNotAligned]
  | .invEcb => [.lengthNotAligned]
  | .fwdCbc => [.ivMissing, .lengthNotAligned]
  | .invCbc => [.ivMissing, .lengthNotAligned]
  | .fwdCfb => [.ivMissing]
  | .fwdOfb => [.ivMissing]
  | .fwdCtr => [.ivMissing]
  | .invCfb => [.ivMissing]
  | .invOfb => [.ivMissing]
  | .invCtr => [.ivMissing]
  | .encEcb p => padFaults p
  | .encCbc p => .ivMissing :: padFaults p
  | .encCfb _ => [.ivMissing]
  | .encOfb _ => [.ivMissing]
  | .encCtr _ => [.ivMissing]
  | .decEcb p => .lengthNotAligned :: unpadFaults p
  | .decCbc p => .ivMissing :: .lengthNotAligned :: unpadFaults p
  | .decCfb _ => [.ivMissing]
  | .decOfb _ => [.ivMissing]
  | .decCtr _ => [.ivMissing]

/-- The commands that ask the random port for bytes (R70, R121). -/
def drawsRandom : Instr → Bool
  | .padIso10126 => true
  | .encEcb p => p == .iso10126
  | .encCbc p => p == .iso10126
  | _ => false

/-- The mode of a command that makes the IV check (R96); none for ECB, PAD and UNPAD. -/
def ivMode : Instr → Option Mode
  | .fwdCbc => some .cbc
  | .invCbc => some .cbc
  | .encCbc _ => some .cbc
  | .decCbc _ => some .cbc
  | .fwdCfb => some .cfb
  | .invCfb => some .cfb
  | .encCfb _ => some .cfb
  | .decCfb _ => some .cfb
  | .fwdOfb => some .ofb
  | .invOfb => some .ofb
  | .encOfb _ => some .ofb
  | .decOfb _ => some .ofb
  | .fwdCtr => some .ctr
  | .invCtr => some .ctr
  | .encCtr _ => some .ctr
  | .decCtr _ => some .ctr
  | _ => none

/-- The commands that may write LEN: a PAD or an UNPAD, or an ENC or a DEC of a block mode (R24, R151). -/
def writesLen : Instr → Bool
  | .padNone => true
  | .padZero => true
  | .padIso7816 => true
  | .padX923 => true
  | .padIso10126 => true
  | .padPkcs7 => true
  | .unpadNone => true
  | .unpadZero => true
  | .unpadIso7816 => true
  | .unpadX923 => true
  | .unpadIso10126 => true
  | .unpadPkcs7 => true
  | .encEcb _ => true
  | .encCbc _ => true
  | .decEcb _ => true
  | .decCbc _ => true
  | _ => false

/-- The commands that may raise after DATA was written (R97, R235). -/
def raisesLate : Instr → Bool
  | .decEcb _ => true
  | .decCbc _ => true
  | _ => false

/-! ## A command with another cipher -/

/-- The checks and stages of a command, with the cipher `c` behind the cipher port: the form of the commands in which a
statement can speak of every cipher, and so of one that satisfies R12's property. -/
def stagesWith (c : Cipher) : Instr → State → StageResult
  | .padNone => padStage .nopad
  | .padZero => padStage .zero
  | .padIso7816 => padStage .iso7816
  | .padX923 => padStage .x923
  | .padIso10126 => padStage .iso10126
  | .padPkcs7 => padStage .pkcs7
  | .unpadNone => unpadStage .nopad
  | .unpadZero => unpadStage .zero
  | .unpadIso7816 => unpadStage .iso7816
  | .unpadX923 => unpadStage .x923
  | .unpadIso10126 => unpadStage .iso10126
  | .unpadPkcs7 => unpadStage .pkcs7
  | .fwdEcb => fwdStage c .ecb
  | .fwdCbc => fun s => (ivCheck s).andThen (fwdStage c .cbc)
  | .fwdCfb => fun s => (ivCheck s).andThen (fwdStage c .cfb)
  | .fwdOfb => fun s => (ivCheck s).andThen (fwdStage c .ofb)
  | .fwdCtr => fun s => (ivCheck s).andThen (fwdStage c .ctr)
  | .invEcb => invStage c .ecb
  | .invCbc => fun s => (ivCheck s).andThen (invStage c .cbc)
  | .invCfb => fun s => (ivCheck s).andThen (invStage c .cfb)
  | .invOfb => fun s => (ivCheck s).andThen (invStage c .ofb)
  | .invCtr => fun s => (ivCheck s).andThen (invStage c .ctr)
  | .encEcb p => encStages c .ecb p
  | .encCbc p => encStages c .cbc p
  | .encCfb p => encStages c .cfb p
  | .encOfb p => encStages c .ofb p
  | .encCtr p => encStages c .ctr p
  | .decEcb p => decStages c .ecb p
  | .decCbc p => decStages c .cbc p
  | .decCfb p => decStages c .cfb p
  | .decOfb p => decStages c .ofb p
  | .decCtr p => decStages c .ctr p

/-- exec with the cipher `c` behind the cipher port. -/
def execWith (c : Cipher) (i : Instr) (s : State) : Host.Outcome State Fault Refusal := runCommand (stagesWith c i) s

/-! ## The opcode table -/

/-- One row of spec/opcode_table.json: its mask, its match, and the command of each PAD value (a row that fixes PAD has one
command). -/
structure TableRow where
  /-- The bits the row fixes. -/
  mask : Word
  /-- Their values. -/
  pattern : Word
  /-- The command, by the scheme of the PAD field where the row leaves it open. -/
  command : Scheme → Instr

/-- The 32 rows of spec/opcode_table.json (R87, R89). -/
def tableRows : List TableRow :=
  [⟨0xFFFFFFFF, 0x00000001, fun _ => .padNone⟩, ⟨0xFFFFFFFF, 0x00000101, fun _ => .padZero⟩,
   ⟨0xFFFFFFFF, 0x00000201, fun _ => .padIso7816⟩, ⟨0xFFFFFFFF, 0x00000301, fun _ => .padX923⟩,
   ⟨0xFFFFFFFF, 0x00000401, fun _ => .padIso10126⟩, ⟨0xFFFFFFFF, 0x00000501, fun _ => .padPkcs7⟩,
   ⟨0xFFFFFFFF, 0x00000002, fun _ => .unpadNone⟩, ⟨0xFFFFFFFF, 0x00000102, fun _ => .unpadZero⟩,
   ⟨0xFFFFFFFF, 0x00000202, fun _ => .unpadIso7816⟩, ⟨0xFFFFFFFF, 0x00000302, fun _ => .unpadX923⟩,
   ⟨0xFFFFFFFF, 0x00000402, fun _ => .unpadIso10126⟩, ⟨0xFFFFFFFF, 0x00000502, fun _ => .unpadPkcs7⟩,
   ⟨0xFFFFFFFF, 0x00000003, fun _ => .fwdEcb⟩, ⟨0xFFFFFFFF, 0x00000013, fun _ => .fwdCbc⟩,
   ⟨0xFFFFFFFF, 0x00000023, fun _ => .fwdCfb⟩, ⟨0xFFFFFFFF, 0x00000033, fun _ => .fwdOfb⟩,
   ⟨0xFFFFFFFF, 0x00000043, fun _ => .fwdCtr⟩, ⟨0xFFFFFFFF, 0x00000004, fun _ => .invEcb⟩,
   ⟨0xFFFFFFFF, 0x00000014, fun _ => .invCbc⟩, ⟨0xFFFFFFFF, 0x00000024, fun _ => .invCfb⟩,
   ⟨0xFFFFFFFF, 0x00000034, fun _ => .invOfb⟩, ⟨0xFFFFFFFF, 0x00000044, fun _ => .invCtr⟩,
   ⟨0xFFFFF0FF, 0x00000005, .encEcb⟩, ⟨0xFFFFF0FF, 0x00000015, .encCbc⟩,
   ⟨0xFFFFF0FF, 0x00000025, .encCfb⟩, ⟨0xFFFFF0FF, 0x00000035, .encOfb⟩,
   ⟨0xFFFFF0FF, 0x00000045, .encCtr⟩, ⟨0xFFFFF0FF, 0x00000006, .decEcb⟩,
   ⟨0xFFFFF0FF, 0x00000016, .decCbc⟩, ⟨0xFFFFF0FF, 0x00000026, .decCfb⟩,
   ⟨0xFFFFF0FF, 0x00000036, .decOfb⟩, ⟨0xFFFFF0FF, 0x00000046, .decCtr⟩]

/-- The word `w` matches a row: the fixed bits, and a PAD value 0x0 to 0x5 (R87). -/
def TableRow.matches (r : TableRow) (w : Word) : Prop := w &&& r.mask = r.pattern ∧ (w.extractLsb' 8 4).toNat ≤ 5

/-! ## The counter -/

/-- The window of a counter of `B` bytes: its last 4 bytes as one big-endian number (R55). -/
def counterWindow (B : Nat) (v : List Byte) : Word :=
  packWord (byteOf v (B - 4)) (byteOf v (B - 3)) (byteOf v (B - 2)) (byteOf v (B - 1))

/-! ## Runs of two commands -/

/-- Two states that give a command the same operands and show the host the same status: the build, LEN, the buffer (every
byte of it written), IV, IVVALID, the key, the ports, the phase, STATUS but HOSTERR, ERRINFO. Nothing is said of WORK, SAVE,
IDX, CUR, LASTCMD, INTEN, HOSTERR, DATA outside the buffer, or the draws (R166, R240). -/
structure SameForCommand (s s' : State) : Prop where
  params : s'.params = s.params
  len : s'.len = s.len
  buffer : ∃ v, s.bufferIs v ∧ s'.bufferIs v
  iv : s'.iv = s.iv
  ivvalid : s'.ivvalid = s.ivvalid
  key : s'.key = s.key
  keySteady : s.keyChanged = false ∧ s'.keyChanged = false
  cipherUp : s'.cipherUp = s.cipherUp
  randomUp : s'.randomUp = s.randomUp
  phase : s'.phase = s.phase
  done : s'.done = s.done
  err : s'.err = s.err
  errcode : s'.errcode = s.errcode
  errinfo : s'.errinfo = s.errinfo

/-! ## The host's side -/

/-- An access that is a host-interface error whatever its direction: a width other than 32 bits, an offset that is no
multiple of 4, an unmapped offset (R37, R51). -/
def BadAccess (p : Params) (off bytes : Nat) : Prop :=
  bytes ≠ 4 ∨ off % 4 ≠ 0 ∨ (0x028 ≤ off ∧ off < 0x100) ∨ (0x100 + 4 * p.blockWords ≤ off ∧ off < 0x1000) ∨
    0x1000 + p.bufBytes ≤ off

/-- What the issue of a command word leaves alone (R95). Not in it: the phase, DONE, ERR, ERRCODE, ERRINFO, LASTCMD and the
hidden CUR, IDX, WORK and SAVE. -/
structure IssueFrame (s t : State) : Prop where
  params : t.params = s.params
  hosterr : t.hosterr = s.hosterr
  doneIe : t.doneIe = s.doneIe
  errIe : t.errIe = s.errIe
  hosterrIe : t.hosterrIe = s.hosterrIe
  len : t.len = s.len
  ivvalid : t.ivvalid = s.ivvalid
  iv : t.iv = s.iv
  data : t.data = s.data
  key : t.key = s.key
  cipherUp : t.cipherUp = s.cipherUp
  randomUp : t.randomUp = s.randomUp
  rdata : t.rdata = s.rdata
  inputs : t.inputs = s.inputs

/-- The offsets of the read-only registers (R37). -/
def ReadOnlyOffset (off : Nat) : Prop := off ∈ [0x000, 0x004, 0x018, 0x01C, 0x020, 0x024]

/-- The offsets a write to which is refused while BUSY: CMD, LEN, IV, DATA (R51). -/
def GuardedOffset (off : Nat) : Prop := off = 0x008 ∨ off = 0x014 ∨ 0x100 ≤ off

end Sys2Proof.Machine
end

