-- ==== Sys2Proof/Certificates/Slice0/Obligations.lean ====
section
/-! DEFINITION. The statements for the provers, from the numbered rules of the spec. Unless a docstring says otherwise, a
statement about a command is about every state whose build is legal and whose LEN is within the buffer (`State.legal`, R40);
`Frame` is what no command writes; the hidden WORK, SAVE, IDX and CUR are unspecified after a command (R43) and no
statement speaks of them there. -/

open Sys2Proof Sys2Proof.Machine

/-! ## Encoding -/

/-- Decode and encode agree on all 32 commands and all 2^32 words: a word is read as a command exactly when it is the word
written for it (R80, R87, R89). -/
def Obligations.DecodeInvertsEncode : Prop :=
  ∀ (i : Instr) (w : Word), decode w = .command i ↔ w = encode i

/-- R87: decode is the union of the rows of the opcode table, read as masks and matches, with the PAD field 0x0 to 0x5; no
word is in two rows. -/
def Obligations.DecodeIsTheOpcodeTable : Prop :=
  (∀ (w : Word) (i : Instr), decode w = .command i ↔
    ∃ r ∈ tableRows, ∃ p, r.matches w ∧ schemeOf (w.extractLsb' 8 4) = some p ∧ r.command p = i) ∧
  (∀ (w : Word), ∀ r ∈ tableRows, ∀ r' ∈ tableRows, r.matches w → r'.matches w →
    r.mask = r'.mask ∧ r.pattern = r'.pattern)

/-- R88 and R84: which words are illegal, and what the issue of one does: it completes at once with IllegalCommand and
ERRINFO = the word, without BUSY ever being 1. -/
def Obligations.IllegalWordsCompleteAtIssue : Prop :=
  (∀ (w : Word) (op mode pad : Nat),
    op = (w.extractLsb' 0 4).toNat → mode = (w.extractLsb' 4 4).toNat → pad = (w.extractLsb' 8 4).toNat →
    (isCommand (decode w) = false ↔
      op = 0 ∨ 7 ≤ op ∨ w.extractLsb' 12 20 ≠ 0 ∨
      ((op = 3 ∨ op = 4 ∨ op = 5 ∨ op = 6) ∧ 5 ≤ mode) ∨
      ((op = 1 ∨ op = 2) ∧ mode ≠ 0) ∨
      ((op = 1 ∨ op = 2 ∨ op = 5 ∨ op = 6) ∧ 6 ≤ pad) ∨
      ((op = 3 ∨ op = 4) ∧ pad ≠ 0))) ∧
  (∀ (s t : State) (w : Word), s.phase = .idle → isCommand (decode w) = false → t = hostWrite 0x008 4 w s →
    t.phase = .idle ∧ t.done = false ∧ t.err = true ∧ t.errcode = 0x10 ∧ t.errinfo = w ∧ t.lastcmd = w ∧
      IssueFrame s t)

/-- Words written out from the opcode map of R89, one and more for each family, decode to their commands. -/
def Obligations.WrittenOutWordsDecode : Prop :=
  decode 0x00000201 = .command .padIso7816 ∧
  decode 0x00000502 = .command .unpadPkcs7 ∧
  decode 0x00000013 = .command .fwdCbc ∧
  decode 0x00000044 = .command .invCtr ∧
  decode 0x00000505 = .command (.encEcb .pkcs7) ∧
  decode 0x00000345 = .command (.encCtr .x923) ∧
  decode 0x00000416 = .command (.decCbc .iso10126) ∧
  decode 0x00000036 = .command (.decOfb .nopad)

/-- R91 and R92: the default padding of the assembler, and the padding suffix of a stream mode, which it refuses; a word that
spells one all the same is legal and behaves as PAD 0x0. -/
def Obligations.AssemblerDefaults : Prop :=
  (∀ m, isBlockMode m = true →
    assemble (.enc m none) = assemble (.enc m (some .iso7816)) ∧
    assemble (.dec m none) = assemble (.dec m (some .iso7816))) ∧
  (assemble (.enc .cbc none)).map encode = some 0x00000215 ∧
  (∀ m p, isBlockMode m = false →
    assemble (.enc m (some p)) = none ∧ assemble (.dec m (some p)) = none ∧
    assemble (.enc m none) = some (encCommand m .nopad) ∧ assemble (.dec m none) = some (decCommand m .nopad) ∧
    decode (encode (encCommand m p)) = .command (encCommand m p) ∧
    decode (encode (decCommand m p)) = .command (decCommand m p) ∧
    ∀ s, exec (encCommand m p) s = exec (encCommand m .nopad) s ∧ exec (decCommand m p) s = exec (decCommand m .nopad) s)

/-! ## The step -/

/-- A step runs the decoded command: BUSY with the engine's turn next, the step is exec of the command latched in CUR (R94, R95,
R277). The MODEL's choice are the list of inputs and that the engine has its turn where the list is empty, so that with an
empty list a BUSY engine runs its command and an IDLE one, which does nothing (R248), stays as it is (notes/assumptions 12);
and the clause about `State.withFetchWord`, the model's own device, which stands for an issue that is over
(notes/assumptions 2). -/
def Obligations.StepRunsTheLatchedCommand : Prop :=
  (∀ (s : State) (i : Instr), s.phase = .busy → decode s.cur = .command i → s.inputs = [] → step s = exec i s) ∧
  (∀ (s : State) (i : Instr) (rest : List Input), s.phase = .busy → decode s.cur = .command i → s.inputs = .engine :: rest →
    step s = exec i { s with inputs := rest }) ∧
  (∀ (s : State) (nbits w : Nat) (i : Instr), decodeTableWord nbits w = some i →
    step (s.withFetchWord nbits w) = exec i (s.withFetchWord nbits w)) ∧
  (∀ (s : State), s.phase = .idle → s.inputs = [] → step s = .next s)

/-- What happens at MCPE takes effect one thing at a time, in its order (R50, R63), and the engine does nothing while IDLE (R248):
the step does the first input and takes it off the list. The MODEL's choice are the list itself (notes/assumptions 12) and the
fields that a key change and a change of the ports write: `key` and `keyChanged`, which stand for R265's key change
(notes/assumptions 10), and `cipherUp` and `randomUp` (notes/assumptions 9). -/
def Obligations.StepTakesTheFirstInput : Prop :=
  ∀ (s u : State) (rest : List Input), u = { s with inputs := rest } →
    (∀ off bytes, s.inputs = .read off bytes :: rest → step s = .next (hostRead off bytes u)) ∧
    (∀ off bytes v, s.inputs = .write off bytes v :: rest → step s = .next (hostWrite off bytes v u)) ∧
    (∀ k, s.inputs = .rekey k :: rest →
      step s = .next { u with key := k, keyChanged := s.keyChanged || s.busy }) ∧
    (∀ c r, s.inputs = .ports c r :: rest → step s = .next { u with cipherUp := c, randomUp := r }) ∧
    (s.phase = .idle → s.inputs = .engine :: rest → step s = .next u)

/-! ## Reset and the invariant -/

/-- R39: the values after reset, for every build. What R39 leaves unspecified is not stated (the zeros the model holds in IV,
WORK, SAVE, IDX and CUR are its own choice, notes/assumptions 1), but for the two things a host can see of it: a read of a
DATA word or of an IV word returns a draw. -/
def Obligations.ResetLeavesTheStatedValues : Prop :=
  ∀ (p : Params) (s : State), p.wellFormed = true → s = State.resetOf p →
    s.phase = .idle ∧ s.statusWord = 0 ∧ s.intenWord = 0 ∧ s.len = 0 ∧ s.errinfo = 0 ∧ s.lastcmd = 0 ∧ s.ivvalid = 0 ∧
    s.irq = false ∧ (∀ i, s.byteAt i = none) ∧
    (hostRead 0x000 4 s).rdata = toWord p.blockWords ∧ (hostRead 0x004 4 s).rdata = toWord p.bufBytes ∧
    (∀ k, 4 * k < p.bufBytes → (hostRead (toWord (0x1000 + 4 * k)) 4 s).rdata = drawnWord s.draws) ∧
    (∀ w, w < p.blockWords → (hostRead (toWord (0x100 + 4 * w)) 4 s).rdata = drawnWord s.draws)

/-- The reset state of every legal build meets the invariant; State.reset is that of the reference build (R4, R6), which is the
model's choice of a build (notes/assumptions 3). -/
def Obligations.ResetMeetsTheInvariant : Prop :=
  State.reset = State.resetOf Params.reference ∧ State.reset.Inv ∧ ∀ (p : Params), p.wellFormed = true → (State.resetOf p).Inv

/-- Every step keeps the invariant: LEN within the buffer (R40), IDX in its range (R21), the byte files of B bytes, no IVVALID
bit at or above BLOCK_WORDS (R35), DATA canonical and within the buffer, DONE and ERR never both 1, both 0 while BUSY, ERRCODE
not 0 exactly when ERR is 1 and one of the codes (R23, R230), ERRINFO 0 when ERR is 0 (R33), CUR equal to LASTCMD and a
command while BUSY (R43, R95). -/
def Obligations.StepKeepsTheInvariant : Prop :=
  ∀ (s t : State), s.Inv → step s = .next t → t.Inv

/-- No step of a state that meets the invariant stops: every command, every host access and every event has its effect. -/
def Obligations.StepAlwaysAnswers : Prop :=
  ∀ (s : State), s.Inv → ∃ t, step s = .next t

/-- R260 and R261: the reset input, in any state, BUSY too: the state of R39, no completion signalled, DATA unspecified (every
read a draw). The MODEL's choice are that assertion and release are one event (notes/assumptions 23) and that what stands
outside MCPE stays (notes/assumptions 11). -/
def Obligations.ResetInputAbandonsTheCommand : Prop :=
  ∀ (s : State) (rest : List Input), s.inputs = .reset :: rest →
    ∃ t, step s = .next t ∧ t.phase = .idle ∧ t.statusWord = 0 ∧ t.intenWord = 0 ∧ t.len = 0 ∧ t.errinfo = 0 ∧
      t.lastcmd = 0 ∧ t.ivvalid = 0 ∧ t.irq = false ∧ (∀ i, t.byteAt i = none) ∧
      t.params = s.params ∧ t.key = s.key ∧ t.cipherUp = s.cipherUp ∧ t.randomUp = s.randomUp ∧ t.draws = s.draws ∧
      t.rdata = s.rdata ∧ t.inputs = rest

/-! ## Completion -/

/-- A BUSY engine whose ports answer completes at its turn, with DONE or with ERR and a code, and never stays BUSY (R233,
R234, R239, R275). -/
def Obligations.BusyCommandCompletes : Prop :=
  ∀ (s : State), s.Inv → s.phase = .busy → s.cipherUp = true → s.randomUp = true → s.inputs = [] →
    ∃ t, step s = .next t ∧ t.phase = .idle ∧
      ((t.done = true ∧ t.err = false ∧ t.errcode = 0 ∧ t.errinfo = 0) ∨ (t.done = false ∧ t.err = true ∧ t.errcode ≠ 0))

/-- A command that asks a port which does not answer does not complete, and a BUSY engine stays BUSY (R69, R70, R275): the
transforms and ENC and DEC at a silent cipher port, ENC of an empty buffer that gets padding too; PAD.ISO10126, and ENC of a
block mode with ISO10126, at a silent random port. That such a command changes nothing at all is the MODEL's choice
(notes/assumptions 9). -/
def Obligations.SilentPortKeepsBusy : Prop :=
  (∀ (s : State) (m : Mode) (p : Scheme), s.legal = true → s.ivReady m → LengthFits m s.blockBytes s.length → 0 < s.length →
    s.cipherUp = false →
    exec (fwdCommand m) s = .next s ∧ exec (invCommand m) s = .next s ∧ exec (decCommand m p) s = .next s) ∧
  (∀ (s : State) (m : Mode) (p : Scheme), s.legal = true → s.ivReady m → s.cipherUp = false →
    0 < paddedLength (effPad m p) s.blockBytes s.length →
    paddedLength (effPad m p) s.blockBytes s.length ≤ s.bufBytes →
    LengthFits m s.blockBytes (paddedLength (effPad m p) s.blockBytes s.length) → exec (encCommand m p) s = .next s) ∧
  (∀ (s : State), s.legal = true → s.length + requiredPad s.blockBytes s.length ≤ s.bufBytes →
    2 ≤ requiredPad s.blockBytes s.length → s.randomUp = false →
    exec .padIso10126 s = .next s ∧
    ∀ m : Mode, isBlockMode m = true → s.ivReady m → exec (encCommand m .iso10126) s = .next s)

/-- Every command ends when both ports answer, whatever DATA holds (never written bytes too, R71) and even when the key was
changed under it (R265): it completes, or it raises one of the faults R231 gives it. -/
def Obligations.EveryCommandEnds : Prop :=
  ∀ (i : Instr) (s : State), s.legal = true → s.cipherUp = true → s.randomUp = true →
    ∃ t, exec i s = .next t ∧ Frame s t ∧ (Completed s t ∨ ∃ e ∈ faultsOf i, ∃ info, Faulted e info s t)

/-- The frame of every command, however it ends: it writes none of INFO, CAP, HOSTERR, INTEN, LASTCMD, IV and IVVALID (R41,
R42, R164), no DATA byte from max(LEN at issue, LEN at completion) on (R72), and LEN only where it is a PAD, an UNPAD, or an
ENC or a DEC of a block mode (R24, R214). It completed, or it raised one of its faults with LEN as at issue and, but for
DEC.ECB and DEC.CBC, DATA as at issue (R231, R235), or it waits for a port (R69, R70, R275), and that it has then changed
nothing is the MODEL's choice (notes/assumptions 9). -/
def Obligations.CommandFrame : Prop :=
  ∀ (i : Instr) (s t : State), exec i s = .next t →
    Frame s t ∧ SameBeyond (max s.length t.length) s t ∧ (writesLen i = false → t.len = s.len) ∧
    (Completed s t ∨
     (∃ e ∈ faultsOf i, ∃ info, Faulted e info s t ∧ (raisesLate i = false → SameData s t)) ∨
     (t = s ∧ (s.cipherUp = false ∨ s.randomUp = false)))

/-- R41: a step changes IV or IVVALID only where it is a host write of an IV word that the engine, IDLE, accepts, or reset. -/
def Obligations.IvChangesOnlyByHostAndReset : Prop :=
  ∀ (s t : State), step s = .next t →
    (t.iv = s.iv ∧ t.ivvalid = s.ivvalid) ∨
    (∃ off v w rest, s.inputs = .write off 4 v :: rest ∧ regAt s.params off.toNat = some (.ivWord w) ∧ s.phase = .idle) ∨
    (∃ rest, s.inputs = .reset :: rest)

/-! ## Padding -/

/-- R113 and R114: PAD.NONE and UNPAD.NONE have no effect but their completion. -/
def Obligations.NoPaddingDoesNothing : Prop :=
  encode .padNone = 0x00000001 ∧ encode .unpadNone = 0x00000002 ∧
  ∀ (i : Instr) (s : State), i = .padNone ∨ i = .unpadNone → s.legal = true →
    ∃ t, exec i s = .next t ∧ Completed s t ∧ Frame s t ∧ t.len = s.len ∧ SameData s t

/-- R115: PAD.ZERO appends Z(L) zero bytes. -/
def Obligations.PadZeroAppends : Prop :=
  encode .padZero = 0x00000101 ∧
  ∀ (s : State) (L B z : Nat), s.legal = true → L = s.length → B = s.blockBytes → z = (B - L % B) % B →
    (L + z ≤ s.bufBytes →
      ∃ t, exec .padZero s = .next t ∧ Completed s t ∧ Frame s t ∧ Appended s t (List.replicate z 0x00)) ∧
    (s.bufBytes < L + z → Raises .padZero s .bufferOverflow (toWord (L + z)))

/-- R117: PAD.ISO7816 appends 0x80 and N - 1 zero bytes. -/
def Obligations.PadIso7816Appends : Prop :=
  encode .padIso7816 = 0x00000201 ∧
  ∀ (s : State) (L B N : Nat), s.legal = true → L = s.length → B = s.blockBytes → N = B - L % B →
    (L + N ≤ s.bufBytes →
      ∃ t, exec .padIso7816 s = .next t ∧ Completed s t ∧ Frame s t ∧
        Appended s t (0x80 :: List.replicate (N - 1) 0x00)) ∧
    (s.bufBytes < L + N → Raises .padIso7816 s .bufferOverflow (toWord (L + N)))

/-- R119: PAD.X923 appends N - 1 zero bytes and the byte N. -/
def Obligations.PadX923Appends : Prop :=
  encode .padX923 = 0x00000301 ∧
  ∀ (s : State) (L B N : Nat), s.legal = true → L = s.length → B = s.blockBytes → N = B - L % B →
    (L + N ≤ s.bufBytes →
      ∃ t, exec .padX923 s = .next t ∧ Completed s t ∧ Frame s t ∧
        Appended s t (List.replicate (N - 1) 0x00 ++ [BitVec.ofNat 8 N])) ∧
    (s.bufBytes < L + N → Raises .padX923 s .bufferOverflow (toWord (L + N)))

/-- R121: PAD.ISO10126 appends N - 1 bytes from the random port, one draw after the other, and the byte N. The statement
holds for every sequence of draws. -/
def Obligations.PadIso10126Appends : Prop :=
  encode .padIso10126 = 0x00000401 ∧
  ∀ (s : State) (L B N : Nat), s.legal = true → L = s.length → B = s.blockBytes → N = B - L % B →
    (L + N ≤ s.bufBytes → (s.randomUp = true ∨ N = 1) →
      ∃ t, exec .padIso10126 s = .next t ∧ Completed s t ∧ Frame s t ∧
        Appended s t ((List.range (N - 1)).map (fun j => Config.draw (s.draws + j)) ++ [BitVec.ofNat 8 N])) ∧
    (s.bufBytes < L + N → Raises .padIso10126 s .bufferOverflow (toWord (L + N)))

/-- R123: PAD.PKCS7 appends N bytes N. -/
def Obligations.PadPkcs7Appends : Prop :=
  encode .padPkcs7 = 0x00000501 ∧
  ∀ (s : State) (L B N : Nat), s.legal = true → L = s.length → B = s.blockBytes → N = B - L % B →
    (L + N ≤ s.bufBytes →
      ∃ t, exec .padPkcs7 s = .next t ∧ Completed s t ∧ Frame s t ∧
        Appended s t (List.replicate N (BitVec.ofNat 8 N))) ∧
    (s.bufBytes < L + N → Raises .padPkcs7 s .bufferOverflow (toWord (L + N)))

/-- R116: UNPAD.ZERO strips every trailing 0x00 byte and never raises. -/
def Obligations.UnpadZeroStripsTrailingZeros : Prop :=
  encode .unpadZero = 0x00000102 ∧
  ∀ (s : State) (v : List Byte) (n : Nat), s.legal = true → s.bufferIs v → n ≤ v.length →
    (∀ i, n ≤ i → i < v.length → byteOf v i = 0x00) → (n = 0 ∨ byteOf v (n - 1) ≠ 0x00) →
    ∃ t, exec .unpadZero s = .next t ∧ Completed s t ∧ Frame s t ∧ t.length = n ∧ SameData s t

/-- R118: UNPAD.ISO7816 removes the marker 0x80 and the zeros after it, found within the last min(L, B) bytes; another
nonzero byte met first raises PaddingByteMismatch with its index, min(L, B) zeros raise PaddingNotFound with the lowest
index examined. -/
def Obligations.UnpadIso7816RemovesTheMarker : Prop :=
  encode .unpadIso7816 = 0x00000202 ∧
  ∀ (s : State) (v : List Byte) (L m : Nat), s.legal = true → s.bufferIs v → L = s.length → m = min L s.blockBytes →
    (∀ j, 1 ≤ j → j ≤ m → byteOf v (L - j) = 0x80 → (∀ k, 1 ≤ k → k < j → byteOf v (L - k) = 0x00) →
      ∃ t, exec .unpadIso7816 s = .next t ∧ Completed s t ∧ Frame s t ∧ t.length = L - j ∧ SameData s t) ∧
    (∀ j, 1 ≤ j → j ≤ m → byteOf v (L - j) ≠ 0x80 → byteOf v (L - j) ≠ 0x00 →
      (∀ k, 1 ≤ k → k < j → byteOf v (L - k) = 0x00) →
      Raises .unpadIso7816 s .paddingByteMismatch (toWord (L - j))) ∧
    ((∀ k, 1 ≤ k → k ≤ m → byteOf v (L - k) = 0x00) → Raises .unpadIso7816 s .paddingNotFound (toWord (L - m)))

/-- R120, with the length byte of R112: UNPAD.X923 removes N bytes after checking that the N - 1 bytes before the length byte
are 0x00. -/
def Obligations.UnpadX923ChecksZeros : Prop :=
  encode .unpadX923 = 0x00000302 ∧
  ∀ (s : State) (v : List Byte) (L N : Nat), s.legal = true → s.bufferIs v → L = s.length → N = lastByte v →
    (L = 0 → Raises .unpadX923 s .paddingUnderflow 0) ∧
    (0 < L → N = 0 → Raises .unpadX923 s .paddingUnderflow (toWord (L - 1))) ∧
    (0 < L → s.blockBytes < N ∨ L < N → Raises .unpadX923 s .paddingOverflow (toWord (L - 1))) ∧
    (0 < L → 1 ≤ N → N ≤ s.blockBytes → N ≤ L →
      (∀ i, L - N ≤ i → i < L - 1 → byteOf v i ≠ 0x00 → (∀ j, i < j → j < L - 1 → byteOf v j = 0x00) →
        Raises .unpadX923 s .paddingByteMismatch (toWord i)) ∧
      ((∀ i, L - N ≤ i → i < L - 1 → byteOf v i = 0x00) →
        ∃ t, exec .unpadX923 s = .next t ∧ Completed s t ∧ Frame s t ∧ t.length = L - N ∧ SameData s t))

/-- R122, with the length byte of R112: UNPAD.ISO10126 removes N bytes and looks at no filler byte. -/
def Obligations.UnpadIso10126TrustsTheLengthByte : Prop :=
  encode .unpadIso10126 = 0x00000402 ∧
  ∀ (s : State) (v : List Byte) (L N : Nat), s.legal = true → s.bufferIs v → L = s.length → N = lastByte v →
    (L = 0 → Raises .unpadIso10126 s .paddingUnderflow 0) ∧
    (0 < L → N = 0 → Raises .unpadIso10126 s .paddingUnderflow (toWord (L - 1))) ∧
    (0 < L → s.blockBytes < N ∨ L < N → Raises .unpadIso10126 s .paddingOverflow (toWord (L - 1))) ∧
    (0 < L → 1 ≤ N → N ≤ s.blockBytes → N ≤ L →
      ∃ t, exec .unpadIso10126 s = .next t ∧ Completed s t ∧ Frame s t ∧ t.length = L - N ∧ SameData s t)

/-- R124, with the length byte of R112: UNPAD.PKCS7 removes N bytes after checking that the N - 1 bytes before the length byte
are N. -/
def Obligations.UnpadPkcs7ChecksCopies : Prop :=
  encode .unpadPkcs7 = 0x00000502 ∧
  ∀ (s : State) (v : List Byte) (L N : Nat), s.legal = true → s.bufferIs v → L = s.length → N = lastByte v →
    (L = 0 → Raises .unpadPkcs7 s .paddingUnderflow 0) ∧
    (0 < L → N = 0 → Raises .unpadPkcs7 s .paddingUnderflow (toWord (L - 1))) ∧
    (0 < L → s.blockBytes < N ∨ L < N → Raises .unpadPkcs7 s .paddingOverflow (toWord (L - 1))) ∧
    (0 < L → 1 ≤ N → N ≤ s.blockBytes → N ≤ L →
      (∀ i, L - N ≤ i → i < L - 1 → (byteOf v i).toNat ≠ N → (∀ j, i < j → j < L - 1 → (byteOf v j).toNat = N) →
        Raises .unpadPkcs7 s .paddingByteMismatch (toWord i)) ∧
      ((∀ i, L - N ≤ i → i < L - 1 → (byteOf v i).toNat = N) →
        ∃ t, exec .unpadPkcs7 s = .next t ∧ Completed s t ∧ Frame s t ∧ t.length = L - N ∧ SameData s t))

/-- An unpad stage answers exactly once on every buffer (R112, R116, R118, R120, R122, R124, R236): it succeeds with one
length, or it fails with one error and one index, never both; and UNPAD ends so on every buffer, one with bytes nothing has
written too (each read of such a byte is a draw, R71). -/
def Obligations.UnpadAnswersOnce : Prop :=
  (∀ (q : Scheme) (B : Nat) (v : List Byte),
    ((∃ n, Unpads q B v n) ∨ (∃ e i, UnpadFails q B v e i)) ∧
    (∀ n n', Unpads q B v n → Unpads q B v n' → n = n') ∧
    (∀ e e' i i', UnpadFails q B v e i → UnpadFails q B v e' i' → e = e' ∧ i = i') ∧
    (∀ n e i, Unpads q B v n → ¬ UnpadFails q B v e i)) ∧
  (∀ (q : Scheme) (s : State), s.legal = true →
    ∃ t v, exec (unpadCommand q) s = .next t ∧ s.mayHold v ∧ Frame s t ∧ SameData s t ∧
      ((Unpads q s.blockBytes v t.length ∧ Completed s t) ∨
       (∃ e i, UnpadFails q s.blockBytes v e i ∧ Faulted e (toWord i) s t)))

/-! ## Transforms -/

/-- R181, with the block check of R180: FWD.ECB encrypts each block. -/
def Obligations.FwdEcbEncryptsBlocks : Prop :=
  encode .fwdEcb = 0x00000003 ∧
  ∀ (s : State), s.legal = true →
    (s.length % s.blockBytes ≠ 0 → Raises .fwdEcb s .lengthNotAligned s.len) ∧
    (s.length % s.blockBytes = 0 → s.cipherServes →
      ∃ t v w, exec .fwdEcb s = .next t ∧ Transformed s t v w ∧
        ∀ k, (k + 1) * s.blockBytes ≤ s.length → s.blk w k = s.E Config.cipher (s.blk v k))

/-- R182, with the block check of R180: INV.ECB decrypts each block; and for every cipher with D(E(x)) = x, INV.ECB after FWD.ECB
restores DATA. exec is the case of the cipher behind the port. -/
def Obligations.InvEcbDecryptsBlocks : Prop :=
  encode .invEcb = 0x00000004 ∧
  (∀ (s : State), exec .invEcb s = execWith Config.cipher .invEcb s ∧ exec .fwdEcb s = execWith Config.cipher .fwdEcb s) ∧
  (∀ (c : Cipher) (s : State) (v : List Byte), c.Inverse s.blockBytes s.key → s.legal = true →
    s.length % s.blockBytes = 0 → s.cipherServes → s.bufferIs v →
    ∃ t u, execWith c .fwdEcb s = .next t ∧ t.phase = .idle ∧ execWith c .invEcb (t.issued .invEcb) = .next u ∧
      u.done = true ∧ u.err = false ∧ u.bufferIs v ∧ SameBeyond s.length s u) ∧
  ∀ (s : State), s.legal = true →
    (s.length % s.blockBytes ≠ 0 → Raises .invEcb s .lengthNotAligned s.len) ∧
    (s.length % s.blockBytes = 0 → s.cipherServes →
      ∃ t v w, exec .invEcb s = .next t ∧ Transformed s t v w ∧
        ∀ k, (k + 1) * s.blockBytes ≤ s.length → s.blk w k = s.D Config.cipher (s.blk v k))

/-- R183 and R187, with the IV check of R96 and the block check of R180: FWD.CBC XORs each block with the ciphertext block
before it, the IV for block 0, and encrypts it. -/
def Obligations.FwdCbcChainsCiphertext : Prop :=
  encode .fwdCbc = 0x00000013 ∧
  ∀ (s : State), s.legal = true →
    (s.ivComplete = false → Raises .fwdCbc s .ivMissing (s.ivvalid.extractLsb' 0 32)) ∧
    (s.ivComplete = true → s.length % s.blockBytes ≠ 0 → Raises .fwdCbc s .lengthNotAligned s.len) ∧
    (s.ivComplete = true → s.length % s.blockBytes = 0 → s.cipherServes →
      ∃ t v w, exec .fwdCbc s = .next t ∧ Transformed s t v w ∧
        ∀ k, (k + 1) * s.blockBytes ≤ s.length →
          s.blk w k = s.E Config.cipher (xorBytes (s.blk v k) (if k = 0 then s.iv else s.blk w (k - 1))))

/-- R184 and R187, with the IV check of R96 and the block check of R180: INV.CBC decrypts each block and XORs it with the
ciphertext block before it, the IV for block 0. (IV has B bytes, R25: part of the invariant.) -/
def Obligations.InvCbcChainsCiphertext : Prop :=
  encode .invCbc = 0x00000014 ∧
  ∀ (s : State), s.legal = true → s.iv.length = s.blockBytes →
    (s.ivComplete = false → Raises .invCbc s .ivMissing (s.ivvalid.extractLsb' 0 32)) ∧
    (s.ivComplete = true → s.length % s.blockBytes ≠ 0 → Raises .invCbc s .lengthNotAligned s.len) ∧
    (s.ivComplete = true → s.length % s.blockBytes = 0 → s.cipherServes →
      ∃ t v w, exec .invCbc s = .next t ∧ Transformed s t v w ∧
        ∀ k, (k + 1) * s.blockBytes ≤ s.length →
          s.blk w k = xorBytes (s.D Config.cipher (s.blk v k)) (if k = 0 then s.iv else s.blk v (k - 1)))

/-- R200 and R202, and R158: FWD.CFB, and ENC.CFB with any PAD field, XOR byte i with byte i mod B of the encryption of the
ciphertext block before, the IV for block 0. `w` is the ciphertext. -/
def Obligations.CfbEncryptFeedsBackCiphertext : Prop :=
  encode .fwdCfb = 0x00000023 ∧ encode (.encCfb .nopad) = 0x00000025 ∧
  ∀ (i : Instr) (s : State), (i = .fwdCfb ∨ ∃ p, i = .encCfb p) → s.legal = true →
    (s.ivComplete = false → Raises i s .ivMissing (s.ivvalid.extractLsb' 0 32)) ∧
    (s.ivComplete = true → s.cipherServes →
      ∃ t v w, exec i s = .next t ∧ Transformed s t v w ∧
        ∀ a, a < s.length → byteOf w a = byteOf v a ^^^
          byteOf (s.E Config.cipher (if a / s.blockBytes = 0 then s.iv else s.blk w (a / s.blockBytes - 1)))
            (a % s.blockBytes))

/-- R201 and R202, and R159: INV.CFB, and DEC.CFB with any PAD field, use the same keystream: the encryption of the ciphertext
block before, the IV for block 0. `v` is the ciphertext. -/
def Obligations.CfbDecryptFeedsBackCiphertext : Prop :=
  encode .invCfb = 0x00000024 ∧ encode (.decCfb .nopad) = 0x00000026 ∧
  ∀ (i : Instr) (s : State), (i = .invCfb ∨ ∃ p, i = .decCfb p) → s.legal = true →
    (s.ivComplete = false → Raises i s .ivMissing (s.ivvalid.extractLsb' 0 32)) ∧
    (s.ivComplete = true → s.cipherServes →
      ∃ t v w, exec i s = .next t ∧ Transformed s t v w ∧
        ∀ a, a < s.length → byteOf w a = byteOf v a ^^^
          byteOf (s.E Config.cipher (if a / s.blockBytes = 0 then s.iv else s.blk v (a / s.blockBytes - 1)))
            (a % s.blockBytes))

/-- R203, R204 and R205, and R160 and R161: FWD.OFB, INV.OFB, and ENC.OFB and DEC.OFB with any PAD field, XOR block b with the
cipher applied b + 1 times to the IV. -/
def Obligations.OfbKeystreamIsTheIteratedCipher : Prop :=
  encode .fwdOfb = 0x00000033 ∧ encode .invOfb = 0x00000034 ∧ encode (.encOfb .nopad) = 0x00000035 ∧
  encode (.decOfb .nopad) = 0x00000036 ∧
  ∀ (i : Instr) (s : State), (i = .fwdOfb ∨ i = .invOfb ∨ (∃ p, i = .encOfb p) ∨ ∃ p, i = .decOfb p) → s.legal = true →
    (s.ivComplete = false → Raises i s .ivMissing (s.ivvalid.extractLsb' 0 32)) ∧
    (s.ivComplete = true → s.cipherServes →
      ∃ t v w, exec i s = .next t ∧ Transformed s t v w ∧
        ∀ a, a < s.length → byteOf w a = byteOf v a ^^^
          byteOf ((s.E Config.cipher)^[a / s.blockBytes + 1] s.iv) (a % s.blockBytes))

/-- R211, R212 and R213, and R162 and R163: FWD.CTR, INV.CTR, and ENC.CTR and DEC.CTR with any PAD field, XOR block k with the
encryption of the counter, the IV incremented k times. -/
def Obligations.CtrKeystreamIsTheEncryptedCounter : Prop :=
  encode .fwdCtr = 0x00000043 ∧ encode .invCtr = 0x00000044 ∧ encode (.encCtr .nopad) = 0x00000045 ∧
  encode (.decCtr .nopad) = 0x00000046 ∧
  ∀ (i : Instr) (s : State), (i = .fwdCtr ∨ i = .invCtr ∨ (∃ p, i = .encCtr p) ∨ ∃ p, i = .decCtr p) → s.legal = true →
    (s.ivComplete = false → Raises i s .ivMissing (s.ivvalid.extractLsb' 0 32)) ∧
    (s.ivComplete = true → s.cipherServes →
      ∃ t v w, exec i s = .next t ∧ Transformed s t v w ∧
        ∀ a, a < s.length → byteOf w a = byteOf v a ^^^
          byteOf (s.E Config.cipher ((ctrInc s.blockBytes)^[a / s.blockBytes] s.iv)) (a % s.blockBytes))

/-- R96: a command of mode CBC, CFB, OFB or CTR without a complete IV raises IvMissing, whatever LEN and DATA are, and nothing
else happens; no other command does. -/
def Obligations.IvCheckComesFirst : Prop :=
  ∀ (i : Instr) (s : State), s.legal = true →
    (ivMode i ≠ none → s.ivComplete = false → Raises i s .ivMissing (s.ivvalid.extractLsb' 0 32)) ∧
    (ivMode i = none → s.err = false → ∀ t, exec i s = .next t → t.err = true → t.errcode ≠ errCode .ivMissing)

/-! ## ENC and DEC of the block modes -/

/-- R154: ENC.ECB pads, then encrypts each block; its two faults are raised before any write. -/
def Obligations.EncEcbPadsThenEncrypts : Prop :=
  (assemble (.enc .ecb none)).map encode = some 0x00000205 ∧
  ∀ (p : Scheme) (s : State) (n : Nat), s.legal = true → n = paddedLength p s.blockBytes s.length →
    encode (.encEcb p) = (0 : BitVec 20) ++ schemeValue p ++ (0x05 : BitVec 8) ∧
    (s.bufBytes < n → Raises (.encEcb p) s .bufferOverflow (toWord n)) ∧
    (p = .nopad → s.length % s.blockBytes ≠ 0 → Raises (.encEcb p) s .lengthNotAligned (toWord n)) ∧
    (n ≤ s.bufBytes → (p = .nopad → s.length % s.blockBytes = 0) → s.randomServes p → (n = 0 ∨ s.cipherUp = true) →
      s.keyChanged = false →
      ∃ t v tail w, exec (.encEcb p) s = .next t ∧ Completed s t ∧ Frame s t ∧ s.mayHold v ∧
        PadTail p s.blockBytes s.length tail ∧
        (p = .iso10126 → ∀ j, j + 1 < tail.length → byteOf tail j = Config.draw (s.draws + j)) ∧
        t.length = n ∧ t.bufferIs w ∧ SameBeyond n s t ∧
        ∀ k, (k + 1) * s.blockBytes ≤ n → s.blk w k = s.E Config.cipher (s.blk (v ++ tail) k))

/-- R156: ENC.CBC checks the IV, pads, then chains and encrypts; its three faults are raised before any write. -/
def Obligations.EncCbcPadsThenChains : Prop :=
  (assemble (.enc .cbc none)).map encode = some 0x00000215 ∧
  ∀ (p : Scheme) (s : State) (n : Nat), s.legal = true → n = paddedLength p s.blockBytes s.length →
    encode (.encCbc p) = (0 : BitVec 20) ++ schemeValue p ++ (0x15 : BitVec 8) ∧
    (s.ivComplete = false → Raises (.encCbc p) s .ivMissing (s.ivvalid.extractLsb' 0 32)) ∧
    (s.ivComplete = true → s.bufBytes < n → Raises (.encCbc p) s .bufferOverflow (toWord n)) ∧
    (s.ivComplete = true → p = .nopad → s.length % s.blockBytes ≠ 0 →
      Raises (.encCbc p) s .lengthNotAligned (toWord n)) ∧
    (s.ivComplete = true → n ≤ s.bufBytes → (p = .nopad → s.length % s.blockBytes = 0) → s.randomServes p →
      (n = 0 ∨ s.cipherUp = true) → s.keyChanged = false →
      ∃ t v tail w, exec (.encCbc p) s = .next t ∧ Completed s t ∧ Frame s t ∧ s.mayHold v ∧
        PadTail p s.blockBytes s.length tail ∧
        (p = .iso10126 → ∀ j, j + 1 < tail.length → byteOf tail j = Config.draw (s.draws + j)) ∧
        t.length = n ∧ t.bufferIs w ∧ SameBeyond n s t ∧
        ∀ k, (k + 1) * s.blockBytes ≤ n →
          s.blk w k =
            s.E Config.cipher (xorBytes (s.blk (v ++ tail) k) (if k = 0 then s.iv else s.blk w (k - 1))))

/-- R155 and R235: DEC.ECB decrypts each block, then unpads what it decrypted. An unpad fault leaves the decrypted buffer in
DATA and LEN as at issue. A byte that nothing has written is decrypted as the draw that the read of it returns (R71). -/
def Obligations.DecEcbDecryptsThenUnpads : Prop :=
  (assemble (.dec .ecb none)).map encode = some 0x00000206 ∧
  ∀ (p : Scheme) (s : State), s.legal = true →
    encode (.decEcb p) = (0 : BitVec 20) ++ schemeValue p ++ (0x06 : BitVec 8) ∧
    (s.length % s.blockBytes ≠ 0 → Raises (.decEcb p) s .lengthNotAligned s.len) ∧
    (∀ v w : List Byte, s.length % s.blockBytes = 0 → s.cipherServes → s.bufferIs v → w.length = v.length →
      (∀ k, (k + 1) * s.blockBytes ≤ s.length → s.blk w k = s.D Config.cipher (s.blk v k)) →
      (∀ n, Unpads p s.blockBytes w n →
        ∃ t, exec (.decEcb p) s = .next t ∧ Completed s t ∧ Frame s t ∧ t.length = n ∧
          (∀ a, a < s.length → t.byteAt a = some (byteOf w a)) ∧ SameBeyond s.length s t) ∧
      (∀ e a, UnpadFails p s.blockBytes w e a →
        ∃ t, exec (.decEcb p) s = .next t ∧ Faulted e (toWord a) s t ∧ Frame s t ∧
          (∀ a, a < s.length → t.byteAt a = some (byteOf w a)) ∧ SameBeyond s.length s t)) ∧
    (s.length % s.blockBytes = 0 → s.cipherServes →
      ∃ t v w, exec (.decEcb p) s = .next t ∧ s.mayHold v ∧ w.length = v.length ∧
        (∀ k, (k + 1) * s.blockBytes ≤ s.length → s.blk w k = s.D Config.cipher (s.blk v k)) ∧
        Unpadded p s t w)

/-- R157 and R235: DEC.CBC checks the IV, decrypts and unchains, then unpads. An unpad fault leaves the decrypted buffer in
DATA and LEN as at issue. A byte that nothing has written is decrypted as the draw that the read of it returns (R71). (IV has B
bytes, R25: part of the invariant.) -/
def Obligations.DecCbcUnchainsThenUnpads : Prop :=
  (assemble (.dec .cbc none)).map encode = some 0x00000216 ∧
  ∀ (p : Scheme) (s : State), s.legal = true → s.iv.length = s.blockBytes →
    encode (.decCbc p) = (0 : BitVec 20) ++ schemeValue p ++ (0x16 : BitVec 8) ∧
    (s.ivComplete = false → Raises (.decCbc p) s .ivMissing (s.ivvalid.extractLsb' 0 32)) ∧
    (s.ivComplete = true → s.length % s.blockBytes ≠ 0 → Raises (.decCbc p) s .lengthNotAligned s.len) ∧
    (∀ v w : List Byte, s.ivComplete = true → s.length % s.blockBytes = 0 → s.cipherServes → s.bufferIs v →
      w.length = v.length →
      (∀ k, (k + 1) * s.blockBytes ≤ s.length →
        s.blk w k = xorBytes (s.D Config.cipher (s.blk v k)) (if k = 0 then s.iv else s.blk v (k - 1))) →
      (∀ n, Unpads p s.blockBytes w n →
        ∃ t, exec (.decCbc p) s = .next t ∧ Completed s t ∧ Frame s t ∧ t.length = n ∧
          (∀ a, a < s.length → t.byteAt a = some (byteOf w a)) ∧ SameBeyond s.length s t) ∧
      (∀ e a, UnpadFails p s.blockBytes w e a →
        ∃ t, exec (.decCbc p) s = .next t ∧ Faulted e (toWord a) s t ∧ Frame s t ∧
          (∀ a, a < s.length → t.byteAt a = some (byteOf w a)) ∧ SameBeyond s.length s t)) ∧
    (s.ivComplete = true → s.length % s.blockBytes = 0 → s.cipherServes →
      ∃ t v w, exec (.decCbc p) s = .next t ∧ s.mayHold v ∧ w.length = v.length ∧
        (∀ k, (k + 1) * s.blockBytes ≤ s.length →
          s.blk w k = xorBytes (s.D Config.cipher (s.blk v k)) (if k = 0 then s.iv else s.blk v (k - 1))) ∧
        Unpadded p s t w)

/-- R150 to R153 for the stream modes: whatever the PAD field holds, ENC is the forward transform and DEC the inverse
transform of the mode; and INV of OFB and CTR is FWD (R204, R212). -/
def Obligations.StreamContractIsTheTransform : Prop :=
  ∀ (p : Scheme) (s : State),
    exec (.encCfb p) s = exec .fwdCfb s ∧ exec (.decCfb p) s = exec .invCfb s ∧
    exec (.encOfb p) s = exec .fwdOfb s ∧ exec (.decOfb p) s = exec .invOfb s ∧
    exec (.encCtr p) s = exec .fwdCtr s ∧ exec (.decCtr p) s = exec .invCtr s ∧
    exec .invOfb s = exec .fwdOfb s ∧ exec .invCtr s = exec .fwdCtr s

/-! ## Laws of the padding schemes -/

/-- R125: after a pad command of any scheme but NoPadding that succeeded, LEN is a multiple of B. -/
def Obligations.PadLeavesWholeBlocks : Prop :=
  ∀ (q : Scheme) (s t : State), q ≠ .nopad → s.done = false → exec (padCommand q) s = .next t → t.done = true →
    t.length % s.blockBytes = 0

/-- R126: PAD then UNPAD of one scheme but ZeroPadding succeeds and restores the buffer; the second command is issued by a
host write to CMD with nothing in between. -/
def Obligations.UnpadReversesPad : Prop :=
  ∀ (q : Scheme) (s : State), s.legal = true → q ≠ .zero → paddedLength q s.blockBytes s.length ≤ s.bufBytes →
    s.randomServes q →
    ∃ t u, exec (padCommand q) s = .next t ∧ t.phase = .idle ∧ t.done = true ∧
      exec (unpadCommand q) (t.issued (unpadCommand q)) = .next u ∧ u.phase = .idle ∧ u.done = true ∧ u.err = false ∧
      u.length = s.length ∧ ∀ i, i < s.length → u.byteAt i = s.byteAt i

/-- R127: PAD.ZERO then UNPAD.ZERO restores LEN exactly when the buffer was empty or its last byte was not 0x00; otherwise
LEN ends below. -/
def Obligations.ZeroPaddingAmbiguity : Prop :=
  ∀ (s : State) (v : List Byte), s.legal = true → s.bufferIs v → paddedLength .zero s.blockBytes s.length ≤ s.bufBytes →
    ∃ t u, exec .padZero s = .next t ∧ t.done = true ∧
      exec .unpadZero (t.issued .unpadZero) = .next u ∧ u.done = true ∧ u.err = false ∧
      (u.length = s.length ↔ s.length = 0 ∨ byteOf v (s.length - 1) ≠ 0x00) ∧ u.length ≤ s.length ∧
      ∀ i, i < s.length → u.byteAt i = s.byteAt i

/-! ## Laws of the transforms -/

/-- R165: the round trip. For every cipher with D(E(x)) = x (the block modes need it, the stream modes do not), ENC then DEC
with one PAD field restores the buffer, in each of the cases of the rule. exec is the case of the cipher behind the port. -/
def Obligations.DecReversesEnc : Prop :=
  (∀ (i : Instr) (s : State), exec i s = execWith Config.cipher i s) ∧
  ∀ (c : Cipher) (m : Mode) (p : Scheme) (s : State) (v : List Byte),
    s.legal = true → s.bufferIs v → s.iv.length = s.blockBytes → s.ivReady m → s.cipherUp = true → s.keyChanged = false →
    s.randomServes (effPad m p) → paddedLength (effPad m p) s.blockBytes s.length ≤ s.bufBytes →
    (isBlockMode m = true → c.Inverse s.blockBytes s.key) →
    (isBlockMode m = true → effPad m p = .nopad → s.length % s.blockBytes = 0) →
    (effPad m p = .zero → s.length = 0 ∨ byteOf v (s.length - 1) ≠ 0x00) →
    ∃ t u, execWith c (encCommand m p) s = .next t ∧ t.phase = .idle ∧ t.done = true ∧
      execWith c (decCommand m p) (t.issued (decCommand m p)) = .next u ∧ u.phase = .idle ∧ u.done = true ∧
      u.err = false ∧ u.length = s.length ∧ u.bufferIs v

/-- R185: equal plaintext blocks give equal ciphertext blocks in ECB. -/
def Obligations.EcbKeepsEqualBlocks : Prop :=
  ∀ (s : State) (v : List Byte) (k j : Nat), s.legal = true → s.length % s.blockBytes = 0 → s.cipherServes → s.bufferIs v →
    (k + 1) * s.blockBytes ≤ s.length → (j + 1) * s.blockBytes ≤ s.length → k ≠ j → s.blk v k = s.blk v j →
    ∃ t w, exec .fwdEcb s = .next t ∧ t.bufferIs w ∧ s.blk w k = s.blk w j

/-- R186: for every cipher with D(E(x)) = x, two ciphertexts that differ in block k alone decrypt under INV.CBC to plaintexts
that differ in block k, in block k + 1 by exactly the ciphertexts' difference, and nowhere else. -/
def Obligations.CbcErrorPropagation : Prop :=
  (∀ (i : Instr) (s : State), exec i s = execWith Config.cipher i s) ∧
  ∀ (c : Cipher) (s s' : State) (v v' : List Byte) (k : Nat),
    c.Inverse s.blockBytes s.key → s.legal = true → s.iv.length = s.blockBytes → s.ivComplete = true →
    s.length % s.blockBytes = 0 → s.cipherServes → s' = { s with data := s'.data } → s.bufferIs v → s'.bufferIs v' →
    (k + 1) * s.blockBytes ≤ s.length → s.blk v k ≠ s.blk v' k →
    (∀ j, j ≠ k → (j + 1) * s.blockBytes ≤ s.length → s.blk v j = s.blk v' j) →
    ∃ t t' w w', execWith c .invCbc s = .next t ∧ execWith c .invCbc s' = .next t' ∧ t.bufferIs w ∧ t'.bufferIs w' ∧
      s.blk w k ≠ s.blk w' k ∧
      ((k + 2) * s.blockBytes ≤ s.length →
        xorBytes (s.blk w (k + 1)) (s.blk w' (k + 1)) = xorBytes (s.blk v k) (s.blk v' k)) ∧
      (∀ j, j ≠ k → j ≠ k + 1 → (j + 1) * s.blockBytes ≤ s.length → s.blk w j = s.blk w' j)

/-- R202 (2) and (3), R205 (2) and (3), R213 (2) and (3): INV.CFB undoes FWD.CFB, and any two of FWD.OFB and INV.OFB, or of
FWD.CTR and INV.CTR, in a row restore the buffer, for any length, whatever the cipher is. -/
def Obligations.StreamModesAreSelfInverse : Prop :=
  ∀ (i j : Instr) (s : State) (v : List Byte),
    ((i, j) = (.fwdCfb, .invCfb) ∨ (i ∈ [Instr.fwdOfb, Instr.invOfb] ∧ j ∈ [Instr.fwdOfb, Instr.invOfb]) ∨
      (i ∈ [Instr.fwdCtr, Instr.invCtr] ∧ j ∈ [Instr.fwdCtr, Instr.invCtr])) →
    s.legal = true → s.ivComplete = true → s.cipherServes → s.bufferIs v →
    ∃ t u, exec i s = .next t ∧ t.done = true ∧ exec j (t.issued j) = .next u ∧ u.done = true ∧ u.err = false ∧
      u.length = s.length ∧ u.bufferIs v ∧ SameBeyond s.length s u

/-- R210 and R55, and R213 (4): the counter's window grows by 1 modulo 2^32, the bytes before it stay, and the counters of up
to 2^32 blocks are distinct. -/
def Obligations.CounterWindowIncrements : Prop :=
  ∀ (B : Nat) (v : List Byte), 4 ≤ B → v.length = B →
    (ctrInc B v).length = B ∧ (∀ j, j < B - 4 → byteOf (ctrInc B v) j = byteOf v j) ∧
    counterWindow B (ctrInc B v) = counterWindow B v + 1 ∧
    (∀ j k, j < k → k < 2 ^ 32 → (ctrInc B)^[j] v ≠ (ctrInc B)^[k] v)

/-- R166 and R240: what a command answers depends on its operands alone (the build, LEN, the buffer, IV, IVVALID, the cipher
with its key, which ports answer), not on WORK, SAVE, IDX, the other registers, DATA outside the buffer or the draws; the
filler bytes that ISO10126 draws are the one exception, and no fault depends on them. -/
def Obligations.CommandReadsOnlyItsOperands : Prop :=
  ∀ (i : Instr) (s s' : State), s.legal = true → s.iv.length = s.blockBytes → SameForCommand s s' →
    ∃ t t', exec i s = .next t ∧ exec i s' = .next t' ∧ t'.phase = t.phase ∧ t'.done = t.done ∧ t'.err = t.err ∧
      t'.errcode = t.errcode ∧ t'.errinfo = t.errinfo ∧ t'.len = t.len ∧
      (drawsRandom i = false → ∀ a, a < t.length → t'.byteAt a = t.byteAt a)

/-! ## The host interface -/

/-- R51: the host-interface errors and what they do; every other access leaves HOSTERR as it is, but for a write of STATUS,
which may clear it. -/
def Obligations.HostInterfaceErrors : Prop :=
  (∀ (s : State) (off : Word) (bytes : Nat) (v : Word), BadAccess s.params off.toNat bytes →
    hostRead off bytes s = { s with hosterr := true, rdata := 0 } ∧
    hostWrite off bytes v s = { s with hosterr := true }) ∧
  (∀ (s : State) (off v : Word), ReadOnlyOffset off.toNat → hostWrite off 4 v s = { s with hosterr := true }) ∧
  (∀ (s : State) (v : Word), s.bufBytes < v.toNat → hostWrite 0x014 4 v s = { s with hosterr := true }) ∧
  (∀ (s : State) (off v : Word), s.phase = .busy → GuardedOffset off.toNat →
    hostWrite off 4 v s = { s with hosterr := true }) ∧
  (∀ (s : State) (off : Word), ¬ BadAccess s.params off.toNat 4 → (hostRead off 4 s).hosterr = s.hosterr) ∧
  (∀ (s : State) (off v : Word), ¬ BadAccess s.params off.toNat 4 → ¬ ReadOnlyOffset off.toNat → off ≠ 0x00C →
    ¬ (off = 0x014 ∧ s.bufBytes < v.toNat) → ¬ (s.phase = .busy ∧ GuardedOffset off.toNat) →
    (hostWrite off 4 v s).hosterr = s.hosterr)

/-- R52, and R71 for a host read: DATA words are big-endian; a write sets its four bytes and nothing else; a read returns the
four bytes, and for each byte nothing has written, a draw of its own (`Config.draw` at the counter `draws` is the model's
form of a draw, notes/assumptions 5; that the bytes take their draws in index order says nothing of a value). -/
def Obligations.DataWordsAreBigEndian : Prop :=
  ∀ (s : State) (k : Nat) (off : Word), s.params.wellFormed = true → s.phase = .idle → 4 * k < s.bufBytes →
    off = toWord (0x1000 + 4 * k) →
    (∀ (v : Word) (t : State), t = hostWrite off 4 v s →
      t = { s with data := t.data } ∧
      t.byteAt (4 * k) = some (v.extractLsb' 24 8) ∧ t.byteAt (4 * k + 1) = some (v.extractLsb' 16 8) ∧
      t.byteAt (4 * k + 2) = some (v.extractLsb' 8 8) ∧ t.byteAt (4 * k + 3) = some (v.extractLsb' 0 8) ∧
      ∀ i, i < 4 * k ∨ 4 * k + 4 ≤ i → t.byteAt i = s.byteAt i) ∧
    (∀ b0 b1 b2 b3 : Byte, s.byteAt (4 * k) = some b0 → s.byteAt (4 * k + 1) = some b1 → s.byteAt (4 * k + 2) = some b2 →
      s.byteAt (4 * k + 3) = some b3 → hostRead off 4 s = { s with rdata := b0 ++ b1 ++ b2 ++ b3 }) ∧
    ((∀ j, j < 4 → s.byteAt (4 * k + j) = none) →
      hostRead off 4 s = { s with rdata := drawnWord s.draws, draws := s.draws + 4 }) ∧
    (∀ b : Nat → Byte,
      (∀ j, j < 4 → b j = (s.byteAt (4 * k + j)).getD (Config.draw (s.draws + s.unwrittenIn (4 * k) j))) →
      hostRead off 4 s =
        { s with rdata := b 0 ++ b 1 ++ b 2 ++ b 3, draws := s.draws + s.unwrittenIn (4 * k) 4 })

/-- R53 and R54: IV words are big-endian; a write while IDLE sets the four bytes and the IVVALID bit and nothing else, a write
while BUSY only HOSTERR; a read, at any time, returns the four bytes where the bit is 1 and a draw where it is 0. -/
def Obligations.IvWordsAreBigEndian : Prop :=
  ∀ (s : State) (w : Nat) (off : Word), s.params.wellFormed = true → s.iv.length = s.blockBytes → w < s.params.blockWords →
    off = toWord (0x100 + 4 * w) →
    (∀ (v : Word) (t : State), s.phase = .idle → t = hostWrite off 4 v s →
      t = { s with iv := t.iv, ivvalid := t.ivvalid } ∧ t.iv.length = s.iv.length ∧
      byteOf t.iv (4 * w) = v.extractLsb' 24 8 ∧ byteOf t.iv (4 * w + 1) = v.extractLsb' 16 8 ∧
      byteOf t.iv (4 * w + 2) = v.extractLsb' 8 8 ∧ byteOf t.iv (4 * w + 3) = v.extractLsb' 0 8 ∧
      (∀ j, j < 4 * w ∨ 4 * w + 4 ≤ j → byteOf t.iv j = byteOf s.iv j) ∧
      t.ivvalid.getLsbD w = true ∧ (∀ j, j ≠ w → t.ivvalid.getLsbD j = s.ivvalid.getLsbD j)) ∧
    (∀ v : Word, s.phase = .busy → hostWrite off 4 v s = { s with hosterr := true }) ∧
    (s.ivvalid.getLsbD w = true →
      hostRead off 4 s =
        { s with rdata := byteOf s.iv (4 * w) ++ byteOf s.iv (4 * w + 1) ++ byteOf s.iv (4 * w + 2) ++
                   byteOf s.iv (4 * w + 3) }) ∧
    (s.ivvalid.getLsbD w = false →
      hostRead off 4 s = { s with rdata := drawnWord s.draws, draws := s.draws + 4 })

/-- R23, with R38 for its reserved bits: what a read of STATUS returns and what a write of it does, in either phase. (The
invariants of R23 are in `StepKeepsTheInvariant`.) -/
def Obligations.StatusReadsAndClears : Prop :=
  (∀ (s : State), ∃ r : Word, hostRead 0x00C 4 s = { s with rdata := r } ∧
    (r.getLsbD 0 = true ↔ s.phase = .busy) ∧ r.getLsbD 1 = s.done ∧ r.getLsbD 2 = s.err ∧ r.getLsbD 3 = s.hosterr ∧
    r.extractLsb' 4 4 = 0 ∧ r.extractLsb' 8 8 = s.errcode ∧ r.extractLsb' 16 16 = 0) ∧
  (∀ (s t : State) (v : Word), t = hostWrite 0x00C 4 v s →
    t = { s with done := t.done, err := t.err, hosterr := t.hosterr, errcode := t.errcode, errinfo := t.errinfo } ∧
    (t.done = true ↔ s.done = true ∧ v.getLsbD 1 = false) ∧
    (t.err = true ↔ s.err = true ∧ v.getLsbD 2 = false) ∧
    (t.hosterr = true ↔ s.hosterr = true ∧ v.getLsbD 3 = false) ∧
    (v.getLsbD 2 = true → t.errcode = 0 ∧ t.errinfo = 0) ∧
    (v.getLsbD 2 = false → t.errcode = s.errcode ∧ t.errinfo = s.errinfo))

/-- R95: issue. While BUSY the write is ignored and sets HOSTERR; else LASTCMD and CUR take the word and the last completion
is cleared; an illegal word completes at once, a command makes the engine BUSY, and its turn runs it. -/
def Obligations.IssueOfACommandWord : Prop :=
  ∀ (s t : State) (w : Word), t = hostWrite 0x008 4 w s →
    (s.phase = .busy → t = { s with hosterr := true }) ∧
    (s.phase = .idle → t.lastcmd = w ∧ t.done = false ∧ IssueFrame s t) ∧
    (s.phase = .idle → isCommand (decode w) = false →
      t.phase = .idle ∧ t.err = true ∧ t.errcode = 0x10 ∧ t.errinfo = w) ∧
    (∀ i, s.phase = .idle → decode w = .command i →
      t.phase = .busy ∧ t.cur = w ∧ t.err = false ∧ t.errcode = 0 ∧ t.errinfo = 0 ∧
      t.work = s.work ∧ t.save = s.save ∧ t.idx = s.idx ∧ engineTurn t = exec i t)

/-- R24 (the host's side), R34 and R36: LEN, INTEN and irq. -/
def Obligations.LenIntenAndIrq : Prop :=
  (∀ (p : Params), (State.resetOf p).intenWord = 0 ∧ (State.resetOf p).irq = false) ∧
  (∀ (s : State) (v : Word), s.phase = .idle → v.toNat ≤ s.bufBytes → hostWrite 0x014 4 v s = { s with len := v }) ∧
  (∀ (s : State), hostRead 0x014 4 s = { s with rdata := s.len }) ∧
  (∀ (s : State) (v : Word), hostWrite 0x010 4 v s =
    { s with doneIe := v.getLsbD 0, errIe := v.getLsbD 1, hosterrIe := v.getLsbD 2 }) ∧
  (∀ (s : State), ∃ r : Word, hostRead 0x010 4 s = { s with rdata := r } ∧ r.getLsbD 0 = s.doneIe ∧
    r.getLsbD 1 = s.errIe ∧ r.getLsbD 2 = s.hosterrIe ∧ r.extractLsb' 3 29 = 0) ∧
  (∀ (s : State), s.irq = true ↔
    (s.done = true ∧ s.doneIe = true) ∨ (s.err = true ∧ s.errIe = true) ∨ (s.hosterr = true ∧ s.hosterrIe = true))

/-- R64, and the reads of R29, R30, R31, R32, R33 and R35: what a host read returns, while BUSY too, without a side effect; a
DATA word read while BUSY is a draw. -/
def Obligations.ReadsReturnCurrentValues : Prop :=
  ∀ (s : State), s.params.wellFormed = true →
    hostRead 0x000 4 s = { s with rdata := toWord s.params.blockWords } ∧
    hostRead 0x004 4 s = { s with rdata := toWord s.params.bufBytes } ∧
    hostRead 0x008 4 s = { s with rdata := 0 } ∧
    hostRead 0x00C 4 s = { s with rdata := s.statusWord } ∧
    hostRead 0x010 4 s = { s with rdata := s.intenWord } ∧
    hostRead 0x014 4 s = { s with rdata := s.len } ∧
    hostRead 0x018 4 s = { s with rdata := s.errinfo } ∧
    hostRead 0x01C 4 s = { s with rdata := s.lastcmd } ∧
    hostRead 0x020 4 s = { s with rdata := s.ivvalid.extractLsb' 0 32 } ∧
    hostRead 0x024 4 s = { s with rdata := s.ivvalid.extractLsb' 32 32 } ∧
    (∀ k, s.phase = .busy → 4 * k < s.bufBytes →
      hostRead (toWord (0x1000 + 4 * k)) 4 s = { s with rdata := drawnWord s.draws, draws := s.draws + 4 })

/-- R265: a key changed while BUSY is remembered until the next issue, and from then on every answer of the cipher port is a
draw, whatever the cipher and the block are. -/
def Obligations.KeyChangeMakesAnswersDraws : Prop :=
  (∀ (s : State) (k : Nat), takeInput (.rekey k) s =
    .next { s with key := k, keyChanged := if s.phase = .busy then true else s.keyChanged }) ∧
  (∀ (s : State) (i : Instr), s.phase = .idle → (s.issued i).keyChanged = false) ∧
  (∀ (c : Cipher) (v : List Byte) (s : State), s.cipherUp = true → s.keyChanged = true →
    blockEncrypt c v s = some (drawnBytes s.draws s.blockBytes, { s with draws := s.draws + s.blockBytes }) ∧
    blockDecrypt c v s = some (drawnBytes s.draws s.blockBytes, { s with draws := s.draws + s.blockBytes })) ∧
  (∀ (i : Instr) (c c' : Cipher) (s : State), s.keyChanged = true → execWith c i s = execWith c' i s)
end

