-- ==== Sys2Proof/Laws/State.lean ====
section
/-! SUPPORT. One lemma per field of State and per update of it, all true by unfolding the update. -/

namespace Sys2Proof.Machine

/-! ## setHosterr -/

@[simp] theorem setHosterr_params (s : State) : s.setHosterr.params = s.params := rfl
@[simp] theorem setHosterr_phase (s : State) : s.setHosterr.phase = s.phase := rfl
@[simp] theorem setHosterr_idx (s : State) : s.setHosterr.idx = s.idx := rfl
@[simp] theorem setHosterr_cur (s : State) : s.setHosterr.cur = s.cur := rfl
@[simp] theorem setHosterr_done (s : State) : s.setHosterr.done = s.done := rfl
@[simp] theorem setHosterr_err (s : State) : s.setHosterr.err = s.err := rfl
@[simp] theorem setHosterr_hosterr (s : State) : s.setHosterr.hosterr = true := rfl
@[simp] theorem setHosterr_errcode (s : State) : s.setHosterr.errcode = s.errcode := rfl
@[simp] theorem setHosterr_doneIe (s : State) : s.setHosterr.doneIe = s.doneIe := rfl
@[simp] theorem setHosterr_errIe (s : State) : s.setHosterr.errIe = s.errIe := rfl
@[simp] theorem setHosterr_hosterrIe (s : State) : s.setHosterr.hosterrIe = s.hosterrIe := rfl
@[simp] theorem setHosterr_len (s : State) : s.setHosterr.len = s.len := rfl
@[simp] theorem setHosterr_errinfo (s : State) : s.setHosterr.errinfo = s.errinfo := rfl
@[simp] theorem setHosterr_lastcmd (s : State) : s.setHosterr.lastcmd = s.lastcmd := rfl
@[simp] theorem setHosterr_ivvalid (s : State) : s.setHosterr.ivvalid = s.ivvalid := rfl
@[simp] theorem setHosterr_iv (s : State) : s.setHosterr.iv = s.iv := rfl
@[simp] theorem setHosterr_work (s : State) : s.setHosterr.work = s.work := rfl
@[simp] theorem setHosterr_save (s : State) : s.setHosterr.save = s.save := rfl
@[simp] theorem setHosterr_data (s : State) : s.setHosterr.data = s.data := rfl
@[simp] theorem setHosterr_key (s : State) : s.setHosterr.key = s.key := rfl
@[simp] theorem setHosterr_keyChanged (s : State) : s.setHosterr.keyChanged = s.keyChanged := rfl
@[simp] theorem setHosterr_cipherUp (s : State) : s.setHosterr.cipherUp = s.cipherUp := rfl
@[simp] theorem setHosterr_randomUp (s : State) : s.setHosterr.randomUp = s.randomUp := rfl
@[simp] theorem setHosterr_draws (s : State) : s.setHosterr.draws = s.draws := rfl
@[simp] theorem setHosterr_rdata (s : State) : s.setHosterr.rdata = s.rdata := rfl
@[simp] theorem setHosterr_inputs (s : State) : s.setHosterr.inputs = s.inputs := rfl
@[simp] theorem setHosterr_blockBytes (s : State) : s.setHosterr.blockBytes = s.blockBytes := rfl
@[simp] theorem setHosterr_bufBytes (s : State) : s.setHosterr.bufBytes = s.bufBytes := rfl
@[simp] theorem setHosterr_ivComplete (s : State) : s.setHosterr.ivComplete = s.ivComplete := rfl
@[simp] theorem setHosterr_length (s : State) : s.setHosterr.length = s.length := rfl
@[simp] theorem setHosterr_byteAt (s : State) (a : Nat) : s.setHosterr.byteAt a = s.byteAt a := rfl

/-! ## writeInten -/

@[simp] theorem writeInten_params (s : State) (v : Word) : (s.writeInten v).params = s.params := rfl
@[simp] theorem writeInten_phase (s : State) (v : Word) : (s.writeInten v).phase = s.phase := rfl
@[simp] theorem writeInten_idx (s : State) (v : Word) : (s.writeInten v).idx = s.idx := rfl
@[simp] theorem writeInten_cur (s : State) (v : Word) : (s.writeInten v).cur = s.cur := rfl
@[simp] theorem writeInten_done (s : State) (v : Word) : (s.writeInten v).done = s.done := rfl
@[simp] theorem writeInten_err (s : State) (v : Word) : (s.writeInten v).err = s.err := rfl
@[simp] theorem writeInten_hosterr (s : State) (v : Word) : (s.writeInten v).hosterr = s.hosterr := rfl
@[simp] theorem writeInten_errcode (s : State) (v : Word) : (s.writeInten v).errcode = s.errcode := rfl
@[simp] theorem writeInten_doneIe (s : State) (v : Word) : (s.writeInten v).doneIe = v.getLsbD 0 := rfl
@[simp] theorem writeInten_errIe (s : State) (v : Word) : (s.writeInten v).errIe = v.getLsbD 1 := rfl
@[simp] theorem writeInten_hosterrIe (s : State) (v : Word) : (s.writeInten v).hosterrIe = v.getLsbD 2 := rfl
@[simp] theorem writeInten_len (s : State) (v : Word) : (s.writeInten v).len = s.len := rfl
@[simp] theorem writeInten_errinfo (s : State) (v : Word) : (s.writeInten v).errinfo = s.errinfo := rfl
@[simp] theorem writeInten_lastcmd (s : State) (v : Word) : (s.writeInten v).lastcmd = s.lastcmd := rfl
@[simp] theorem writeInten_ivvalid (s : State) (v : Word) : (s.writeInten v).ivvalid = s.ivvalid := rfl
@[simp] theorem writeInten_iv (s : State) (v : Word) : (s.writeInten v).iv = s.iv := rfl
@[simp] theorem writeInten_work (s : State) (v : Word) : (s.writeInten v).work = s.work := rfl
@[simp] theorem writeInten_save (s : State) (v : Word) : (s.writeInten v).save = s.save := rfl
@[simp] theorem writeInten_data (s : State) (v : Word) : (s.writeInten v).data = s.data := rfl
@[simp] theorem writeInten_key (s : State) (v : Word) : (s.writeInten v).key = s.key := rfl
@[simp] theorem writeInten_keyChanged (s : State) (v : Word) : (s.writeInten v).keyChanged = s.keyChanged := rfl
@[simp] theorem writeInten_cipherUp (s : State) (v : Word) : (s.writeInten v).cipherUp = s.cipherUp := rfl
@[simp] theorem writeInten_randomUp (s : State) (v : Word) : (s.writeInten v).randomUp = s.randomUp := rfl
@[simp] theorem writeInten_draws (s : State) (v : Word) : (s.writeInten v).draws = s.draws := rfl
@[simp] theorem writeInten_rdata (s : State) (v : Word) : (s.writeInten v).rdata = s.rdata := rfl
@[simp] theorem writeInten_inputs (s : State) (v : Word) : (s.writeInten v).inputs = s.inputs := rfl
@[simp] theorem writeInten_blockBytes (s : State) (v : Word) : (s.writeInten v).blockBytes = s.blockBytes := rfl
@[simp] theorem writeInten_bufBytes (s : State) (v : Word) : (s.writeInten v).bufBytes = s.bufBytes := rfl
@[simp] theorem writeInten_ivComplete (s : State) (v : Word) : (s.writeInten v).ivComplete = s.ivComplete := rfl
@[simp] theorem writeInten_length (s : State) (v : Word) : (s.writeInten v).length = s.length := rfl
@[simp] theorem writeInten_byteAt (s : State) (v : Word) (a : Nat) : (s.writeInten v).byteAt a = s.byteAt a := rfl

/-! ## writeStatus -/

@[simp] theorem writeStatus_params (s : State) (v : Word) : (s.writeStatus v).params = s.params := rfl
@[simp] theorem writeStatus_phase (s : State) (v : Word) : (s.writeStatus v).phase = s.phase := rfl
@[simp] theorem writeStatus_idx (s : State) (v : Word) : (s.writeStatus v).idx = s.idx := rfl
@[simp] theorem writeStatus_cur (s : State) (v : Word) : (s.writeStatus v).cur = s.cur := rfl
@[simp] theorem writeStatus_done (s : State) (v : Word) : (s.writeStatus v).done = (s.done && !v.getLsbD 1) := rfl
@[simp] theorem writeStatus_err (s : State) (v : Word) : (s.writeStatus v).err = (s.err && !v.getLsbD 2) := rfl
@[simp] theorem writeStatus_hosterr (s : State) (v : Word) : (s.writeStatus v).hosterr = (s.hosterr && !v.getLsbD 3) := rfl
@[simp] theorem writeStatus_errcode (s : State) (v : Word) : (s.writeStatus v).errcode = if v.getLsbD 2 then 0 else s.errcode := rfl
@[simp] theorem writeStatus_doneIe (s : State) (v : Word) : (s.writeStatus v).doneIe = s.doneIe := rfl
@[simp] theorem writeStatus_errIe (s : State) (v : Word) : (s.writeStatus v).errIe = s.errIe := rfl
@[simp] theorem writeStatus_hosterrIe (s : State) (v : Word) : (s.writeStatus v).hosterrIe = s.hosterrIe := rfl
@[simp] theorem writeStatus_len (s : State) (v : Word) : (s.writeStatus v).len = s.len := rfl
@[simp] theorem writeStatus_errinfo (s : State) (v : Word) : (s.writeStatus v).errinfo = if v.getLsbD 2 then 0 else s.errinfo := rfl
@[simp] theorem writeStatus_lastcmd (s : State) (v : Word) : (s.writeStatus v).lastcmd = s.lastcmd := rfl
@[simp] theorem writeStatus_ivvalid (s : State) (v : Word) : (s.writeStatus v).ivvalid = s.ivvalid := rfl
@[simp] theorem writeStatus_iv (s : State) (v : Word) : (s.writeStatus v).iv = s.iv := rfl
@[simp] theorem writeStatus_work (s : State) (v : Word) : (s.writeStatus v).work = s.work := rfl
@[simp] theorem writeStatus_save (s : State) (v : Word) : (s.writeStatus v).save = s.save := rfl
@[simp] theorem writeStatus_data (s : State) (v : Word) : (s.writeStatus v).data = s.data := rfl
@[simp] theorem writeStatus_key (s : State) (v : Word) : (s.writeStatus v).key = s.key := rfl
@[simp] theorem writeStatus_keyChanged (s : State) (v : Word) : (s.writeStatus v).keyChanged = s.keyChanged := rfl
@[simp] theorem writeStatus_cipherUp (s : State) (v : Word) : (s.writeStatus v).cipherUp = s.cipherUp := rfl
@[simp] theorem writeStatus_randomUp (s : State) (v : Word) : (s.writeStatus v).randomUp = s.randomUp := rfl
@[simp] theorem writeStatus_draws (s : State) (v : Word) : (s.writeStatus v).draws = s.draws := rfl
@[simp] theorem writeStatus_rdata (s : State) (v : Word) : (s.writeStatus v).rdata = s.rdata := rfl
@[simp] theorem writeStatus_inputs (s : State) (v : Word) : (s.writeStatus v).inputs = s.inputs := rfl
@[simp] theorem writeStatus_blockBytes (s : State) (v : Word) : (s.writeStatus v).blockBytes = s.blockBytes := rfl
@[simp] theorem writeStatus_bufBytes (s : State) (v : Word) : (s.writeStatus v).bufBytes = s.bufBytes := rfl
@[simp] theorem writeStatus_ivComplete (s : State) (v : Word) : (s.writeStatus v).ivComplete = s.ivComplete := rfl
@[simp] theorem writeStatus_length (s : State) (v : Word) : (s.writeStatus v).length = s.length := rfl
@[simp] theorem writeStatus_byteAt (s : State) (v : Word) (a : Nat) : (s.writeStatus v).byteAt a = s.byteAt a := rfl

/-! ## setDraws -/

@[simp] theorem setDraws_params (s : State) (n : Nat) : (s.setDraws n).params = s.params := rfl
@[simp] theorem setDraws_phase (s : State) (n : Nat) : (s.setDraws n).phase = s.phase := rfl
@[simp] theorem setDraws_idx (s : State) (n : Nat) : (s.setDraws n).idx = s.idx := rfl
@[simp] theorem setDraws_cur (s : State) (n : Nat) : (s.setDraws n).cur = s.cur := rfl
@[simp] theorem setDraws_done (s : State) (n : Nat) : (s.setDraws n).done = s.done := rfl
@[simp] theorem setDraws_err (s : State) (n : Nat) : (s.setDraws n).err = s.err := rfl
@[simp] theorem setDraws_hosterr (s : State) (n : Nat) : (s.setDraws n).hosterr = s.hosterr := rfl
@[simp] theorem setDraws_errcode (s : State) (n : Nat) : (s.setDraws n).errcode = s.errcode := rfl
@[simp] theorem setDraws_doneIe (s : State) (n : Nat) : (s.setDraws n).doneIe = s.doneIe := rfl
@[simp] theorem setDraws_errIe (s : State) (n : Nat) : (s.setDraws n).errIe = s.errIe := rfl
@[simp] theorem setDraws_hosterrIe (s : State) (n : Nat) : (s.setDraws n).hosterrIe = s.hosterrIe := rfl
@[simp] theorem setDraws_len (s : State) (n : Nat) : (s.setDraws n).len = s.len := rfl
@[simp] theorem setDraws_errinfo (s : State) (n : Nat) : (s.setDraws n).errinfo = s.errinfo := rfl
@[simp] theorem setDraws_lastcmd (s : State) (n : Nat) : (s.setDraws n).lastcmd = s.lastcmd := rfl
@[simp] theorem setDraws_ivvalid (s : State) (n : Nat) : (s.setDraws n).ivvalid = s.ivvalid := rfl
@[simp] theorem setDraws_iv (s : State) (n : Nat) : (s.setDraws n).iv = s.iv := rfl
@[simp] theorem setDraws_work (s : State) (n : Nat) : (s.setDraws n).work = s.work := rfl
@[simp] theorem setDraws_save (s : State) (n : Nat) : (s.setDraws n).save = s.save := rfl
@[simp] theorem setDraws_data (s : State) (n : Nat) : (s.setDraws n).data = s.data := rfl
@[simp] theorem setDraws_key (s : State) (n : Nat) : (s.setDraws n).key = s.key := rfl
@[simp] theorem setDraws_keyChanged (s : State) (n : Nat) : (s.setDraws n).keyChanged = s.keyChanged := rfl
@[simp] theorem setDraws_cipherUp (s : State) (n : Nat) : (s.setDraws n).cipherUp = s.cipherUp := rfl
@[simp] theorem setDraws_randomUp (s : State) (n : Nat) : (s.setDraws n).randomUp = s.randomUp := rfl
@[simp] theorem setDraws_draws (s : State) (n : Nat) : (s.setDraws n).draws = n := rfl
@[simp] theorem setDraws_rdata (s : State) (n : Nat) : (s.setDraws n).rdata = s.rdata := rfl
@[simp] theorem setDraws_inputs (s : State) (n : Nat) : (s.setDraws n).inputs = s.inputs := rfl
@[simp] theorem setDraws_blockBytes (s : State) (n : Nat) : (s.setDraws n).blockBytes = s.blockBytes := rfl
@[simp] theorem setDraws_bufBytes (s : State) (n : Nat) : (s.setDraws n).bufBytes = s.bufBytes := rfl
@[simp] theorem setDraws_ivComplete (s : State) (n : Nat) : (s.setDraws n).ivComplete = s.ivComplete := rfl
@[simp] theorem setDraws_length (s : State) (n : Nat) : (s.setDraws n).length = s.length := rfl
@[simp] theorem setDraws_byteAt (s : State) (n : Nat) (a : Nat) : (s.setDraws n).byteAt a = s.byteAt a := rfl

/-! ## writeByte -/

@[simp] theorem writeByte_params (s : State) (i : Nat) (b : Byte) : (s.writeByte i b).params = s.params := rfl
@[simp] theorem writeByte_phase (s : State) (i : Nat) (b : Byte) : (s.writeByte i b).phase = s.phase := rfl
@[simp] theorem writeByte_idx (s : State) (i : Nat) (b : Byte) : (s.writeByte i b).idx = s.idx := rfl
@[simp] theorem writeByte_cur (s : State) (i : Nat) (b : Byte) : (s.writeByte i b).cur = s.cur := rfl
@[simp] theorem writeByte_done (s : State) (i : Nat) (b : Byte) : (s.writeByte i b).done = s.done := rfl
@[simp] theorem writeByte_err (s : State) (i : Nat) (b : Byte) : (s.writeByte i b).err = s.err := rfl
@[simp] theorem writeByte_hosterr (s : State) (i : Nat) (b : Byte) : (s.writeByte i b).hosterr = s.hosterr := rfl
@[simp] theorem writeByte_errcode (s : State) (i : Nat) (b : Byte) : (s.writeByte i b).errcode = s.errcode := rfl
@[simp] theorem writeByte_doneIe (s : State) (i : Nat) (b : Byte) : (s.writeByte i b).doneIe = s.doneIe := rfl
@[simp] theorem writeByte_errIe (s : State) (i : Nat) (b : Byte) : (s.writeByte i b).errIe = s.errIe := rfl
@[simp] theorem writeByte_hosterrIe (s : State) (i : Nat) (b : Byte) : (s.writeByte i b).hosterrIe = s.hosterrIe := rfl
@[simp] theorem writeByte_len (s : State) (i : Nat) (b : Byte) : (s.writeByte i b).len = s.len := rfl
@[simp] theorem writeByte_errinfo (s : State) (i : Nat) (b : Byte) : (s.writeByte i b).errinfo = s.errinfo := rfl
@[simp] theorem writeByte_lastcmd (s : State) (i : Nat) (b : Byte) : (s.writeByte i b).lastcmd = s.lastcmd := rfl
@[simp] theorem writeByte_ivvalid (s : State) (i : Nat) (b : Byte) : (s.writeByte i b).ivvalid = s.ivvalid := rfl
@[simp] theorem writeByte_iv (s : State) (i : Nat) (b : Byte) : (s.writeByte i b).iv = s.iv := rfl
@[simp] theorem writeByte_work (s : State) (i : Nat) (b : Byte) : (s.writeByte i b).work = s.work := rfl
@[simp] theorem writeByte_save (s : State) (i : Nat) (b : Byte) : (s.writeByte i b).save = s.save := rfl
@[simp] theorem writeByte_data (s : State) (i : Nat) (b : Byte) : (s.writeByte i b).data = Memory.write s.data i b := rfl
@[simp] theorem writeByte_key (s : State) (i : Nat) (b : Byte) : (s.writeByte i b).key = s.key := rfl
@[simp] theorem writeByte_keyChanged (s : State) (i : Nat) (b : Byte) : (s.writeByte i b).keyChanged = s.keyChanged := rfl
@[simp] theorem writeByte_cipherUp (s : State) (i : Nat) (b : Byte) : (s.writeByte i b).cipherUp = s.cipherUp := rfl
@[simp] theorem writeByte_randomUp (s : State) (i : Nat) (b : Byte) : (s.writeByte i b).randomUp = s.randomUp := rfl
@[simp] theorem writeByte_draws (s : State) (i : Nat) (b : Byte) : (s.writeByte i b).draws = s.draws := rfl
@[simp] theorem writeByte_rdata (s : State) (i : Nat) (b : Byte) : (s.writeByte i b).rdata = s.rdata := rfl
@[simp] theorem writeByte_inputs (s : State) (i : Nat) (b : Byte) : (s.writeByte i b).inputs = s.inputs := rfl
@[simp] theorem writeByte_blockBytes (s : State) (i : Nat) (b : Byte) : (s.writeByte i b).blockBytes = s.blockBytes := rfl
@[simp] theorem writeByte_bufBytes (s : State) (i : Nat) (b : Byte) : (s.writeByte i b).bufBytes = s.bufBytes := rfl
@[simp] theorem writeByte_ivComplete (s : State) (i : Nat) (b : Byte) : (s.writeByte i b).ivComplete = s.ivComplete := rfl
@[simp] theorem writeByte_length (s : State) (i : Nat) (b : Byte) : (s.writeByte i b).length = s.length := rfl

/-! ## setIdx -/

@[simp] theorem setIdx_params (s : State) (i : Nat) : (s.setIdx i).params = s.params := rfl
@[simp] theorem setIdx_phase (s : State) (i : Nat) : (s.setIdx i).phase = s.phase := rfl
@[simp] theorem setIdx_idx (s : State) (i : Nat) : (s.setIdx i).idx = BitVec.ofNat 25 i := rfl
@[simp] theorem setIdx_cur (s : State) (i : Nat) : (s.setIdx i).cur = s.cur := rfl
@[simp] theorem setIdx_done (s : State) (i : Nat) : (s.setIdx i).done = s.done := rfl
@[simp] theorem setIdx_err (s : State) (i : Nat) : (s.setIdx i).err = s.err := rfl
@[simp] theorem setIdx_hosterr (s : State) (i : Nat) : (s.setIdx i).hosterr = s.hosterr := rfl
@[simp] theorem setIdx_errcode (s : State) (i : Nat) : (s.setIdx i).errcode = s.errcode := rfl
@[simp] theorem setIdx_doneIe (s : State) (i : Nat) : (s.setIdx i).doneIe = s.doneIe := rfl
@[simp] theorem setIdx_errIe (s : State) (i : Nat) : (s.setIdx i).errIe = s.errIe := rfl
@[simp] theorem setIdx_hosterrIe (s : State) (i : Nat) : (s.setIdx i).hosterrIe = s.hosterrIe := rfl
@[simp] theorem setIdx_len (s : State) (i : Nat) : (s.setIdx i).len = s.len := rfl
@[simp] theorem setIdx_errinfo (s : State) (i : Nat) : (s.setIdx i).errinfo = s.errinfo := rfl
@[simp] theorem setIdx_lastcmd (s : State) (i : Nat) : (s.setIdx i).lastcmd = s.lastcmd := rfl
@[simp] theorem setIdx_ivvalid (s : State) (i : Nat) : (s.setIdx i).ivvalid = s.ivvalid := rfl
@[simp] theorem setIdx_iv (s : State) (i : Nat) : (s.setIdx i).iv = s.iv := rfl
@[simp] theorem setIdx_work (s : State) (i : Nat) : (s.setIdx i).work = s.work := rfl
@[simp] theorem setIdx_save (s : State) (i : Nat) : (s.setIdx i).save = s.save := rfl
@[simp] theorem setIdx_data (s : State) (i : Nat) : (s.setIdx i).data = s.data := rfl
@[simp] theorem setIdx_key (s : State) (i : Nat) : (s.setIdx i).key = s.key := rfl
@[simp] theorem setIdx_keyChanged (s : State) (i : Nat) : (s.setIdx i).keyChanged = s.keyChanged := rfl
@[simp] theorem setIdx_cipherUp (s : State) (i : Nat) : (s.setIdx i).cipherUp = s.cipherUp := rfl
@[simp] theorem setIdx_randomUp (s : State) (i : Nat) : (s.setIdx i).randomUp = s.randomUp := rfl
@[simp] theorem setIdx_draws (s : State) (i : Nat) : (s.setIdx i).draws = s.draws := rfl
@[simp] theorem setIdx_rdata (s : State) (i : Nat) : (s.setIdx i).rdata = s.rdata := rfl
@[simp] theorem setIdx_inputs (s : State) (i : Nat) : (s.setIdx i).inputs = s.inputs := rfl
@[simp] theorem setIdx_blockBytes (s : State) (i : Nat) : (s.setIdx i).blockBytes = s.blockBytes := rfl
@[simp] theorem setIdx_bufBytes (s : State) (i : Nat) : (s.setIdx i).bufBytes = s.bufBytes := rfl
@[simp] theorem setIdx_ivComplete (s : State) (i : Nat) : (s.setIdx i).ivComplete = s.ivComplete := rfl
@[simp] theorem setIdx_length (s : State) (i : Nat) : (s.setIdx i).length = s.length := rfl
@[simp] theorem setIdx_byteAt (s : State) (i : Nat) (a : Nat) : (s.setIdx i).byteAt a = s.byteAt a := rfl

/-! ## setLen -/

@[simp] theorem setLen_params (s : State) (n : Nat) : (s.setLen n).params = s.params := rfl
@[simp] theorem setLen_phase (s : State) (n : Nat) : (s.setLen n).phase = s.phase := rfl
@[simp] theorem setLen_idx (s : State) (n : Nat) : (s.setLen n).idx = s.idx := rfl
@[simp] theorem setLen_cur (s : State) (n : Nat) : (s.setLen n).cur = s.cur := rfl
@[simp] theorem setLen_done (s : State) (n : Nat) : (s.setLen n).done = s.done := rfl
@[simp] theorem setLen_err (s : State) (n : Nat) : (s.setLen n).err = s.err := rfl
@[simp] theorem setLen_hosterr (s : State) (n : Nat) : (s.setLen n).hosterr = s.hosterr := rfl
@[simp] theorem setLen_errcode (s : State) (n : Nat) : (s.setLen n).errcode = s.errcode := rfl
@[simp] theorem setLen_doneIe (s : State) (n : Nat) : (s.setLen n).doneIe = s.doneIe := rfl
@[simp] theorem setLen_errIe (s : State) (n : Nat) : (s.setLen n).errIe = s.errIe := rfl
@[simp] theorem setLen_hosterrIe (s : State) (n : Nat) : (s.setLen n).hosterrIe = s.hosterrIe := rfl
@[simp] theorem setLen_len (s : State) (n : Nat) : (s.setLen n).len = toWord n := rfl
@[simp] theorem setLen_errinfo (s : State) (n : Nat) : (s.setLen n).errinfo = s.errinfo := rfl
@[simp] theorem setLen_lastcmd (s : State) (n : Nat) : (s.setLen n).lastcmd = s.lastcmd := rfl
@[simp] theorem setLen_ivvalid (s : State) (n : Nat) : (s.setLen n).ivvalid = s.ivvalid := rfl
@[simp] theorem setLen_iv (s : State) (n : Nat) : (s.setLen n).iv = s.iv := rfl
@[simp] theorem setLen_work (s : State) (n : Nat) : (s.setLen n).work = s.work := rfl
@[simp] theorem setLen_save (s : State) (n : Nat) : (s.setLen n).save = s.save := rfl
@[simp] theorem setLen_data (s : State) (n : Nat) : (s.setLen n).data = s.data := rfl
@[simp] theorem setLen_key (s : State) (n : Nat) : (s.setLen n).key = s.key := rfl
@[simp] theorem setLen_keyChanged (s : State) (n : Nat) : (s.setLen n).keyChanged = s.keyChanged := rfl
@[simp] theorem setLen_cipherUp (s : State) (n : Nat) : (s.setLen n).cipherUp = s.cipherUp := rfl
@[simp] theorem setLen_randomUp (s : State) (n : Nat) : (s.setLen n).randomUp = s.randomUp := rfl
@[simp] theorem setLen_draws (s : State) (n : Nat) : (s.setLen n).draws = s.draws := rfl
@[simp] theorem setLen_rdata (s : State) (n : Nat) : (s.setLen n).rdata = s.rdata := rfl
@[simp] theorem setLen_inputs (s : State) (n : Nat) : (s.setLen n).inputs = s.inputs := rfl
@[simp] theorem setLen_blockBytes (s : State) (n : Nat) : (s.setLen n).blockBytes = s.blockBytes := rfl
@[simp] theorem setLen_bufBytes (s : State) (n : Nat) : (s.setLen n).bufBytes = s.bufBytes := rfl
@[simp] theorem setLen_ivComplete (s : State) (n : Nat) : (s.setLen n).ivComplete = s.ivComplete := rfl
@[simp] theorem setLen_byteAt (s : State) (n : Nat) (a : Nat) : (s.setLen n).byteAt a = s.byteAt a := rfl

/-! ## setWork -/

@[simp] theorem setWork_params (s : State) (v : List Byte) : (s.setWork v).params = s.params := rfl
@[simp] theorem setWork_phase (s : State) (v : List Byte) : (s.setWork v).phase = s.phase := rfl
@[simp] theorem setWork_idx (s : State) (v : List Byte) : (s.setWork v).idx = s.idx := rfl
@[simp] theorem setWork_cur (s : State) (v : List Byte) : (s.setWork v).cur = s.cur := rfl
@[simp] theorem setWork_done (s : State) (v : List Byte) : (s.setWork v).done = s.done := rfl
@[simp] theorem setWork_err (s : State) (v : List Byte) : (s.setWork v).err = s.err := rfl
@[simp] theorem setWork_hosterr (s : State) (v : List Byte) : (s.setWork v).hosterr = s.hosterr := rfl
@[simp] theorem setWork_errcode (s : State) (v : List Byte) : (s.setWork v).errcode = s.errcode := rfl
@[simp] theorem setWork_doneIe (s : State) (v : List Byte) : (s.setWork v).doneIe = s.doneIe := rfl
@[simp] theorem setWork_errIe (s : State) (v : List Byte) : (s.setWork v).errIe = s.errIe := rfl
@[simp] theorem setWork_hosterrIe (s : State) (v : List Byte) : (s.setWork v).hosterrIe = s.hosterrIe := rfl
@[simp] theorem setWork_len (s : State) (v : List Byte) : (s.setWork v).len = s.len := rfl
@[simp] theorem setWork_errinfo (s : State) (v : List Byte) : (s.setWork v).errinfo = s.errinfo := rfl
@[simp] theorem setWork_lastcmd (s : State) (v : List Byte) : (s.setWork v).lastcmd = s.lastcmd := rfl
@[simp] theorem setWork_ivvalid (s : State) (v : List Byte) : (s.setWork v).ivvalid = s.ivvalid := rfl
@[simp] theorem setWork_iv (s : State) (v : List Byte) : (s.setWork v).iv = s.iv := rfl
@[simp] theorem setWork_work (s : State) (v : List Byte) : (s.setWork v).work = v := rfl
@[simp] theorem setWork_save (s : State) (v : List Byte) : (s.setWork v).save = s.save := rfl
@[simp] theorem setWork_data (s : State) (v : List Byte) : (s.setWork v).data = s.data := rfl
@[simp] theorem setWork_key (s : State) (v : List Byte) : (s.setWork v).key = s.key := rfl
@[simp] theorem setWork_keyChanged (s : State) (v : List Byte) : (s.setWork v).keyChanged = s.keyChanged := rfl
@[simp] theorem setWork_cipherUp (s : State) (v : List Byte) : (s.setWork v).cipherUp = s.cipherUp := rfl
@[simp] theorem setWork_randomUp (s : State) (v : List Byte) : (s.setWork v).randomUp = s.randomUp := rfl
@[simp] theorem setWork_draws (s : State) (v : List Byte) : (s.setWork v).draws = s.draws := rfl
@[simp] theorem setWork_rdata (s : State) (v : List Byte) : (s.setWork v).rdata = s.rdata := rfl
@[simp] theorem setWork_inputs (s : State) (v : List Byte) : (s.setWork v).inputs = s.inputs := rfl
@[simp] theorem setWork_blockBytes (s : State) (v : List Byte) : (s.setWork v).blockBytes = s.blockBytes := rfl
@[simp] theorem setWork_bufBytes (s : State) (v : List Byte) : (s.setWork v).bufBytes = s.bufBytes := rfl
@[simp] theorem setWork_ivComplete (s : State) (v : List Byte) : (s.setWork v).ivComplete = s.ivComplete := rfl
@[simp] theorem setWork_length (s : State) (v : List Byte) : (s.setWork v).length = s.length := rfl
@[simp] theorem setWork_byteAt (s : State) (v : List Byte) (a : Nat) : (s.setWork v).byteAt a = s.byteAt a := rfl

/-! ## setSave -/

@[simp] theorem setSave_params (s : State) (v : List Byte) : (s.setSave v).params = s.params := rfl
@[simp] theorem setSave_phase (s : State) (v : List Byte) : (s.setSave v).phase = s.phase := rfl
@[simp] theorem setSave_idx (s : State) (v : List Byte) : (s.setSave v).idx = s.idx := rfl
@[simp] theorem setSave_cur (s : State) (v : List Byte) : (s.setSave v).cur = s.cur := rfl
@[simp] theorem setSave_done (s : State) (v : List Byte) : (s.setSave v).done = s.done := rfl
@[simp] theorem setSave_err (s : State) (v : List Byte) : (s.setSave v).err = s.err := rfl
@[simp] theorem setSave_hosterr (s : State) (v : List Byte) : (s.setSave v).hosterr = s.hosterr := rfl
@[simp] theorem setSave_errcode (s : State) (v : List Byte) : (s.setSave v).errcode = s.errcode := rfl
@[simp] theorem setSave_doneIe (s : State) (v : List Byte) : (s.setSave v).doneIe = s.doneIe := rfl
@[simp] theorem setSave_errIe (s : State) (v : List Byte) : (s.setSave v).errIe = s.errIe := rfl
@[simp] theorem setSave_hosterrIe (s : State) (v : List Byte) : (s.setSave v).hosterrIe = s.hosterrIe := rfl
@[simp] theorem setSave_len (s : State) (v : List Byte) : (s.setSave v).len = s.len := rfl
@[simp] theorem setSave_errinfo (s : State) (v : List Byte) : (s.setSave v).errinfo = s.errinfo := rfl
@[simp] theorem setSave_lastcmd (s : State) (v : List Byte) : (s.setSave v).lastcmd = s.lastcmd := rfl
@[simp] theorem setSave_ivvalid (s : State) (v : List Byte) : (s.setSave v).ivvalid = s.ivvalid := rfl
@[simp] theorem setSave_iv (s : State) (v : List Byte) : (s.setSave v).iv = s.iv := rfl
@[simp] theorem setSave_work (s : State) (v : List Byte) : (s.setSave v).work = s.work := rfl
@[simp] theorem setSave_save (s : State) (v : List Byte) : (s.setSave v).save = v := rfl
@[simp] theorem setSave_data (s : State) (v : List Byte) : (s.setSave v).data = s.data := rfl
@[simp] theorem setSave_key (s : State) (v : List Byte) : (s.setSave v).key = s.key := rfl
@[simp] theorem setSave_keyChanged (s : State) (v : List Byte) : (s.setSave v).keyChanged = s.keyChanged := rfl
@[simp] theorem setSave_cipherUp (s : State) (v : List Byte) : (s.setSave v).cipherUp = s.cipherUp := rfl
@[simp] theorem setSave_randomUp (s : State) (v : List Byte) : (s.setSave v).randomUp = s.randomUp := rfl
@[simp] theorem setSave_draws (s : State) (v : List Byte) : (s.setSave v).draws = s.draws := rfl
@[simp] theorem setSave_rdata (s : State) (v : List Byte) : (s.setSave v).rdata = s.rdata := rfl
@[simp] theorem setSave_inputs (s : State) (v : List Byte) : (s.setSave v).inputs = s.inputs := rfl
@[simp] theorem setSave_blockBytes (s : State) (v : List Byte) : (s.setSave v).blockBytes = s.blockBytes := rfl
@[simp] theorem setSave_bufBytes (s : State) (v : List Byte) : (s.setSave v).bufBytes = s.bufBytes := rfl
@[simp] theorem setSave_ivComplete (s : State) (v : List Byte) : (s.setSave v).ivComplete = s.ivComplete := rfl
@[simp] theorem setSave_length (s : State) (v : List Byte) : (s.setSave v).length = s.length := rfl
@[simp] theorem setSave_byteAt (s : State) (v : List Byte) (a : Nat) : (s.setSave v).byteAt a = s.byteAt a := rfl

/-! ## accept -/

@[simp] theorem accept_params (s : State) (w : Word) : (s.accept w).params = s.params := rfl
@[simp] theorem accept_phase (s : State) (w : Word) : (s.accept w).phase = s.phase := rfl
@[simp] theorem accept_idx (s : State) (w : Word) : (s.accept w).idx = s.idx := rfl
@[simp] theorem accept_cur (s : State) (w : Word) : (s.accept w).cur = w := rfl
@[simp] theorem accept_done (s : State) (w : Word) : (s.accept w).done = false := rfl
@[simp] theorem accept_err (s : State) (w : Word) : (s.accept w).err = false := rfl
@[simp] theorem accept_hosterr (s : State) (w : Word) : (s.accept w).hosterr = s.hosterr := rfl
@[simp] theorem accept_errcode (s : State) (w : Word) : (s.accept w).errcode = 0 := rfl
@[simp] theorem accept_doneIe (s : State) (w : Word) : (s.accept w).doneIe = s.doneIe := rfl
@[simp] theorem accept_errIe (s : State) (w : Word) : (s.accept w).errIe = s.errIe := rfl
@[simp] theorem accept_hosterrIe (s : State) (w : Word) : (s.accept w).hosterrIe = s.hosterrIe := rfl
@[simp] theorem accept_len (s : State) (w : Word) : (s.accept w).len = s.len := rfl
@[simp] theorem accept_errinfo (s : State) (w : Word) : (s.accept w).errinfo = 0 := rfl
@[simp] theorem accept_lastcmd (s : State) (w : Word) : (s.accept w).lastcmd = w := rfl
@[simp] theorem accept_ivvalid (s : State) (w : Word) : (s.accept w).ivvalid = s.ivvalid := rfl
@[simp] theorem accept_iv (s : State) (w : Word) : (s.accept w).iv = s.iv := rfl
@[simp] theorem accept_work (s : State) (w : Word) : (s.accept w).work = s.work := rfl
@[simp] theorem accept_save (s : State) (w : Word) : (s.accept w).save = s.save := rfl
@[simp] theorem accept_data (s : State) (w : Word) : (s.accept w).data = s.data := rfl
@[simp] theorem accept_key (s : State) (w : Word) : (s.accept w).key = s.key := rfl
@[simp] theorem accept_keyChanged (s : State) (w : Word) : (s.accept w).keyChanged = false := rfl
@[simp] theorem accept_cipherUp (s : State) (w : Word) : (s.accept w).cipherUp = s.cipherUp := rfl
@[simp] theorem accept_randomUp (s : State) (w : Word) : (s.accept w).randomUp = s.randomUp := rfl
@[simp] theorem accept_draws (s : State) (w : Word) : (s.accept w).draws = s.draws := rfl
@[simp] theorem accept_rdata (s : State) (w : Word) : (s.accept w).rdata = s.rdata := rfl
@[simp] theorem accept_inputs (s : State) (w : Word) : (s.accept w).inputs = s.inputs := rfl
@[simp] theorem accept_blockBytes (s : State) (w : Word) : (s.accept w).blockBytes = s.blockBytes := rfl
@[simp] theorem accept_bufBytes (s : State) (w : Word) : (s.accept w).bufBytes = s.bufBytes := rfl
@[simp] theorem accept_ivComplete (s : State) (w : Word) : (s.accept w).ivComplete = s.ivComplete := rfl
@[simp] theorem accept_length (s : State) (w : Word) : (s.accept w).length = s.length := rfl
@[simp] theorem accept_byteAt (s : State) (w : Word) (a : Nat) : (s.accept w).byteAt a = s.byteAt a := rfl

/-! ## started -/

@[simp] theorem started_params (s : State) (w : Word) : (s.started w).params = s.params := rfl
@[simp] theorem started_phase (s : State) (w : Word) : (s.started w).phase = .busy := rfl
@[simp] theorem started_idx (s : State) (w : Word) : (s.started w).idx = s.idx := rfl
@[simp] theorem started_cur (s : State) (w : Word) : (s.started w).cur = w := rfl
@[simp] theorem started_done (s : State) (w : Word) : (s.started w).done = false := rfl
@[simp] theorem started_err (s : State) (w : Word) : (s.started w).err = false := rfl
@[simp] theorem started_hosterr (s : State) (w : Word) : (s.started w).hosterr = s.hosterr := rfl
@[simp] theorem started_errcode (s : State) (w : Word) : (s.started w).errcode = 0 := rfl
@[simp] theorem started_doneIe (s : State) (w : Word) : (s.started w).doneIe = s.doneIe := rfl
@[simp] theorem started_errIe (s : State) (w : Word) : (s.started w).errIe = s.errIe := rfl
@[simp] theorem started_hosterrIe (s : State) (w : Word) : (s.started w).hosterrIe = s.hosterrIe := rfl
@[simp] theorem started_len (s : State) (w : Word) : (s.started w).len = s.len := rfl
@[simp] theorem started_errinfo (s : State) (w : Word) : (s.started w).errinfo = 0 := rfl
@[simp] theorem started_lastcmd (s : State) (w : Word) : (s.started w).lastcmd = w := rfl
@[simp] theorem started_ivvalid (s : State) (w : Word) : (s.started w).ivvalid = s.ivvalid := rfl
@[simp] theorem started_iv (s : State) (w : Word) : (s.started w).iv = s.iv := rfl
@[simp] theorem started_work (s : State) (w : Word) : (s.started w).work = s.work := rfl
@[simp] theorem started_save (s : State) (w : Word) : (s.started w).save = s.save := rfl
@[simp] theorem started_data (s : State) (w : Word) : (s.started w).data = s.data := rfl
@[simp] theorem started_key (s : State) (w : Word) : (s.started w).key = s.key := rfl
@[simp] theorem started_keyChanged (s : State) (w : Word) : (s.started w).keyChanged = false := rfl
@[simp] theorem started_cipherUp (s : State) (w : Word) : (s.started w).cipherUp = s.cipherUp := rfl
@[simp] theorem started_randomUp (s : State) (w : Word) : (s.started w).randomUp = s.randomUp := rfl
@[simp] theorem started_draws (s : State) (w : Word) : (s.started w).draws = s.draws := rfl
@[simp] theorem started_rdata (s : State) (w : Word) : (s.started w).rdata = s.rdata := rfl
@[simp] theorem started_inputs (s : State) (w : Word) : (s.started w).inputs = s.inputs := rfl
@[simp] theorem started_blockBytes (s : State) (w : Word) : (s.started w).blockBytes = s.blockBytes := rfl
@[simp] theorem started_bufBytes (s : State) (w : Word) : (s.started w).bufBytes = s.bufBytes := rfl
@[simp] theorem started_ivComplete (s : State) (w : Word) : (s.started w).ivComplete = s.ivComplete := rfl
@[simp] theorem started_length (s : State) (w : Word) : (s.started w).length = s.length := rfl
@[simp] theorem started_byteAt (s : State) (w : Word) (a : Nat) : (s.started w).byteAt a = s.byteAt a := rfl

/-! ## scrub -/

@[simp] theorem scrub_params (s : State) : s.scrub.params = s.params := rfl
@[simp] theorem scrub_phase (s : State) : s.scrub.phase = s.phase := rfl
@[simp] theorem scrub_idx (s : State) : s.scrub.idx = BitVec.ofNat 25 ((drawnWord (s.draws + 2 * s.blockBytes + 4)).toNat % (s.bufBytes + 1)) := rfl
@[simp] theorem scrub_cur (s : State) : s.scrub.cur = drawnWord (s.draws + 2 * s.blockBytes) := rfl
@[simp] theorem scrub_done (s : State) : s.scrub.done = s.done := rfl
@[simp] theorem scrub_err (s : State) : s.scrub.err = s.err := rfl
@[simp] theorem scrub_hosterr (s : State) : s.scrub.hosterr = s.hosterr := rfl
@[simp] theorem scrub_errcode (s : State) : s.scrub.errcode = s.errcode := rfl
@[simp] theorem scrub_doneIe (s : State) : s.scrub.doneIe = s.doneIe := rfl
@[simp] theorem scrub_errIe (s : State) : s.scrub.errIe = s.errIe := rfl
@[simp] theorem scrub_hosterrIe (s : State) : s.scrub.hosterrIe = s.hosterrIe := rfl
@[simp] theorem scrub_len (s : State) : s.scrub.len = s.len := rfl
@[simp] theorem scrub_errinfo (s : State) : s.scrub.errinfo = s.errinfo := rfl
@[simp] theorem scrub_lastcmd (s : State) : s.scrub.lastcmd = s.lastcmd := rfl
@[simp] theorem scrub_ivvalid (s : State) : s.scrub.ivvalid = s.ivvalid := rfl
@[simp] theorem scrub_iv (s : State) : s.scrub.iv = s.iv := rfl
@[simp] theorem scrub_work (s : State) : s.scrub.work = drawnBytes s.draws s.blockBytes := rfl
@[simp] theorem scrub_save (s : State) : s.scrub.save = drawnBytes (s.draws + s.blockBytes) s.blockBytes := rfl
@[simp] theorem scrub_data (s : State) : s.scrub.data = s.data := rfl
@[simp] theorem scrub_key (s : State) : s.scrub.key = s.key := rfl
@[simp] theorem scrub_keyChanged (s : State) : s.scrub.keyChanged = s.keyChanged := rfl
@[simp] theorem scrub_cipherUp (s : State) : s.scrub.cipherUp = s.cipherUp := rfl
@[simp] theorem scrub_randomUp (s : State) : s.scrub.randomUp = s.randomUp := rfl
@[simp] theorem scrub_draws (s : State) : s.scrub.draws = s.draws + 2 * s.blockBytes + 8 := rfl
@[simp] theorem scrub_rdata (s : State) : s.scrub.rdata = s.rdata := rfl
@[simp] theorem scrub_inputs (s : State) : s.scrub.inputs = s.inputs := rfl
@[simp] theorem scrub_blockBytes (s : State) : s.scrub.blockBytes = s.blockBytes := rfl
@[simp] theorem scrub_bufBytes (s : State) : s.scrub.bufBytes = s.bufBytes := rfl
@[simp] theorem scrub_ivComplete (s : State) : s.scrub.ivComplete = s.ivComplete := rfl
@[simp] theorem scrub_length (s : State) : s.scrub.length = s.length := rfl
@[simp] theorem scrub_byteAt (s : State) (a : Nat) : s.scrub.byteAt a = s.byteAt a := rfl

/-! ## completeOk -/

@[simp] theorem completeOk_params (s : State) : (completeOk s).params = s.params := rfl
@[simp] theorem completeOk_phase (s : State) : (completeOk s).phase = .idle := rfl
@[simp] theorem completeOk_idx (s : State) : (completeOk s).idx = BitVec.ofNat 25 ((drawnWord (s.draws + 2 * s.blockBytes + 4)).toNat % (s.bufBytes + 1)) := rfl
@[simp] theorem completeOk_cur (s : State) : (completeOk s).cur = drawnWord (s.draws + 2 * s.blockBytes) := rfl
@[simp] theorem completeOk_done (s : State) : (completeOk s).done = true := rfl
@[simp] theorem completeOk_err (s : State) : (completeOk s).err = s.err := rfl
@[simp] theorem completeOk_hosterr (s : State) : (completeOk s).hosterr = s.hosterr := rfl
@[simp] theorem completeOk_errcode (s : State) : (completeOk s).errcode = s.errcode := rfl
@[simp] theorem completeOk_doneIe (s : State) : (completeOk s).doneIe = s.doneIe := rfl
@[simp] theorem completeOk_errIe (s : State) : (completeOk s).errIe = s.errIe := rfl
@[simp] theorem completeOk_hosterrIe (s : State) : (completeOk s).hosterrIe = s.hosterrIe := rfl
@[simp] theorem completeOk_len (s : State) : (completeOk s).len = s.len := rfl
@[simp] theorem completeOk_errinfo (s : State) : (completeOk s).errinfo = s.errinfo := rfl
@[simp] theorem completeOk_lastcmd (s : State) : (completeOk s).lastcmd = s.lastcmd := rfl
@[simp] theorem completeOk_ivvalid (s : State) : (completeOk s).ivvalid = s.ivvalid := rfl
@[simp] theorem completeOk_iv (s : State) : (completeOk s).iv = s.iv := rfl
@[simp] theorem completeOk_work (s : State) : (completeOk s).work = drawnBytes s.draws s.blockBytes := rfl
@[simp] theorem completeOk_save (s : State) : (completeOk s).save = drawnBytes (s.draws + s.blockBytes) s.blockBytes := rfl
@[simp] theorem completeOk_data (s : State) : (completeOk s).data = s.data := rfl
@[simp] theorem completeOk_key (s : State) : (completeOk s).key = s.key := rfl
@[simp] theorem completeOk_keyChanged (s : State) : (completeOk s).keyChanged = s.keyChanged := rfl
@[simp] theorem completeOk_cipherUp (s : State) : (completeOk s).cipherUp = s.cipherUp := rfl
@[simp] theorem completeOk_randomUp (s : State) : (completeOk s).randomUp = s.randomUp := rfl
@[simp] theorem completeOk_draws (s : State) : (completeOk s).draws = s.draws + 2 * s.blockBytes + 8 := rfl
@[simp] theorem completeOk_rdata (s : State) : (completeOk s).rdata = s.rdata := rfl
@[simp] theorem completeOk_inputs (s : State) : (completeOk s).inputs = s.inputs := rfl
@[simp] theorem completeOk_blockBytes (s : State) : (completeOk s).blockBytes = s.blockBytes := rfl
@[simp] theorem completeOk_bufBytes (s : State) : (completeOk s).bufBytes = s.bufBytes := rfl
@[simp] theorem completeOk_ivComplete (s : State) : (completeOk s).ivComplete = s.ivComplete := rfl
@[simp] theorem completeOk_length (s : State) : (completeOk s).length = s.length := rfl
@[simp] theorem completeOk_byteAt (s : State) (a : Nat) : (completeOk s).byteAt a = s.byteAt a := rfl

/-! ## completeFault -/

@[simp] theorem completeFault_params (s : State) (e : Err) (v : Word) : (completeFault e v s).params = s.params := rfl
@[simp] theorem completeFault_phase (s : State) (e : Err) (v : Word) : (completeFault e v s).phase = .idle := rfl
@[simp] theorem completeFault_idx (s : State) (e : Err) (v : Word) : (completeFault e v s).idx = BitVec.ofNat 25 ((drawnWord (s.draws + 2 * s.blockBytes + 4)).toNat % (s.bufBytes + 1)) := rfl
@[simp] theorem completeFault_cur (s : State) (e : Err) (v : Word) : (completeFault e v s).cur = drawnWord (s.draws + 2 * s.blockBytes) := rfl
@[simp] theorem completeFault_done (s : State) (e : Err) (v : Word) : (completeFault e v s).done = s.done := rfl
@[simp] theorem completeFault_err (s : State) (e : Err) (v : Word) : (completeFault e v s).err = true := rfl
@[simp] theorem completeFault_hosterr (s : State) (e : Err) (v : Word) : (completeFault e v s).hosterr = s.hosterr := rfl
@[simp] theorem completeFault_errcode (s : State) (e : Err) (v : Word) : (completeFault e v s).errcode = errCode e := rfl
@[simp] theorem completeFault_doneIe (s : State) (e : Err) (v : Word) : (completeFault e v s).doneIe = s.doneIe := rfl
@[simp] theorem completeFault_errIe (s : State) (e : Err) (v : Word) : (completeFault e v s).errIe = s.errIe := rfl
@[simp] theorem completeFault_hosterrIe (s : State) (e : Err) (v : Word) : (completeFault e v s).hosterrIe = s.hosterrIe := rfl
@[simp] theorem completeFault_len (s : State) (e : Err) (v : Word) : (completeFault e v s).len = s.len := rfl
@[simp] theorem completeFault_errinfo (s : State) (e : Err) (v : Word) : (completeFault e v s).errinfo = v := rfl
@[simp] theorem completeFault_lastcmd (s : State) (e : Err) (v : Word) : (completeFault e v s).lastcmd = s.lastcmd := rfl
@[simp] theorem completeFault_ivvalid (s : State) (e : Err) (v : Word) : (completeFault e v s).ivvalid = s.ivvalid := rfl
@[simp] theorem completeFault_iv (s : State) (e : Err) (v : Word) : (completeFault e v s).iv = s.iv := rfl
@[simp] theorem completeFault_work (s : State) (e : Err) (v : Word) : (completeFault e v s).work = drawnBytes s.draws s.blockBytes := rfl
@[simp] theorem completeFault_save (s : State) (e : Err) (v : Word) : (completeFault e v s).save = drawnBytes (s.draws + s.blockBytes) s.blockBytes := rfl
@[simp] theorem completeFault_data (s : State) (e : Err) (v : Word) : (completeFault e v s).data = s.data := rfl
@[simp] theorem completeFault_key (s : State) (e : Err) (v : Word) : (completeFault e v s).key = s.key := rfl
@[simp] theorem completeFault_keyChanged (s : State) (e : Err) (v : Word) : (completeFault e v s).keyChanged = s.keyChanged := rfl
@[simp] theorem completeFault_cipherUp (s : State) (e : Err) (v : Word) : (completeFault e v s).cipherUp = s.cipherUp := rfl
@[simp] theorem completeFault_randomUp (s : State) (e : Err) (v : Word) : (completeFault e v s).randomUp = s.randomUp := rfl
@[simp] theorem completeFault_draws (s : State) (e : Err) (v : Word) : (completeFault e v s).draws = s.draws + 2 * s.blockBytes + 8 := rfl
@[simp] theorem completeFault_rdata (s : State) (e : Err) (v : Word) : (completeFault e v s).rdata = s.rdata := rfl
@[simp] theorem completeFault_inputs (s : State) (e : Err) (v : Word) : (completeFault e v s).inputs = s.inputs := rfl
@[simp] theorem completeFault_blockBytes (s : State) (e : Err) (v : Word) : (completeFault e v s).blockBytes = s.blockBytes := rfl
@[simp] theorem completeFault_bufBytes (s : State) (e : Err) (v : Word) : (completeFault e v s).bufBytes = s.bufBytes := rfl
@[simp] theorem completeFault_ivComplete (s : State) (e : Err) (v : Word) : (completeFault e v s).ivComplete = s.ivComplete := rfl
@[simp] theorem completeFault_length (s : State) (e : Err) (v : Word) : (completeFault e v s).length = s.length := rfl
@[simp] theorem completeFault_byteAt (s : State) (e : Err) (v : Word) (a : Nat) : (completeFault e v s).byteAt a = s.byteAt a := rfl

/-! ## answer -/

@[simp] theorem answer_params (s : State) (v : Word) : (s.answer v).params = s.params := rfl
@[simp] theorem answer_phase (s : State) (v : Word) : (s.answer v).phase = s.phase := rfl
@[simp] theorem answer_idx (s : State) (v : Word) : (s.answer v).idx = s.idx := rfl
@[simp] theorem answer_cur (s : State) (v : Word) : (s.answer v).cur = s.cur := rfl
@[simp] theorem answer_done (s : State) (v : Word) : (s.answer v).done = s.done := rfl
@[simp] theorem answer_err (s : State) (v : Word) : (s.answer v).err = s.err := rfl
@[simp] theorem answer_hosterr (s : State) (v : Word) : (s.answer v).hosterr = s.hosterr := rfl
@[simp] theorem answer_errcode (s : State) (v : Word) : (s.answer v).errcode = s.errcode := rfl
@[simp] theorem answer_doneIe (s : State) (v : Word) : (s.answer v).doneIe = s.doneIe := rfl
@[simp] theorem answer_errIe (s : State) (v : Word) : (s.answer v).errIe = s.errIe := rfl
@[simp] theorem answer_hosterrIe (s : State) (v : Word) : (s.answer v).hosterrIe = s.hosterrIe := rfl
@[simp] theorem answer_len (s : State) (v : Word) : (s.answer v).len = s.len := rfl
@[simp] theorem answer_errinfo (s : State) (v : Word) : (s.answer v).errinfo = s.errinfo := rfl
@[simp] theorem answer_lastcmd (s : State) (v : Word) : (s.answer v).lastcmd = s.lastcmd := rfl
@[simp] theorem answer_ivvalid (s : State) (v : Word) : (s.answer v).ivvalid = s.ivvalid := rfl
@[simp] theorem answer_iv (s : State) (v : Word) : (s.answer v).iv = s.iv := rfl
@[simp] theorem answer_work (s : State) (v : Word) : (s.answer v).work = s.work := rfl
@[simp] theorem answer_save (s : State) (v : Word) : (s.answer v).save = s.save := rfl
@[simp] theorem answer_data (s : State) (v : Word) : (s.answer v).data = s.data := rfl
@[simp] theorem answer_key (s : State) (v : Word) : (s.answer v).key = s.key := rfl
@[simp] theorem answer_keyChanged (s : State) (v : Word) : (s.answer v).keyChanged = s.keyChanged := rfl
@[simp] theorem answer_cipherUp (s : State) (v : Word) : (s.answer v).cipherUp = s.cipherUp := rfl
@[simp] theorem answer_randomUp (s : State) (v : Word) : (s.answer v).randomUp = s.randomUp := rfl
@[simp] theorem answer_draws (s : State) (v : Word) : (s.answer v).draws = s.draws := rfl
@[simp] theorem answer_rdata (s : State) (v : Word) : (s.answer v).rdata = v := rfl
@[simp] theorem answer_inputs (s : State) (v : Word) : (s.answer v).inputs = s.inputs := rfl
@[simp] theorem answer_blockBytes (s : State) (v : Word) : (s.answer v).blockBytes = s.blockBytes := rfl
@[simp] theorem answer_bufBytes (s : State) (v : Word) : (s.answer v).bufBytes = s.bufBytes := rfl
@[simp] theorem answer_ivComplete (s : State) (v : Word) : (s.answer v).ivComplete = s.ivComplete := rfl
@[simp] theorem answer_length (s : State) (v : Word) : (s.answer v).length = s.length := rfl
@[simp] theorem answer_byteAt (s : State) (v : Word) (a : Nat) : (s.answer v).byteAt a = s.byteAt a := rfl

/-! ## answerDraw -/

@[simp] theorem answerDraw_params (s : State) : s.answerDraw.params = s.params := rfl
@[simp] theorem answerDraw_phase (s : State) : s.answerDraw.phase = s.phase := rfl
@[simp] theorem answerDraw_idx (s : State) : s.answerDraw.idx = s.idx := rfl
@[simp] theorem answerDraw_cur (s : State) : s.answerDraw.cur = s.cur := rfl
@[simp] theorem answerDraw_done (s : State) : s.answerDraw.done = s.done := rfl
@[simp] theorem answerDraw_err (s : State) : s.answerDraw.err = s.err := rfl
@[simp] theorem answerDraw_hosterr (s : State) : s.answerDraw.hosterr = s.hosterr := rfl
@[simp] theorem answerDraw_errcode (s : State) : s.answerDraw.errcode = s.errcode := rfl
@[simp] theorem answerDraw_doneIe (s : State) : s.answerDraw.doneIe = s.doneIe := rfl
@[simp] theorem answerDraw_errIe (s : State) : s.answerDraw.errIe = s.errIe := rfl
@[simp] theorem answerDraw_hosterrIe (s : State) : s.answerDraw.hosterrIe = s.hosterrIe := rfl
@[simp] theorem answerDraw_len (s : State) : s.answerDraw.len = s.len := rfl
@[simp] theorem answerDraw_errinfo (s : State) : s.answerDraw.errinfo = s.errinfo := rfl
@[simp] theorem answerDraw_lastcmd (s : State) : s.answerDraw.lastcmd = s.lastcmd := rfl
@[simp] theorem answerDraw_ivvalid (s : State) : s.answerDraw.ivvalid = s.ivvalid := rfl
@[simp] theorem answerDraw_iv (s : State) : s.answerDraw.iv = s.iv := rfl
@[simp] theorem answerDraw_work (s : State) : s.answerDraw.work = s.work := rfl
@[simp] theorem answerDraw_save (s : State) : s.answerDraw.save = s.save := rfl
@[simp] theorem answerDraw_data (s : State) : s.answerDraw.data = s.data := rfl
@[simp] theorem answerDraw_key (s : State) : s.answerDraw.key = s.key := rfl
@[simp] theorem answerDraw_keyChanged (s : State) : s.answerDraw.keyChanged = s.keyChanged := rfl
@[simp] theorem answerDraw_cipherUp (s : State) : s.answerDraw.cipherUp = s.cipherUp := rfl
@[simp] theorem answerDraw_randomUp (s : State) : s.answerDraw.randomUp = s.randomUp := rfl
@[simp] theorem answerDraw_draws (s : State) : s.answerDraw.draws = s.draws + 4 := rfl
@[simp] theorem answerDraw_rdata (s : State) : s.answerDraw.rdata = drawnWord s.draws := rfl
@[simp] theorem answerDraw_inputs (s : State) : s.answerDraw.inputs = s.inputs := rfl
@[simp] theorem answerDraw_blockBytes (s : State) : s.answerDraw.blockBytes = s.blockBytes := rfl
@[simp] theorem answerDraw_bufBytes (s : State) : s.answerDraw.bufBytes = s.bufBytes := rfl
@[simp] theorem answerDraw_ivComplete (s : State) : s.answerDraw.ivComplete = s.ivComplete := rfl
@[simp] theorem answerDraw_length (s : State) : s.answerDraw.length = s.length := rfl
@[simp] theorem answerDraw_byteAt (s : State) (a : Nat) : s.answerDraw.byteAt a = s.byteAt a := rfl

/-! ## writeIv -/

@[simp] theorem writeIv_params (s : State) (w : Nat) (v : Word) : (s.writeIv w v).params = s.params := rfl
@[simp] theorem writeIv_phase (s : State) (w : Nat) (v : Word) : (s.writeIv w v).phase = s.phase := rfl
@[simp] theorem writeIv_idx (s : State) (w : Nat) (v : Word) : (s.writeIv w v).idx = s.idx := rfl
@[simp] theorem writeIv_cur (s : State) (w : Nat) (v : Word) : (s.writeIv w v).cur = s.cur := rfl
@[simp] theorem writeIv_done (s : State) (w : Nat) (v : Word) : (s.writeIv w v).done = s.done := rfl
@[simp] theorem writeIv_err (s : State) (w : Nat) (v : Word) : (s.writeIv w v).err = s.err := rfl
@[simp] theorem writeIv_hosterr (s : State) (w : Nat) (v : Word) : (s.writeIv w v).hosterr = s.hosterr := rfl
@[simp] theorem writeIv_errcode (s : State) (w : Nat) (v : Word) : (s.writeIv w v).errcode = s.errcode := rfl
@[simp] theorem writeIv_doneIe (s : State) (w : Nat) (v : Word) : (s.writeIv w v).doneIe = s.doneIe := rfl
@[simp] theorem writeIv_errIe (s : State) (w : Nat) (v : Word) : (s.writeIv w v).errIe = s.errIe := rfl
@[simp] theorem writeIv_hosterrIe (s : State) (w : Nat) (v : Word) : (s.writeIv w v).hosterrIe = s.hosterrIe := rfl
@[simp] theorem writeIv_len (s : State) (w : Nat) (v : Word) : (s.writeIv w v).len = s.len := rfl
@[simp] theorem writeIv_errinfo (s : State) (w : Nat) (v : Word) : (s.writeIv w v).errinfo = s.errinfo := rfl
@[simp] theorem writeIv_lastcmd (s : State) (w : Nat) (v : Word) : (s.writeIv w v).lastcmd = s.lastcmd := rfl
@[simp] theorem writeIv_ivvalid (s : State) (w : Nat) (v : Word) : (s.writeIv w v).ivvalid = s.ivvalid ||| (1 <<< w) := rfl
@[simp] theorem writeIv_iv (s : State) (w : Nat) (v : Word) : (s.writeIv w v).iv = putBytes (wordBytes v) (4 * w) s.iv := rfl
@[simp] theorem writeIv_work (s : State) (w : Nat) (v : Word) : (s.writeIv w v).work = s.work := rfl
@[simp] theorem writeIv_save (s : State) (w : Nat) (v : Word) : (s.writeIv w v).save = s.save := rfl
@[simp] theorem writeIv_data (s : State) (w : Nat) (v : Word) : (s.writeIv w v).data = s.data := rfl
@[simp] theorem writeIv_key (s : State) (w : Nat) (v : Word) : (s.writeIv w v).key = s.key := rfl
@[simp] theorem writeIv_keyChanged (s : State) (w : Nat) (v : Word) : (s.writeIv w v).keyChanged = s.keyChanged := rfl
@[simp] theorem writeIv_cipherUp (s : State) (w : Nat) (v : Word) : (s.writeIv w v).cipherUp = s.cipherUp := rfl
@[simp] theorem writeIv_randomUp (s : State) (w : Nat) (v : Word) : (s.writeIv w v).randomUp = s.randomUp := rfl
@[simp] theorem writeIv_draws (s : State) (w : Nat) (v : Word) : (s.writeIv w v).draws = s.draws := rfl
@[simp] theorem writeIv_rdata (s : State) (w : Nat) (v : Word) : (s.writeIv w v).rdata = s.rdata := rfl
@[simp] theorem writeIv_inputs (s : State) (w : Nat) (v : Word) : (s.writeIv w v).inputs = s.inputs := rfl
@[simp] theorem writeIv_blockBytes (s : State) (w : Nat) (v : Word) : (s.writeIv w v).blockBytes = s.blockBytes := rfl
@[simp] theorem writeIv_bufBytes (s : State) (w : Nat) (v : Word) : (s.writeIv w v).bufBytes = s.bufBytes := rfl
@[simp] theorem writeIv_length (s : State) (w : Nat) (v : Word) : (s.writeIv w v).length = s.length := rfl
@[simp] theorem writeIv_byteAt (s : State) (w : Nat) (v : Word) (a : Nat) : (s.writeIv w v).byteAt a = s.byteAt a := rfl

/-! ## rekeyed -/

@[simp] theorem rekeyed_params (s : State) (k : Nat) : (s.rekeyed k).params = s.params := rfl
@[simp] theorem rekeyed_phase (s : State) (k : Nat) : (s.rekeyed k).phase = s.phase := rfl
@[simp] theorem rekeyed_idx (s : State) (k : Nat) : (s.rekeyed k).idx = s.idx := rfl
@[simp] theorem rekeyed_cur (s : State) (k : Nat) : (s.rekeyed k).cur = s.cur := rfl
@[simp] theorem rekeyed_done (s : State) (k : Nat) : (s.rekeyed k).done = s.done := rfl
@[simp] theorem rekeyed_err (s : State) (k : Nat) : (s.rekeyed k).err = s.err := rfl
@[simp] theorem rekeyed_hosterr (s : State) (k : Nat) : (s.rekeyed k).hosterr = s.hosterr := rfl
@[simp] theorem rekeyed_errcode (s : State) (k : Nat) : (s.rekeyed k).errcode = s.errcode := rfl
@[simp] theorem rekeyed_doneIe (s : State) (k : Nat) : (s.rekeyed k).doneIe = s.doneIe := rfl
@[simp] theorem rekeyed_errIe (s : State) (k : Nat) : (s.rekeyed k).errIe = s.errIe := rfl
@[simp] theorem rekeyed_hosterrIe (s : State) (k : Nat) : (s.rekeyed k).hosterrIe = s.hosterrIe := rfl
@[simp] theorem rekeyed_len (s : State) (k : Nat) : (s.rekeyed k).len = s.len := rfl
@[simp] theorem rekeyed_errinfo (s : State) (k : Nat) : (s.rekeyed k).errinfo = s.errinfo := rfl
@[simp] theorem rekeyed_lastcmd (s : State) (k : Nat) : (s.rekeyed k).lastcmd = s.lastcmd := rfl
@[simp] theorem rekeyed_ivvalid (s : State) (k : Nat) : (s.rekeyed k).ivvalid = s.ivvalid := rfl
@[simp] theorem rekeyed_iv (s : State) (k : Nat) : (s.rekeyed k).iv = s.iv := rfl
@[simp] theorem rekeyed_work (s : State) (k : Nat) : (s.rekeyed k).work = s.work := rfl
@[simp] theorem rekeyed_save (s : State) (k : Nat) : (s.rekeyed k).save = s.save := rfl
@[simp] theorem rekeyed_data (s : State) (k : Nat) : (s.rekeyed k).data = s.data := rfl
@[simp] theorem rekeyed_key (s : State) (k : Nat) : (s.rekeyed k).key = k := rfl
@[simp] theorem rekeyed_keyChanged (s : State) (k : Nat) : (s.rekeyed k).keyChanged = (s.keyChanged || s.busy) := rfl
@[simp] theorem rekeyed_cipherUp (s : State) (k : Nat) : (s.rekeyed k).cipherUp = s.cipherUp := rfl
@[simp] theorem rekeyed_randomUp (s : State) (k : Nat) : (s.rekeyed k).randomUp = s.randomUp := rfl
@[simp] theorem rekeyed_draws (s : State) (k : Nat) : (s.rekeyed k).draws = s.draws := rfl
@[simp] theorem rekeyed_rdata (s : State) (k : Nat) : (s.rekeyed k).rdata = s.rdata := rfl
@[simp] theorem rekeyed_inputs (s : State) (k : Nat) : (s.rekeyed k).inputs = s.inputs := rfl
@[simp] theorem rekeyed_blockBytes (s : State) (k : Nat) : (s.rekeyed k).blockBytes = s.blockBytes := rfl
@[simp] theorem rekeyed_bufBytes (s : State) (k : Nat) : (s.rekeyed k).bufBytes = s.bufBytes := rfl
@[simp] theorem rekeyed_ivComplete (s : State) (k : Nat) : (s.rekeyed k).ivComplete = s.ivComplete := rfl
@[simp] theorem rekeyed_length (s : State) (k : Nat) : (s.rekeyed k).length = s.length := rfl
@[simp] theorem rekeyed_byteAt (s : State) (k : Nat) (a : Nat) : (s.rekeyed k).byteAt a = s.byteAt a := rfl

/-! ## setPorts -/

@[simp] theorem setPorts_params (s : State) (c r : Bool) : (s.setPorts c r).params = s.params := rfl
@[simp] theorem setPorts_phase (s : State) (c r : Bool) : (s.setPorts c r).phase = s.phase := rfl
@[simp] theorem setPorts_idx (s : State) (c r : Bool) : (s.setPorts c r).idx = s.idx := rfl
@[simp] theorem setPorts_cur (s : State) (c r : Bool) : (s.setPorts c r).cur = s.cur := rfl
@[simp] theorem setPorts_done (s : State) (c r : Bool) : (s.setPorts c r).done = s.done := rfl
@[simp] theorem setPorts_err (s : State) (c r : Bool) : (s.setPorts c r).err = s.err := rfl
@[simp] theorem setPorts_hosterr (s : State) (c r : Bool) : (s.setPorts c r).hosterr = s.hosterr := rfl
@[simp] theorem setPorts_errcode (s : State) (c r : Bool) : (s.setPorts c r).errcode = s.errcode := rfl
@[simp] theorem setPorts_doneIe (s : State) (c r : Bool) : (s.setPorts c r).doneIe = s.doneIe := rfl
@[simp] theorem setPorts_errIe (s : State) (c r : Bool) : (s.setPorts c r).errIe = s.errIe := rfl
@[simp] theorem setPorts_hosterrIe (s : State) (c r : Bool) : (s.setPorts c r).hosterrIe = s.hosterrIe := rfl
@[simp] theorem setPorts_len (s : State) (c r : Bool) : (s.setPorts c r).len = s.len := rfl
@[simp] theorem setPorts_errinfo (s : State) (c r : Bool) : (s.setPorts c r).errinfo = s.errinfo := rfl
@[simp] theorem setPorts_lastcmd (s : State) (c r : Bool) : (s.setPorts c r).lastcmd = s.lastcmd := rfl
@[simp] theorem setPorts_ivvalid (s : State) (c r : Bool) : (s.setPorts c r).ivvalid = s.ivvalid := rfl
@[simp] theorem setPorts_iv (s : State) (c r : Bool) : (s.setPorts c r).iv = s.iv := rfl
@[simp] theorem setPorts_work (s : State) (c r : Bool) : (s.setPorts c r).work = s.work := rfl
@[simp] theorem setPorts_save (s : State) (c r : Bool) : (s.setPorts c r).save = s.save := rfl
@[simp] theorem setPorts_data (s : State) (c r : Bool) : (s.setPorts c r).data = s.data := rfl
@[simp] theorem setPorts_key (s : State) (c r : Bool) : (s.setPorts c r).key = s.key := rfl
@[simp] theorem setPorts_keyChanged (s : State) (c r : Bool) : (s.setPorts c r).keyChanged = s.keyChanged := rfl
@[simp] theorem setPorts_cipherUp (s : State) (c r : Bool) : (s.setPorts c r).cipherUp = c := rfl
@[simp] theorem setPorts_randomUp (s : State) (c r : Bool) : (s.setPorts c r).randomUp = r := rfl
@[simp] theorem setPorts_draws (s : State) (c r : Bool) : (s.setPorts c r).draws = s.draws := rfl
@[simp] theorem setPorts_rdata (s : State) (c r : Bool) : (s.setPorts c r).rdata = s.rdata := rfl
@[simp] theorem setPorts_inputs (s : State) (c r : Bool) : (s.setPorts c r).inputs = s.inputs := rfl
@[simp] theorem setPorts_blockBytes (s : State) (c r : Bool) : (s.setPorts c r).blockBytes = s.blockBytes := rfl
@[simp] theorem setPorts_bufBytes (s : State) (c r : Bool) : (s.setPorts c r).bufBytes = s.bufBytes := rfl
@[simp] theorem setPorts_ivComplete (s : State) (c r : Bool) : (s.setPorts c r).ivComplete = s.ivComplete := rfl
@[simp] theorem setPorts_length (s : State) (c r : Bool) : (s.setPorts c r).length = s.length := rfl
@[simp] theorem setPorts_byteAt (s : State) (c r : Bool) (a : Nat) : (s.setPorts c r).byteAt a = s.byteAt a := rfl

/-! ## dropInput -/

@[simp] theorem dropInput_params (s : State) : s.dropInput.params = s.params := rfl
@[simp] theorem dropInput_phase (s : State) : s.dropInput.phase = s.phase := rfl
@[simp] theorem dropInput_idx (s : State) : s.dropInput.idx = s.idx := rfl
@[simp] theorem dropInput_cur (s : State) : s.dropInput.cur = s.cur := rfl
@[simp] theorem dropInput_done (s : State) : s.dropInput.done = s.done := rfl
@[simp] theorem dropInput_err (s : State) : s.dropInput.err = s.err := rfl
@[simp] theorem dropInput_hosterr (s : State) : s.dropInput.hosterr = s.hosterr := rfl
@[simp] theorem dropInput_errcode (s : State) : s.dropInput.errcode = s.errcode := rfl
@[simp] theorem dropInput_doneIe (s : State) : s.dropInput.doneIe = s.doneIe := rfl
@[simp] theorem dropInput_errIe (s : State) : s.dropInput.errIe = s.errIe := rfl
@[simp] theorem dropInput_hosterrIe (s : State) : s.dropInput.hosterrIe = s.hosterrIe := rfl
@[simp] theorem dropInput_len (s : State) : s.dropInput.len = s.len := rfl
@[simp] theorem dropInput_errinfo (s : State) : s.dropInput.errinfo = s.errinfo := rfl
@[simp] theorem dropInput_lastcmd (s : State) : s.dropInput.lastcmd = s.lastcmd := rfl
@[simp] theorem dropInput_ivvalid (s : State) : s.dropInput.ivvalid = s.ivvalid := rfl
@[simp] theorem dropInput_iv (s : State) : s.dropInput.iv = s.iv := rfl
@[simp] theorem dropInput_work (s : State) : s.dropInput.work = s.work := rfl
@[simp] theorem dropInput_save (s : State) : s.dropInput.save = s.save := rfl
@[simp] theorem dropInput_data (s : State) : s.dropInput.data = s.data := rfl
@[simp] theorem dropInput_key (s : State) : s.dropInput.key = s.key := rfl
@[simp] theorem dropInput_keyChanged (s : State) : s.dropInput.keyChanged = s.keyChanged := rfl
@[simp] theorem dropInput_cipherUp (s : State) : s.dropInput.cipherUp = s.cipherUp := rfl
@[simp] theorem dropInput_randomUp (s : State) : s.dropInput.randomUp = s.randomUp := rfl
@[simp] theorem dropInput_draws (s : State) : s.dropInput.draws = s.draws := rfl
@[simp] theorem dropInput_rdata (s : State) : s.dropInput.rdata = s.rdata := rfl
@[simp] theorem dropInput_inputs (s : State) : s.dropInput.inputs = s.inputs.tail := rfl
@[simp] theorem dropInput_blockBytes (s : State) : s.dropInput.blockBytes = s.blockBytes := rfl
@[simp] theorem dropInput_bufBytes (s : State) : s.dropInput.bufBytes = s.bufBytes := rfl
@[simp] theorem dropInput_ivComplete (s : State) : s.dropInput.ivComplete = s.ivComplete := rfl
@[simp] theorem dropInput_length (s : State) : s.dropInput.length = s.length := rfl
@[simp] theorem dropInput_byteAt (s : State) (a : Nat) : s.dropInput.byteAt a = s.byteAt a := rfl

end Sys2Proof.Machine
end

