-- ==== Sys2Proof/Laws/Memory.lean ====
section
/-! SUPPORT. What DATA's operations do: one byte read after a write, the canonical form, MemRead and MemWrite. -/

namespace Sys2Proof.Machine

/-! ## Byte vectors -/

@[simp] theorem byteOf_cons_zero (b : Byte) (v : List Byte) : byteOf (b :: v) 0 = b := rfl

@[simp] theorem byteOf_cons_succ (b : Byte) (v : List Byte) (j : Nat) : byteOf (b :: v) (j + 1) = byteOf v j := rfl

theorem byteOf_eq_getElem {v : List Byte} {j : Nat} (h : j < v.length) : byteOf v j = v[j] := by
  simp [byteOf, h]

theorem byteOf_eq_zero {v : List Byte} {j : Nat} (h : v.length ≤ j) : byteOf v j = 0 := by
  simp [byteOf, h]

/-- Two vectors of one length with the same bytes are equal. -/
theorem eq_of_byteOf {v w : List Byte} (hl : v.length = w.length) (h : ∀ j, j < v.length → byteOf v j = byteOf w j) :
    v = w := by
  apply List.ext_getElem hl
  intro j h1 h2
  rw [← byteOf_eq_getElem h1, ← byteOf_eq_getElem h2]
  exact h j h1

theorem byteOf_append_left {v w : List Byte} {j : Nat} (h : j < v.length) : byteOf (v ++ w) j = byteOf v j := by
  simp [byteOf, List.getElem?_append_left h]

theorem byteOf_append_right {v w : List Byte} {j : Nat} (h : v.length ≤ j) :
    byteOf (v ++ w) j = byteOf w (j - v.length) := by
  simp [byteOf, List.getElem?_append_right h]

theorem byteOf_replicate {n j : Nat} {b : Byte} (h : j < n) : byteOf (List.replicate n b) j = b := by
  simp [byteOf, h]

theorem byteOf_set {v : List Byte} {i j : Nat} {b : Byte} :
    byteOf (v.set i b) j = if i = j ∧ i < v.length then b else byteOf v j := by
  unfold byteOf
  rw [List.getD_eq_getElem?_getD, List.getD_eq_getElem?_getD, List.getElem?_set]
  by_cases h1 : i = j
  · subst h1
    by_cases h2 : i < v.length
    · simp [h2]
    · simp [h2]
  · simp [h1]

@[simp] theorem xorBytes_length (a b : List Byte) : (xorBytes a b).length = min a.length b.length := by
  simp [xorBytes]

theorem byteOf_xorBytes {a b : List Byte} {j : Nat} (ha : j < a.length) (hb : j < b.length) :
    byteOf (xorBytes a b) j = byteOf a j ^^^ byteOf b j := by
  have h : j < (xorBytes a b).length := by simp; omega
  rw [byteOf_eq_getElem h, byteOf_eq_getElem ha, byteOf_eq_getElem hb]
  simp [xorBytes]

@[simp] theorem drawnBytes_length (d n : Nat) : (drawnBytes d n).length = n := by simp [drawnBytes]

theorem byteOf_drawnBytes {d n j : Nat} (h : j < n) : byteOf (drawnBytes d n) j = Config.draw (d + j) := by
  rw [byteOf_eq_getElem (by simpa using h)]
  simp [drawnBytes]

@[simp] theorem encBlock_length (c : Cipher) (n key : Nat) (v : List Byte) : (c.encBlock n key v).length = n := by
  simp [Cipher.encBlock]

@[simp] theorem decBlock_length (c : Cipher) (n key : Nat) (v : List Byte) : (c.decBlock n key v).length = n := by
  simp [Cipher.decBlock]

/-! ## The list of written bytes -/

/-- Read after write: the byte written, and every other byte as before. -/
theorem lookup_write (m : List Host.Cell) (i j : Nat) (b : Byte) :
    Memory.lookup (Memory.write m i b) j = if i = j then some b else Memory.lookup m j := by
  induction m with
  | nil => simp [Memory.write, Memory.lookup]
  | cons c m ih =>
    obtain ⟨a, x⟩ := c
    simp only [Memory.write]
    split
    · simp [Memory.lookup]
    · split
      · rename_i h; subst h
        simp only [Memory.lookup]
        split <;> rfl
      · simp only [Memory.lookup, ih]
        split
        · rename_i h1 h2 h3
          rw [if_neg (by omega)]
        · rfl

/-- A write lists the index written and what was listed. -/
theorem mem_write {m : List Host.Cell} {i : Nat} {b : Byte} {c : Host.Cell} (h : c ∈ Memory.write m i b) :
    c.1 = i ∨ c ∈ m := by
  induction m with
  | nil => simp_all [Memory.write]
  | cons d m ih =>
    obtain ⟨a, x⟩ := d
    simp only [Memory.write] at h
    split at h
    · simp only [List.mem_cons] at h ⊢
      rcases h with rfl | h | h <;> simp_all
    · split at h
      · simp only [List.mem_cons] at h ⊢
        rcases h with rfl | h <;> simp_all
      · simp only [List.mem_cons] at h ⊢
        rcases h with h | h
        · exact .inr (.inl h)
        · rcases ih h with h | h
          · exact .inl h
          · exact .inr (.inr h)

/-- A write keeps the canonical form. -/
theorem write_wf {m : List Host.Cell} (i : Nat) (b : Byte) (h : Memory.wf m) : Memory.wf (Memory.write m i b) := by
  induction m with
  | nil => simp [Memory.write, Memory.wf]
  | cons c m ih =>
    obtain ⟨a, x⟩ := c
    simp only [Memory.wf, List.pairwise_cons] at h ih ⊢
    simp only [Memory.write]
    split
    · rename_i hi
      simp only [List.pairwise_cons, List.mem_cons]
      refine ⟨?_, h.1, h.2⟩
      rintro c (rfl | hc)
      · exact hi
      · exact Nat.lt_trans hi (h.1 c hc)
    · split
      · rename_i _ hi
        simp only [List.pairwise_cons]
        exact ⟨fun c hc => hi ▸ h.1 c hc, h.2⟩
      · rename_i h1 h2
        simp only [List.pairwise_cons]
        refine ⟨fun c hc => ?_, ih h.2⟩
        rcases mem_write hc with hc | hc
        · simp only [hc]; omega
        · exact h.1 c hc

/-- A write at an index of the buffer lists indices of the buffer only. -/
theorem write_within {m : List Host.Cell} {n i : Nat} (b : Byte) (h : Memory.within n m) (hi : i < n) :
    Memory.within n (Memory.write m i b) := by
  intro c hc
  rcases mem_write hc with hc | hc
  · rw [hc]; exact hi
  · exact h c hc

@[simp] theorem byteAt_writeByte (s : State) (i j : Nat) (b : Byte) :
    (s.writeByte i b).byteAt j = if i = j then some b else s.byteAt j := lookup_write s.data i j b

/-- The memory of the reset state is in canonical form. -/
theorem resetOf_data_wf (p : Params) : Memory.wf (State.resetOf p).data := by simp [State.resetOf, Memory.wf]

/-! ## What a part of a command may touch -/

/-- DATA is in canonical form and lists indices below `n` only. -/
structure DataOk (n : Nat) (s : State) : Prop where
  wf : Memory.wf s.data
  within : Memory.within n s.data

/-- What no part of a command before its completion touches, and DATA from index `n` on. -/
structure Touch (n : Nat) (s t : State) : Prop where
  params : t.params = s.params
  phase : t.phase = s.phase
  cur : t.cur = s.cur
  done : t.done = s.done
  err : t.err = s.err
  hosterr : t.hosterr = s.hosterr
  errcode : t.errcode = s.errcode
  doneIe : t.doneIe = s.doneIe
  errIe : t.errIe = s.errIe
  hosterrIe : t.hosterrIe = s.hosterrIe
  errinfo : t.errinfo = s.errinfo
  lastcmd : t.lastcmd = s.lastcmd
  ivvalid : t.ivvalid = s.ivvalid
  iv : t.iv = s.iv
  key : t.key = s.key
  keyChanged : t.keyChanged = s.keyChanged
  cipherUp : t.cipherUp = s.cipherUp
  randomUp : t.randomUp = s.randomUp
  rdata : t.rdata = s.rdata
  inputs : t.inputs = s.inputs
  ok : ∀ m, n ≤ m → DataOk m s → DataOk m t
  beyond : ∀ i, n ≤ i → t.byteAt i = s.byteAt i

theorem Touch.refl (n : Nat) (s : State) : Touch n s s := by
  constructor <;> intros <;> first | rfl | assumption

theorem Touch.mono {n m : Nat} {s t : State} (h : Touch n s t) (hnm : n ≤ m) : Touch m s t :=
  { h with ok := fun k hk => h.ok k (by omega), beyond := fun i hi => h.beyond i (by omega) }

theorem Touch.trans {n : Nat} {s t u : State} (h : Touch n s t) (k : Touch n t u) : Touch n s u where
  params := k.params.trans h.params
  phase := k.phase.trans h.phase
  cur := k.cur.trans h.cur
  done := k.done.trans h.done
  err := k.err.trans h.err
  hosterr := k.hosterr.trans h.hosterr
  errcode := k.errcode.trans h.errcode
  doneIe := k.doneIe.trans h.doneIe
  errIe := k.errIe.trans h.errIe
  hosterrIe := k.hosterrIe.trans h.hosterrIe
  errinfo := k.errinfo.trans h.errinfo
  lastcmd := k.lastcmd.trans h.lastcmd
  ivvalid := k.ivvalid.trans h.ivvalid
  iv := k.iv.trans h.iv
  key := k.key.trans h.key
  keyChanged := k.keyChanged.trans h.keyChanged
  cipherUp := k.cipherUp.trans h.cipherUp
  randomUp := k.randomUp.trans h.randomUp
  rdata := k.rdata.trans h.rdata
  inputs := k.inputs.trans h.inputs
  ok := fun m hm hs => k.ok m hm (h.ok m hm hs)
  beyond := fun i hi => (k.beyond i hi).trans (h.beyond i hi)

theorem Touch.blockBytes {n : Nat} {s t : State} (h : Touch n s t) : t.blockBytes = s.blockBytes := by
  simp [State.blockBytes, h.params]

theorem Touch.bufBytes {n : Nat} {s t : State} (h : Touch n s t) : t.bufBytes = s.bufBytes := by
  simp [State.bufBytes, h.params]

theorem Touch.ivComplete {n : Nat} {s t : State} (h : Touch n s t) : t.ivComplete = s.ivComplete := by
  simp [State.ivComplete, h.params, h.ivvalid]

theorem touch_setIdx (n i : Nat) (s : State) : Touch n s (s.setIdx i) := by
  constructor <;> first | rfl | exact fun _ _ h => ⟨h.wf, h.within⟩ | exact fun _ _ => rfl

theorem touch_setLen (n i : Nat) (s : State) : Touch n s (s.setLen i) := by
  constructor <;> first | rfl | exact fun _ _ h => ⟨h.wf, h.within⟩ | exact fun _ _ => rfl

theorem touch_setWork (n : Nat) (v : List Byte) (s : State) : Touch n s (s.setWork v) := by
  constructor <;> first | rfl | exact fun _ _ h => ⟨h.wf, h.within⟩ | exact fun _ _ => rfl

theorem touch_setSave (n : Nat) (v : List Byte) (s : State) : Touch n s (s.setSave v) := by
  constructor <;> first | rfl | exact fun _ _ h => ⟨h.wf, h.within⟩ | exact fun _ _ => rfl

theorem touch_setDraws (n d : Nat) (s : State) : Touch n s (s.setDraws d) := by
  constructor <;> first | rfl | exact fun _ _ h => ⟨h.wf, h.within⟩ | exact fun _ _ => rfl

theorem touch_writeByte (n i : Nat) (b : Byte) (s : State) (hi : i < n) : Touch n s (s.writeByte i b) := by
  constructor <;> intros <;> try rfl
  · rename_i m hm h; exact ⟨write_wf i b h.wf, write_within b h.within (by omega)⟩
  · rename_i j hj; rw [byteAt_writeByte, if_neg (by omega)]

/-! ## Reading and writing DATA -/

/-- A read of one byte: the byte written there, or a draw where nothing was written; only the count of draws moves. -/
theorem readByte_spec (i : Nat) (s : State) :
    (s.byteAt i = some (s.readByte i).1 ∨ s.byteAt i = none) ∧
    (s.readByte i).2 = s.setDraws (s.readByte i).2.draws := by
  unfold State.readByte State.byteAt
  split
  · rename_i b h; exact ⟨.inl h, rfl⟩
  · rename_i h; exact ⟨.inr h, rfl⟩

theorem readByte_written {i : Nat} {s : State} {b : Byte} (h : s.byteAt i = some b) : s.readByte i = (b, s) := by
  unfold State.byteAt at h
  simp [State.readByte, h]

theorem touch_readByte (n i : Nat) (s : State) : Touch n s (s.readByte i).2 := by
  rw [(readByte_spec i s).2]; exact touch_setDraws n _ s

/-- MemRead: `n` bytes, each the byte written at its index or a draw; only the count of draws moves. -/
theorem memRead_spec (n i : Nat) (s : State) :
    (memRead n i s).1.length = n ∧
    (∀ j, j < n → s.byteAt (i + j) = some (byteOf (memRead n i s).1 j) ∨ s.byteAt (i + j) = none) ∧
    (memRead n i s).2 = s.setDraws (memRead n i s).2.draws := by
  induction n generalizing i s with
  | zero => exact ⟨rfl, by omega, rfl⟩
  | succ n ih =>
    obtain ⟨h1, h2⟩ := readByte_spec i s
    obtain ⟨k1, k2, k3⟩ := ih (i + 1) (s.readByte i).2
    simp only [memRead]
    refine ⟨by simp [k1], fun j hj => ?_, ?_⟩
    · cases j with
      | zero => simpa using h1
      | succ j =>
        have k := k2 j (by omega)
        have hs : ∀ a, (s.readByte i).2.byteAt a = s.byteAt a := fun a => by rw [h2]; rfl
        rw [hs] at k
        simpa [Nat.add_assoc, Nat.add_comm 1 j] using k
    · generalize memRead n (i + 1) (s.readByte i).2 = q at *
      rw [h2] at k3
      exact k3

theorem touch_memRead (m n i : Nat) (s : State) : Touch m s (memRead n i s).2 := by
  rw [(memRead_spec n i s).2.2]; exact touch_setDraws m _ s

/-- MemRead of bytes that are all written. -/
theorem memRead_written {i : Nat} {s : State} (v : List Byte)
    (h : ∀ j, j < v.length → s.byteAt (i + j) = some (byteOf v j)) : memRead v.length i s = (v, s) := by
  induction v generalizing i with
  | nil => rfl
  | cons b v ih =>
    have h0 : s.byteAt i = some b := by simpa using h 0 (by simp)
    have ht := ih (i := i + 1) fun j hj => by
      have := h (j + 1) (by simpa using hj)
      simpa [Nat.add_assoc, Nat.add_comm 1 j] using this
    simp [memRead, readByte_written h0, ht]

/-- MemWrite: the bytes of the vector at its indices, every other byte as before. -/
theorem byteAt_memWrite (v : List Byte) (i j : Nat) (s : State) :
    (memWrite v i s).byteAt j = if i ≤ j ∧ j < i + v.length then some (byteOf v (j - i)) else s.byteAt j := by
  induction v generalizing i s with
  | nil => rw [if_neg (by simp)]; rfl
  | cons b v ih =>
    simp only [memWrite, ih, byteAt_writeByte, List.length_cons]
    by_cases h1 : i = j
    · subst h1
      rw [if_neg (by omega), if_pos rfl, if_pos (by omega)]
      simp
    · rw [if_neg h1]
      by_cases h2 : i + 1 ≤ j ∧ j < i + 1 + v.length
      · rw [if_pos h2, if_pos (by omega)]
        obtain ⟨k, hk⟩ : ∃ k, j - i = k + 1 := ⟨j - i - 1, by omega⟩
        rw [hk, byteOf_cons_succ, show j - (i + 1) = k by omega]
      · rw [if_neg h2, if_neg (by omega)]

/-- MemWrite moves nothing but DATA. -/
theorem memWrite_eq (v : List Byte) (i : Nat) (s : State) : memWrite v i s = { s with data := (memWrite v i s).data } := by
  induction v generalizing i s with
  | nil => rfl
  | cons b v ih =>
    simp only [memWrite]
    conv_lhs => rw [ih]
    rfl

theorem touch_memWrite (n : Nat) (v : List Byte) (i : Nat) (s : State) (h : i + v.length ≤ n) :
    Touch n s (memWrite v i s) := by
  induction v generalizing i s with
  | nil => exact Touch.refl n s
  | cons b v ih =>
    simp only [List.length_cons] at h
    exact (touch_writeByte n i b s (by omega)).trans (ih (i + 1) _ (by omega))

@[simp] theorem memWrite_len (v : List Byte) (i : Nat) (s : State) : (memWrite v i s).len = s.len := by rw [memWrite_eq]

@[simp] theorem memWrite_work (v : List Byte) (i : Nat) (s : State) : (memWrite v i s).work = s.work := by rw [memWrite_eq]

@[simp] theorem memWrite_save (v : List Byte) (i : Nat) (s : State) : (memWrite v i s).save = s.save := by rw [memWrite_eq]

/-- MemWrite keeps the canonical form. -/
theorem memWrite_wf (v : List Byte) (i : Nat) (s : State) (h : Memory.wf s.data) : Memory.wf (memWrite v i s).data := by
  induction v generalizing i s with
  | nil => exact h
  | cons b v ih => exact ih (i + 1) _ (write_wf i b h)

end Sys2Proof.Machine
end

