-- ==== Sys2Proof/Laws/Ops.lean ====
section
/-! SUPPORT. What the shared operations of a command can do: how a stage ends, the ports, the preconditions, the issue,
the two completions and the skeleton. -/

namespace Sys2Proof.Machine

/-! ## How a stage ends -/

/-- Whatever the end of a stage is, it meets its condition: `P` where it finished, `Q` where it raised, `W` where it waits
for a port. -/
def StageResult.All (r : StageResult) (P : State → Prop) (Q : Err → Word → State → Prop) (W : Prop) : Prop :=
  match r with
  | .ok t => P t
  | .raised e v t => Q e v t
  | .waiting => W

@[simp] theorem andThen_ok (s : State) (f : State → StageResult) : (StageResult.ok s).andThen f = f s := rfl

@[simp] theorem andThen_raised (e : Err) (v : Word) (s : State) (f : State → StageResult) :
    (StageResult.raised e v s).andThen f = .raised e v s := rfl

@[simp] theorem andThen_waiting (f : State → StageResult) : StageResult.waiting.andThen f = .waiting := rfl

@[simp] theorem andThen_ok_right (r : StageResult) : r.andThen StageResult.ok = r := by cases r <;> rfl

/-- Two stages in a row. -/
theorem StageResult.All.andThen {r : StageResult} {f : State → StageResult} {P P' : State → Prop}
    {Q : Err → Word → State → Prop} {W : Prop} (h : r.All P Q W) (k : ∀ t, P t → (f t).All P' Q W) :
    (r.andThen f).All P' Q W := by
  cases r with
  | ok t => exact k t h
  | raised e v t => exact h
  | waiting => exact h

/-- Weaker conditions. -/
theorem StageResult.All.imp {r : StageResult} {P P' : State → Prop} {Q Q' : Err → Word → State → Prop} {W W' : Prop}
    (h : r.All P Q W) (hp : ∀ t, P t → P' t) (hq : ∀ e v t, Q e v t → Q' e v t) (hw : W → W') : r.All P' Q' W' := by
  cases r with
  | ok t => exact hp t h
  | raised e v t => exact hq e v t h
  | waiting => exact hw h

/-! ## The ports -/

/-- A cipher request: no answer from a silent port; draws after a key change; else the answer, the state as it was. -/
theorem cipherAnswer_cases (answer : List Byte) (s : State) :
    (s.cipherUp = false ∧ s.cipherAnswer answer = none) ∨
    (s.cipherUp = true ∧ s.keyChanged = true ∧
      s.cipherAnswer answer = some (drawnBytes s.draws s.blockBytes, s.setDraws (s.draws + s.blockBytes))) ∨
    (s.cipherUp = true ∧ s.keyChanged = false ∧ s.cipherAnswer answer = some (answer, s)) := by
  unfold State.cipherAnswer State.drawBytes
  cases s.cipherUp <;> cases s.keyChanged <;> simp

/-- A served cipher request. -/
theorem blockEncrypt_served {c : Cipher} {v : List Byte} {s : State} (hu : s.cipherUp = true) (hk : s.keyChanged = false) :
    blockEncrypt c v s = some (c.encBlock s.blockBytes s.key v, s) := by
  simp [blockEncrypt, State.cipherAnswer, hu, hk]

/-- A served cipher request. -/
theorem blockDecrypt_served {c : Cipher} {v : List Byte} {s : State} (hu : s.cipherUp = true) (hk : s.keyChanged = false) :
    blockDecrypt c v s = some (c.decBlock s.blockBytes s.key v, s) := by
  simp [blockDecrypt, State.cipherAnswer, hu, hk]

/-- A silent port answers no request. -/
theorem blockEncrypt_silent {c : Cipher} {v : List Byte} {s : State} (hu : s.cipherUp = false) :
    blockEncrypt c v s = none := by
  simp [blockEncrypt, State.cipherAnswer, hu]

/-- A silent port answers no request. -/
theorem blockDecrypt_silent {c : Cipher} {v : List Byte} {s : State} (hu : s.cipherUp = false) :
    blockDecrypt c v s = none := by
  simp [blockDecrypt, State.cipherAnswer, hu]

/-- An answered encrypt request: B bytes; only the count of draws moves. -/
theorem blockEncrypt_answered {c : Cipher} {v y : List Byte} {s t : State} (h : blockEncrypt c v s = some (y, t)) :
    s.cipherUp = true ∧ y.length = s.blockBytes ∧ t = s.setDraws t.draws := by
  rcases cipherAnswer_cases (c.encBlock s.blockBytes s.key v) s with ⟨_, h1⟩ | ⟨hu, _, h1⟩ | ⟨hu, _, h1⟩ <;>
    simp only [blockEncrypt] at h <;> rw [h1] at h
  · cases h
  · cases h; exact ⟨hu, by simp, rfl⟩
  · cases h; exact ⟨hu, by simp, rfl⟩

/-- An answered decrypt request: B bytes; only the count of draws moves. -/
theorem blockDecrypt_answered {c : Cipher} {v y : List Byte} {s t : State} (h : blockDecrypt c v s = some (y, t)) :
    s.cipherUp = true ∧ y.length = s.blockBytes ∧ t = s.setDraws t.draws := by
  rcases cipherAnswer_cases (c.decBlock s.blockBytes s.key v) s with ⟨_, h1⟩ | ⟨hu, _, h1⟩ | ⟨hu, _, h1⟩ <;>
    simp only [blockDecrypt] at h <;> rw [h1] at h
  · cases h
  · cases h; exact ⟨hu, by simp, rfl⟩
  · cases h; exact ⟨hu, by simp, rfl⟩

/-- A request goes unanswered exactly at a silent port. -/
theorem blockEncrypt_none {c : Cipher} {v : List Byte} {s : State} : blockEncrypt c v s = none ↔ s.cipherUp = false := by
  rcases cipherAnswer_cases (c.encBlock s.blockBytes s.key v) s with ⟨hu, h1⟩ | ⟨hu, _, h1⟩ | ⟨hu, _, h1⟩ <;>
    simp [blockEncrypt, h1, hu]

/-- A request goes unanswered exactly at a silent port. -/
theorem blockDecrypt_none {c : Cipher} {v : List Byte} {s : State} : blockDecrypt c v s = none ↔ s.cipherUp = false := by
  rcases cipherAnswer_cases (c.decBlock s.blockBytes s.key v) s with ⟨hu, h1⟩ | ⟨hu, _, h1⟩ | ⟨hu, _, h1⟩ <;>
    simp [blockDecrypt, h1, hu]

/-- A random request: a draw, or no answer from a silent port. -/
theorem randomByte_cases (s : State) :
    (s.randomUp = false ∧ randomByte s = none) ∨
    (s.randomUp = true ∧ randomByte s = some (Config.draw s.draws, s.setDraws (s.draws + 1))) := by
  unfold randomByte
  cases s.randomUp <;> simp

/-! ## The preconditions -/

theorem ivCheck_cases (s : State) :
    (s.ivComplete = true ∧ ivCheck s = .ok s) ∨
    (s.ivComplete = false ∧ ivCheck s = .raised .ivMissing (s.ivvalid.extractLsb' 0 32) s) := by
  unfold ivCheck
  cases s.ivComplete <;> simp

theorem capacity_cases (total : Nat) (s : State) :
    (total ≤ s.bufBytes ∧ capacity total s = .ok s) ∨
    (s.bufBytes < total ∧ capacity total s = .raised .bufferOverflow (toWord total) s) := by
  unfold capacity
  by_cases h : s.bufBytes < total
  · exact .inr ⟨h, by simp [h]⟩
  · exact .inl ⟨by omega, by simp [h]⟩

theorem aligned_cases (total : Nat) (s : State) :
    (total % s.blockBytes = 0 ∧ aligned total s = .ok s) ∨
    (total % s.blockBytes ≠ 0 ∧ aligned total s = .raised .lengthNotAligned (toWord total) s) := by
  unfold aligned
  by_cases h : total % s.blockBytes = 0
  · exact .inl ⟨h, by simp [h]⟩
  · exact .inr ⟨h, by simp [h]⟩

/-! ## Legal machines -/

theorem legal_iff (s : State) : s.legal = true ↔ s.params.wellFormed = true ∧ s.length ≤ s.bufBytes := by
  simp [State.legal]

theorem wellFormed_iff (p : Params) :
    p.wellFormed = true ↔
      1 ≤ p.blockWords ∧ p.blockWords ≤ 63 ∧ p.bufBytes % 4 = 0 ∧ 4 ≤ p.bufBytes ∧ p.bufBytes ≤ 2 ^ 24 := by
  simp [Params.wellFormed, and_assoc]

/-- B is a multiple of 4 from 4 to 252 (R5). -/
theorem legal_blockBytes {s : State} (h : s.legal = true) : 4 ≤ s.blockBytes ∧ s.blockBytes ≤ 252 := by
  have := (wellFormed_iff _).mp ((legal_iff s).mp h).1
  simp only [State.blockBytes]
  omega

theorem legal_bufBytes {s : State} (h : s.legal = true) : s.bufBytes ≤ 2 ^ 24 := by
  have := (wellFormed_iff _).mp ((legal_iff s).mp h).1
  simp only [State.bufBytes]
  omega

theorem legal_length {s : State} (h : s.legal = true) : s.length ≤ s.bufBytes := ((legal_iff s).mp h).2

theorem setLen_length (n : Nat) (s : State) (h : n < 2 ^ 32) : (s.setLen n).length = n := by
  simp only [State.length, setLen_len, toWord, BitVec.toNat_ofNat]
  exact Nat.mod_eq_of_lt h

theorem setLen_self (s : State) : s.setLen s.length = s := by
  simp [State.setLen, State.length, toWord]

theorem toByte_toNat {n : Nat} (h : n < 256) : (toByte n).toNat = n := by
  simp only [toByte, BitVec.toNat_ofNat]
  exact Nat.mod_eq_of_lt h

/-! ## Completion, issue, the skeleton -/

/-- A command ends in one of four ways. -/
theorem runCommand_cases (f : State → StageResult) (s : State) :
    (s.legal = false ∧ runCommand f s = .fault .outsideBuild) ∨
    (s.legal = true ∧
      ((∃ t, f s = .ok t ∧ runCommand f s = .next (completeOk t)) ∨
       (∃ e v t, f s = .raised e v t ∧ runCommand f s = .next (completeFault e v t)) ∨
       (f s = .waiting ∧ runCommand f s = .next s))) := by
  unfold runCommand
  cases s.legal
  · simp
  · cases f s <;> simp

theorem runCommand_ok {f : State → StageResult} {s t : State} (hl : s.legal = true) (h : f s = .ok t) :
    runCommand f s = .next (completeOk t) := by simp [runCommand, hl, h]

theorem runCommand_raised {f : State → StageResult} {s t : State} {e : Err} {v : Word} (hl : s.legal = true)
    (h : f s = .raised e v t) : runCommand f s = .next (completeFault e v t) := by simp [runCommand, hl, h]

theorem runCommand_waiting {f : State → StageResult} {s : State} (hl : s.legal = true) (h : f s = .waiting) :
    runCommand f s = .next s := by simp [runCommand, hl, h]

/-- Issue: an illegal word completes at once, a command makes the engine BUSY. -/
theorem issue_cases (w : Word) (s : State) :
    (isCommand (decode w) = true ∧ s.issue w = s.started w) ∨
    (isCommand (decode w) = false ∧ s.issue w = completeFault .illegalCommand w (s.accept w)) := by
  unfold State.issue
  cases decode w <;> simp [isCommand]

end Sys2Proof.Machine
end

