-- ==== Sys2Proof/Laws/Blocks.lean ====
section
/-! SUPPORT. What the ECB and CBC loops can do: that they end, and the block equations of what they leave in DATA. -/

namespace Sys2Proof.Machine

/-! ## Slices -/

theorem slice_length {v : List Byte} {a n : Nat} (h : a + n ≤ v.length) : (slice v a n).length = n := by
  simp [slice]; omega

theorem byteOf_slice {v : List Byte} {a n j : Nat} (hj : j < n) : byteOf (slice v a n) j = byteOf v (a + j) := by
  simp [slice, byteOf, hj, List.getElem?_drop]

theorem slice_append_left {v w : List Byte} {a n : Nat} (h : a + n ≤ v.length) : slice (v ++ w) a n = slice v a n := by
  apply eq_of_byteOf
  · rw [slice_length (by simp; omega), slice_length h]
  · intro j hj
    rw [slice_length (by simp; omega)] at hj
    rw [byteOf_slice hj, byteOf_slice hj, byteOf_append_left (by omega)]

theorem slice_append_right {v w : List Byte} {a n : Nat} (h : v.length ≤ a) :
    slice (v ++ w) a n = slice w (a - v.length) n := by
  simp only [slice]
  rw [List.drop_append, List.drop_eq_nil_of_le h, List.nil_append]

theorem slice_self {v : List Byte} {n : Nat} (h : v.length = n) : slice v 0 n = v := by
  simp [slice, ← h]

/-- The first block of a vector that begins with a whole block. -/
theorem slice_block_zero {y w : List Byte} {B : Nat} (hy : y.length = B) : slice (y ++ w) (0 * B) B = y := by
  rw [Nat.zero_mul, slice_append_left (by omega), slice_self hy]

/-- A later block of a vector that begins with a whole block. -/
theorem slice_block_succ {y w : List Byte} {B m : Nat} (hy : y.length = B) :
    slice (y ++ w) ((m + 1) * B) B = slice w (m * B) B := by
  rw [slice_append_right (by rw [hy, Nat.succ_mul]; omega), hy, Nat.succ_mul, Nat.add_sub_cancel]

theorem mul_block_lt {m n B : Nat} (h : m < n) : m * B + B ≤ n * B := by
  calc m * B + B = (m + 1) * B := (Nat.succ_mul m B).symm
    _ ≤ n * B := Nat.mul_le_mul_right B h

theorem slice_block_length {v : List Byte} {m n B : Nat} (hv : v.length = n * B) (h : m < n) :
    (slice v (m * B) B).length = B := slice_length (by rw [hv]; exact mul_block_lt h)

/-! ## What a run of blocks leaves -/

/-- A loop over blocks `k` to `k + n - 1` read `v` from them and left `w` in them, and moved nothing else of DATA and
nothing of LEN. -/
structure BlockRun (B n k : Nat) (s t : State) (v w : List Byte) : Prop where
  touch : Touch ((k + n) * B) s t
  len : t.len = s.len
  before_length : v.length = n * B
  after_length : w.length = n * B
  before : ∀ j, j < n * B → s.byteAt (k * B + j) = some (byteOf v j) ∨ s.byteAt (k * B + j) = none
  after : ∀ j, j < n * B → t.byteAt (k * B + j) = some (byteOf w j)
  below : ∀ i, i < k * B → t.byteAt i = s.byteAt i

theorem BlockRun.nil (B k : Nat) (s : State) : BlockRun B 0 k s s [] [] :=
  ⟨Touch.refl _ _, rfl, by simp, by simp, by simp, by simp, fun _ _ => rfl⟩

/-- One block, then the run of the others. -/
theorem BlockRun.cons {B n k : Nat} {s s' t : State} {x y v w : List Byte} (hx : x.length = B) (hy : y.length = B)
    (htouch : Touch ((k + 1) * B) s s') (hlen : s'.len = s.len)
    (hbefore : ∀ j, j < B → s.byteAt (k * B + j) = some (byteOf x j) ∨ s.byteAt (k * B + j) = none)
    (hafter : ∀ j, s'.byteAt j = if k * B ≤ j ∧ j < k * B + B then some (byteOf y (j - k * B)) else s.byteAt j)
    (h : BlockRun B n (k + 1) s' t v w) : BlockRun B (n + 1) k s t (x ++ v) (y ++ w) where
  touch := by
    have hle : (k + 1) * B ≤ (k + (n + 1)) * B := Nat.mul_le_mul_right B (by omega)
    have := h.touch
    rw [show k + 1 + n = k + (n + 1) by omega] at this
    exact (htouch.mono hle).trans this
  len := h.len.trans hlen
  before_length := by rw [List.length_append, hx, h.before_length, Nat.succ_mul]; omega
  after_length := by rw [List.length_append, hy, h.after_length, Nat.succ_mul]; omega
  before := by
    intro j hj
    by_cases hjB : j < B
    · rw [byteOf_append_left (by omega)]; exact hbefore j hjB
    · have := h.before (j - B) (by rw [Nat.succ_mul] at hj; omega)
      rw [Nat.succ_mul, hafter, if_neg (by omega), show k * B + B + (j - B) = k * B + j by omega] at this
      rwa [byteOf_append_right (by omega), hx]
  after := by
    intro j hj
    by_cases hjB : j < B
    · rw [h.below _ (by rw [Nat.succ_mul]; omega), hafter, if_pos (by omega), byteOf_append_left (by omega)]
      simp
    · have := h.after (j - B) (by rw [Nat.succ_mul] at hj; omega)
      rw [Nat.succ_mul, show k * B + B + (j - B) = k * B + j by omega] at this
      rwa [byteOf_append_right (by omega), hy]
  below := by
    intro i hi
    rw [h.below i (by rw [Nat.succ_mul]; omega), hafter, if_neg (by omega)]

/-- A block that is read and written in place: what a loop does between its read and its next round. -/
theorem block_step {B k : Nat} (s u : State) (y : List Byte) (hy : y.length = B) (ht : Touch 0 s u) (hlen : u.len = s.len) :
    Touch ((k + 1) * B) s (memWrite y (k * B) u) ∧ (memWrite y (k * B) u).len = s.len ∧
    ∀ j, (memWrite y (k * B) u).byteAt j =
      if k * B ≤ j ∧ j < k * B + B then some (byteOf y (j - k * B)) else s.byteAt j := by
  refine ⟨(ht.mono (by omega)).trans (touch_memWrite _ y _ u (by rw [hy, Nat.succ_mul])), by simpa using hlen, fun j => ?_⟩
  rw [byteAt_memWrite, hy]
  by_cases hj : k * B ≤ j ∧ j < k * B + B
  · rw [if_pos hj, if_pos hj]
  · rw [if_neg hj, if_neg hj]; exact ht.beyond j (by omega)

theorem touch_answer {s t : State} (h : t = s.setDraws t.draws) : Touch 0 s t ∧ t.len = s.len := by
  rw [h]; exact ⟨touch_setDraws 0 _ s, rfl⟩

/-- The read of block `k` in a loop. -/
theorem readBlock_spec (k : Nat) (s : State) :
    Touch 0 s (memRead s.blockBytes (k * s.blockBytes) (s.setIdx (k * s.blockBytes))).2 ∧
    (memRead s.blockBytes (k * s.blockBytes) (s.setIdx (k * s.blockBytes))).2.len = s.len ∧
    (memRead s.blockBytes (k * s.blockBytes) (s.setIdx (k * s.blockBytes))).2.work = s.work ∧
    (memRead s.blockBytes (k * s.blockBytes) (s.setIdx (k * s.blockBytes))).1.length = s.blockBytes ∧
    ∀ j, j < s.blockBytes →
      s.byteAt (k * s.blockBytes + j) =
        some (byteOf (memRead s.blockBytes (k * s.blockBytes) (s.setIdx (k * s.blockBytes))).1 j) ∨
      s.byteAt (k * s.blockBytes + j) = none := by
  obtain ⟨h1, h2, h3⟩ := memRead_spec s.blockBytes (k * s.blockBytes) (s.setIdx (k * s.blockBytes))
  refine ⟨(touch_setIdx 0 _ s).trans (touch_memRead 0 _ _ _), ?_, ?_, h1, by simpa using h2⟩
  · rw [h3]; rfl
  · rw [h3]; rfl

/-! ## ECB -/

/-- The FWD.ECB loop ends, where the cipher port answers. -/
theorem fwdEcbLoop_ends (c : Cipher) (n k : Nat) (s : State) (h : n = 0 ∨ s.cipherUp = true) :
    ∃ t, fwdEcbLoop c n k s = .ok t ∧ Touch ((k + n) * s.blockBytes) s t ∧ t.len = s.len := by
  induction n generalizing k s with
  | zero => exact ⟨s, rfl, Touch.refl _ _, rfl⟩
  | succ n ih =>
    obtain ⟨r1, r2, -, r4, -⟩ := readBlock_spec k s
    simp only [fwdEcbLoop]
    set r := memRead s.blockBytes (k * s.blockBytes) (s.setIdx (k * s.blockBytes))
    cases he : blockEncrypt c r.1 r.2 with
    | none =>
      have hu : s.cipherUp = true := h.resolve_left (by omega)
      rw [blockEncrypt_none, r1.cipherUp, hu] at he
      cases he
    | some p =>
      obtain ⟨y, u⟩ := p
      obtain ⟨e1, e2, e3⟩ := blockEncrypt_answered he
      obtain ⟨a1, a2⟩ := touch_answer e3
      obtain ⟨b1, b2, -⟩ := block_step (k := k) s u y (e2.trans r1.blockBytes) (r1.trans a1) (a2.trans r2)
      obtain ⟨t, k1, k2, k3⟩ := ih (k + 1) (memWrite y (k * s.blockBytes) u) (.inr (by rw [b1.cipherUp, ← r1.cipherUp, e1]))
      rw [b1.blockBytes, show k + 1 + n = k + (n + 1) by omega] at k2
      exact ⟨t, k1, (b1.mono (Nat.mul_le_mul_right _ (by omega))).trans k2, k3.trans b2⟩

/-- The INV.ECB loop ends, where the cipher port answers. -/
theorem invEcbLoop_ends (c : Cipher) (n k : Nat) (s : State) (h : n = 0 ∨ s.cipherUp = true) :
    ∃ t, invEcbLoop c n k s = .ok t ∧ Touch ((k + n) * s.blockBytes) s t ∧ t.len = s.len := by
  induction n generalizing k s with
  | zero => exact ⟨s, rfl, Touch.refl _ _, rfl⟩
  | succ n ih =>
    obtain ⟨r1, r2, -, r4, -⟩ := readBlock_spec k s
    simp only [invEcbLoop]
    set r := memRead s.blockBytes (k * s.blockBytes) (s.setIdx (k * s.blockBytes))
    cases he : blockDecrypt c r.1 r.2 with
    | none =>
      have hu : s.cipherUp = true := h.resolve_left (by omega)
      rw [blockDecrypt_none, r1.cipherUp, hu] at he
      cases he
    | some p =>
      obtain ⟨y, u⟩ := p
      obtain ⟨e1, e2, e3⟩ := blockDecrypt_answered he
      obtain ⟨a1, a2⟩ := touch_answer e3
      obtain ⟨b1, b2, -⟩ := block_step (k := k) s u y (e2.trans r1.blockBytes) (r1.trans a1) (a2.trans r2)
      obtain ⟨t, k1, k2, k3⟩ := ih (k + 1) (memWrite y (k * s.blockBytes) u) (.inr (by rw [b1.cipherUp, ← r1.cipherUp, e1]))
      rw [b1.blockBytes, show k + 1 + n = k + (n + 1) by omega] at k2
      exact ⟨t, k1, (b1.mono (Nat.mul_le_mul_right _ (by omega))).trans k2, k3.trans b2⟩

/-- The FWD.ECB loop, served: each block becomes `E` of what was read from it. -/
theorem fwdEcbLoop_served (c : Cipher) (n k : Nat) (s : State) (hu : n = 0 ∨ s.cipherUp = true) (hk : s.keyChanged = false) :
    ∃ t v w, fwdEcbLoop c n k s = .ok t ∧ BlockRun s.blockBytes n k s t v w ∧
      ∀ m, m < n → slice w (m * s.blockBytes) s.blockBytes =
        c.encBlock s.blockBytes s.key (slice v (m * s.blockBytes) s.blockBytes) := by
  induction n generalizing k s with
  | zero => exact ⟨s, [], [], rfl, BlockRun.nil _ _ _, by simp⟩
  | succ n ih =>
    have hu : s.cipherUp = true := hu.resolve_left (by omega)
    obtain ⟨r1, r2, -, r4, r5⟩ := readBlock_spec k s
    simp only [fwdEcbLoop]
    set r := memRead s.blockBytes (k * s.blockBytes) (s.setIdx (k * s.blockBytes))
    rw [blockEncrypt_served (by rw [r1.cipherUp, hu]) (by rw [r1.keyChanged, hk]), r1.blockBytes, r1.key]
    obtain ⟨b1, b2, b3⟩ := block_step (k := k) s r.2 (c.encBlock s.blockBytes s.key r.1) (encBlock_length _ _ _ _) r1 r2
    obtain ⟨t, v, w, k1, k2, k3⟩ := ih (k + 1) _ (.inr (by rw [b1.cipherUp, hu])) (by rw [b1.keyChanged, hk])
    rw [b1.blockBytes] at k2 k3
    rw [b1.key] at k3
    refine ⟨t, r.1 ++ v, c.encBlock s.blockBytes s.key r.1 ++ w, k1, BlockRun.cons r4 (encBlock_length _ _ _ _) b1 b2 r5 b3 k2, fun m hm => ?_⟩
    cases m with
    | zero => rw [slice_block_zero (by simp), slice_block_zero r4]
    | succ m => rw [slice_block_succ (by simp), slice_block_succ r4]; exact k3 m (by omega)

/-- The INV.ECB loop, served: each block becomes `D` of what was read from it. -/
theorem invEcbLoop_served (c : Cipher) (n k : Nat) (s : State) (hu : n = 0 ∨ s.cipherUp = true) (hk : s.keyChanged = false) :
    ∃ t v w, invEcbLoop c n k s = .ok t ∧ BlockRun s.blockBytes n k s t v w ∧
      ∀ m, m < n → slice w (m * s.blockBytes) s.blockBytes =
        c.decBlock s.blockBytes s.key (slice v (m * s.blockBytes) s.blockBytes) := by
  induction n generalizing k s with
  | zero => exact ⟨s, [], [], rfl, BlockRun.nil _ _ _, by simp⟩
  | succ n ih =>
    have hu : s.cipherUp = true := hu.resolve_left (by omega)
    obtain ⟨r1, r2, -, r4, r5⟩ := readBlock_spec k s
    simp only [invEcbLoop]
    set r := memRead s.blockBytes (k * s.blockBytes) (s.setIdx (k * s.blockBytes))
    rw [blockDecrypt_served (by rw [r1.cipherUp, hu]) (by rw [r1.keyChanged, hk]), r1.blockBytes, r1.key]
    obtain ⟨b1, b2, b3⟩ := block_step (k := k) s r.2 (c.decBlock s.blockBytes s.key r.1) (decBlock_length _ _ _ _) r1 r2
    obtain ⟨t, v, w, k1, k2, k3⟩ := ih (k + 1) _ (.inr (by rw [b1.cipherUp, hu])) (by rw [b1.keyChanged, hk])
    rw [b1.blockBytes] at k2 k3
    rw [b1.key] at k3
    refine ⟨t, r.1 ++ v, c.decBlock s.blockBytes s.key r.1 ++ w, k1, BlockRun.cons r4 (decBlock_length _ _ _ _) b1 b2 r5 b3 k2, fun m hm => ?_⟩
    cases m with
    | zero => rw [slice_block_zero (by simp), slice_block_zero r4]
    | succ m => rw [slice_block_succ (by simp), slice_block_succ r4]; exact k3 m (by omega)

/-! ## CBC -/

/-- The read of the XOR operand of FWD.CBC moves IDX and the draws only. -/
theorem cbcPrev_touch (k : Nat) (s : State) : Touch 0 s (cbcPrev k s).2 ∧ (cbcPrev k s).2.len = s.len := by
  unfold cbcPrev
  split
  · exact ⟨Touch.refl _ _, rfl⟩
  · refine ⟨touch_memRead 0 _ _ s, ?_⟩
    rw [(memRead_spec _ _ s).2.2]; rfl

/-- The XOR operand of FWD.CBC, where block k-1 is written. -/
theorem cbcPrev_written {k : Nat} {s : State} {p : List Byte} (h0 : k = 0 → p = s.iv)
    (h1 : 0 < k → p.length = s.blockBytes ∧ ∀ j, j < s.blockBytes → s.byteAt ((k - 1) * s.blockBytes + j) = some (byteOf p j)) :
    cbcPrev k s = (p, s) := by
  unfold cbcPrev
  by_cases hk : k = 0
  · simp [hk, h0 hk]
  · obtain ⟨h2, h3⟩ := h1 (by omega)
    rw [if_neg hk, ← h2]
    exact memRead_written p (by rw [h2]; exact h3)

/-- The FWD.CBC loop ends, where the cipher port answers. -/
theorem fwdCbcLoop_ends (c : Cipher) (n k : Nat) (s : State) (h : n = 0 ∨ s.cipherUp = true) :
    ∃ t, fwdCbcLoop c n k s = .ok t ∧ Touch ((k + n) * s.blockBytes) s t ∧ t.len = s.len := by
  induction n generalizing k s with
  | zero => exact ⟨s, rfl, Touch.refl _ _, rfl⟩
  | succ n ih =>
    simp only [fwdCbcLoop]
    obtain ⟨p1, p2⟩ := cbcPrev_touch k (s.setIdx (k * s.blockBytes))
    set p := cbcPrev k (s.setIdx (k * s.blockBytes))
    have r1 : Touch 0 s (memRead s.blockBytes (k * s.blockBytes) p.2).2 :=
      ((touch_setIdx 0 _ s).trans p1).trans (touch_memRead 0 _ _ _)
    have r2 : (memRead s.blockBytes (k * s.blockBytes) p.2).2.len = s.len := by
      rw [(memRead_spec _ _ p.2).2.2]; exact p2
    set r := memRead s.blockBytes (k * s.blockBytes) p.2
    cases he : blockEncrypt c (xorBytes r.1 p.1) r.2 with
    | none =>
      have hu : s.cipherUp = true := h.resolve_left (by omega)
      rw [blockEncrypt_none, r1.cipherUp, hu] at he
      cases he
    | some q =>
      obtain ⟨y, u⟩ := q
      obtain ⟨e1, e2, e3⟩ := blockEncrypt_answered he
      obtain ⟨a1, a2⟩ := touch_answer e3
      obtain ⟨b1, b2, -⟩ := block_step (k := k) s u y (e2.trans r1.blockBytes) (r1.trans a1) (a2.trans r2)
      obtain ⟨t, k1, k2, k3⟩ := ih (k + 1) (memWrite y (k * s.blockBytes) u) (.inr (by rw [b1.cipherUp, ← r1.cipherUp, e1]))
      rw [b1.blockBytes, show k + 1 + n = k + (n + 1) by omega] at k2
      exact ⟨t, k1, (b1.mono (Nat.mul_le_mul_right _ (by omega))).trans k2, k3.trans b2⟩

/-- The INV.CBC loop ends, where the cipher port answers. -/
theorem invCbcLoop_ends (c : Cipher) (n k : Nat) (s : State) (h : n = 0 ∨ s.cipherUp = true) :
    ∃ t, invCbcLoop c n k s = .ok t ∧ Touch ((k + n) * s.blockBytes) s t ∧ t.len = s.len := by
  induction n generalizing k s with
  | zero => exact ⟨s, rfl, Touch.refl _ _, rfl⟩
  | succ n ih =>
    simp only [invCbcLoop]
    obtain ⟨r1, r2, -, r4, -⟩ := readBlock_spec k s
    set r := memRead s.blockBytes (k * s.blockBytes) (s.setIdx (k * s.blockBytes))
    have q1 : Touch 0 s (r.2.setSave r.1) := r1.trans (touch_setSave 0 _ _)
    cases he : blockDecrypt c (r.2.setSave r.1).save (r.2.setSave r.1) with
    | none =>
      have hu : s.cipherUp = true := h.resolve_left (by omega)
      rw [blockDecrypt_none, q1.cipherUp, hu] at he
      cases he
    | some p =>
      obtain ⟨y, u⟩ := p
      obtain ⟨e1, e2, e3⟩ := blockDecrypt_answered he
      obtain ⟨a1, a2⟩ := touch_answer e3
      have hy : y.length = s.blockBytes := e2.trans q1.blockBytes
      obtain ⟨b1, b2, -⟩ := block_step (k := k) s u y hy (q1.trans a1) (a2.trans r2)
      simp only []
      obtain ⟨m1, -, m3⟩ := memRead_spec s.blockBytes (k * s.blockBytes) (memWrite y (k * s.blockBytes) u)
      set q := memRead s.blockBytes (k * s.blockBytes) (memWrite y (k * s.blockBytes) u)
      have c1 : Touch ((k + 1) * s.blockBytes) s q.2 := b1.trans (touch_memRead _ _ _ _)
      have c2 : q.2.len = s.len := by rw [m3]; exact b2
      have d1 : Touch ((k + 1) * s.blockBytes) s (memWrite (xorBytes q.1 q.2.work) (k * s.blockBytes) q.2) :=
        c1.trans (touch_memWrite _ _ _ _ (by rw [xorBytes_length, m1, Nat.succ_mul]; omega))
      set s3 := memWrite (xorBytes q.1 q.2.work) (k * s.blockBytes) q.2 with hs3
      have d2 : s3.len = s.len := by rw [hs3, memWrite_len]; exact c2
      have f1 : Touch ((k + 1) * s.blockBytes) s (s3.setWork s3.save) := d1.trans (touch_setWork _ _ _)
      obtain ⟨t, k1, k2, k3⟩ := ih (k + 1) (s3.setWork s3.save) (.inr (by rw [f1.cipherUp, ← q1.cipherUp, e1]))
      rw [f1.blockBytes, show k + 1 + n = k + (n + 1) by omega] at k2
      exact ⟨t, k1, (f1.mono (Nat.mul_le_mul_right _ (by omega))).trans k2, k3.trans d2⟩

/-- The FWD.CBC loop, served, from a block whose predecessor is `p`. -/
theorem fwdCbcLoop_served (c : Cipher) (n k : Nat) (s : State) (p : List Byte) (hu : n = 0 ∨ s.cipherUp = true)
    (hk : s.keyChanged = false) (h0 : k = 0 → p = s.iv)
    (h1 : 0 < k → p.length = s.blockBytes ∧ ∀ j, j < s.blockBytes → s.byteAt ((k - 1) * s.blockBytes + j) = some (byteOf p j)) :
    ∃ t v w, fwdCbcLoop c n k s = .ok t ∧ BlockRun s.blockBytes n k s t v w ∧
      ∀ m, m < n → slice w (m * s.blockBytes) s.blockBytes =
        c.encBlock s.blockBytes s.key (xorBytes (slice v (m * s.blockBytes) s.blockBytes)
          (if m = 0 then p else slice w ((m - 1) * s.blockBytes) s.blockBytes)) := by
  induction n generalizing k s p with
  | zero => exact ⟨s, [], [], rfl, BlockRun.nil _ _ _, by simp⟩
  | succ n ih =>
    have hu : s.cipherUp = true := hu.resolve_left (by omega)
    obtain ⟨r1, r2, -, r4, r5⟩ := readBlock_spec k s
    simp only [fwdCbcLoop]
    rw [cbcPrev_written (s := s.setIdx (k * s.blockBytes)) (p := p) (by simpa using h0) (by simpa using h1)]
    set r := memRead s.blockBytes (k * s.blockBytes) (s.setIdx (k * s.blockBytes))
    simp only []
    rw [blockEncrypt_served (by rw [r1.cipherUp, hu]) (by rw [r1.keyChanged, hk]), r1.blockBytes, r1.key]
    set y := c.encBlock s.blockBytes s.key (xorBytes r.1 p) with hy
    have hyl : y.length = s.blockBytes := by simp [hy]
    obtain ⟨b1, b2, b3⟩ := block_step (k := k) s r.2 y hyl r1 r2
    obtain ⟨t, v, w, k1, k2, k3⟩ := ih (k + 1) (memWrite y (k * s.blockBytes) r.2) y (.inr (by rw [b1.cipherUp, hu]))
      (by rw [b1.keyChanged, hk]) (by omega) (by
        intro _
        rw [b1.blockBytes]
        refine ⟨hyl, fun j hj => ?_⟩
        rw [Nat.add_sub_cancel, b3, if_pos (by omega)]; simp)
    rw [b1.blockBytes] at k2 k3
    rw [b1.key] at k3
    refine ⟨t, r.1 ++ v, y ++ w, k1, BlockRun.cons r4 hyl b1 b2 r5 b3 k2, fun m hm => ?_⟩
    cases m with
    | zero => rw [slice_block_zero hyl, slice_block_zero r4, if_pos rfl]
    | succ m =>
      rw [slice_block_succ hyl, slice_block_succ r4, k3 m (by omega), if_neg (Nat.succ_ne_zero m), Nat.add_sub_cancel]
      cases m with
      | zero => rw [if_pos rfl, slice_block_zero hyl]
      | succ m => rw [if_neg (Nat.succ_ne_zero m), Nat.add_sub_cancel, slice_block_succ hyl]

/-- The INV.CBC loop, served, from a block whose predecessor is in WORK. -/
theorem invCbcLoop_served (c : Cipher) (n k : Nat) (s : State) (hu : n = 0 ∨ s.cipherUp = true) (hk : s.keyChanged = false)
    (hw : s.work.length = s.blockBytes) :
    ∃ t v w, invCbcLoop c n k s = .ok t ∧ BlockRun s.blockBytes n k s t v w ∧
      ∀ m, m < n → slice w (m * s.blockBytes) s.blockBytes =
        xorBytes (c.decBlock s.blockBytes s.key (slice v (m * s.blockBytes) s.blockBytes))
          (if m = 0 then s.work else slice v ((m - 1) * s.blockBytes) s.blockBytes) := by
  induction n generalizing k s with
  | zero => exact ⟨s, [], [], rfl, BlockRun.nil _ _ _, by simp⟩
  | succ n ih =>
    have hu : s.cipherUp = true := hu.resolve_left (by omega)
    obtain ⟨r1, r2, r3, r4, r5⟩ := readBlock_spec k s
    simp only [invCbcLoop]
    set r := memRead s.blockBytes (k * s.blockBytes) (s.setIdx (k * s.blockBytes))
    have q1 : Touch 0 s (r.2.setSave r.1) := r1.trans (touch_setSave 0 _ _)
    rw [blockDecrypt_served (by rw [q1.cipherUp, hu]) (by rw [q1.keyChanged, hk]), q1.blockBytes, q1.key, setSave_save]
    simp only []
    set y := c.decBlock s.blockBytes s.key r.1 with hy
    have hyl : y.length = s.blockBytes := by simp [hy]
    obtain ⟨b1, b2, b3⟩ := block_step (k := k) s (r.2.setSave r.1) y hyl q1 r2
    have hread : memRead s.blockBytes (k * s.blockBytes) (memWrite y (k * s.blockBytes) (r.2.setSave r.1)) =
        (y, memWrite y (k * s.blockBytes) (r.2.setSave r.1)) := by
      rw [← hyl]
      refine memRead_written y fun j hj => ?_
      rw [hyl, b3, if_pos (by omega)]; simp
    rw [hread]
    simp only [memWrite_work, setSave_work, r3, memWrite_save, setSave_save]
    have hzl : (xorBytes y s.work).length = s.blockBytes := by simp [hyl, hw]
    set z := xorBytes y s.work with hz
    set s2 := memWrite y (k * s.blockBytes) (r.2.setSave r.1) with hs2
    have c1 : Touch ((k + 1) * s.blockBytes) s ((memWrite z (k * s.blockBytes) s2).setWork r.1) :=
      (b1.trans (touch_memWrite _ _ _ _ (by rw [hzl, Nat.succ_mul]))).trans (touch_setWork _ _ _)
    have c3 : ∀ j, ((memWrite z (k * s.blockBytes) s2).setWork r.1).byteAt j =
        if k * s.blockBytes ≤ j ∧ j < k * s.blockBytes + s.blockBytes then some (byteOf z (j - k * s.blockBytes))
        else s.byteAt j := by
      intro j
      rw [setWork_byteAt, byteAt_memWrite, hzl]
      by_cases hj : k * s.blockBytes ≤ j ∧ j < k * s.blockBytes + s.blockBytes
      · rw [if_pos hj, if_pos hj]
      · rw [if_neg hj, if_neg hj, b3, if_neg hj]
    have c2 : ((memWrite z (k * s.blockBytes) s2).setWork r.1).len = s.len := by simpa using b2
    obtain ⟨t, v, w, k1, k2, k3⟩ := ih (k + 1) ((memWrite z (k * s.blockBytes) s2).setWork r.1) (.inr (by rw [c1.cipherUp, hu]))
      (by rw [c1.keyChanged, hk]) (by rw [c1.blockBytes, setWork_work, r4])
    rw [c1.blockBytes] at k2 k3
    rw [c1.key, setWork_work] at k3
    refine ⟨t, r.1 ++ v, z ++ w, k1, BlockRun.cons r4 hzl c1 c2 r5 c3 k2, fun m hm => ?_⟩
    cases m with
    | zero => rw [slice_block_zero hzl, slice_block_zero r4, if_pos rfl]
    | succ m =>
      rw [slice_block_succ hzl, slice_block_succ r4, k3 m (by omega), if_neg (Nat.succ_ne_zero m), Nat.add_sub_cancel]
      cases m with
      | zero => rw [if_pos rfl, slice_block_zero r4]
      | succ m => rw [if_neg (Nat.succ_ne_zero m), Nat.add_sub_cancel, slice_block_succ r4]

/-! ## A silent cipher port -/

theorem fwdEcbLoop_silent (c : Cipher) (n k : Nat) (s : State) (h : s.cipherUp = false) :
    fwdEcbLoop c (n + 1) k s = .waiting := by
  obtain ⟨r1, -⟩ := readBlock_spec k s
  simp only [fwdEcbLoop]
  rw [blockEncrypt_silent (by rw [r1.cipherUp, h])]

theorem invEcbLoop_silent (c : Cipher) (n k : Nat) (s : State) (h : s.cipherUp = false) :
    invEcbLoop c (n + 1) k s = .waiting := by
  obtain ⟨r1, -⟩ := readBlock_spec k s
  simp only [invEcbLoop]
  rw [blockDecrypt_silent (by rw [r1.cipherUp, h])]

theorem fwdCbcLoop_silent (c : Cipher) (n k : Nat) (s : State) (h : s.cipherUp = false) :
    fwdCbcLoop c (n + 1) k s = .waiting := by
  have r1 := ((touch_setIdx 0 (k * s.blockBytes) s).trans (cbcPrev_touch k (s.setIdx (k * s.blockBytes))).1).trans
    (touch_memRead 0 s.blockBytes (k * s.blockBytes) _)
  simp only [fwdCbcLoop]
  rw [blockEncrypt_silent (by rw [r1.cipherUp, h])]

theorem invCbcLoop_silent (c : Cipher) (n k : Nat) (s : State) (h : s.cipherUp = false) :
    invCbcLoop c (n + 1) k s = .waiting := by
  obtain ⟨r1, -⟩ := readBlock_spec k s
  simp only [invCbcLoop]
  rw [blockDecrypt_silent (by rw [setSave_cipherUp, r1.cipherUp, h])]

end Sys2Proof.Machine
end

