-- ==== Sys2Proof/Laws/Padding.lean ====
section
/-! SUPPORT. What the pad and unpad stages can do: one lemma for each loop, then one for all pad stages and one for all
unpad stages, in the words of Safety.lean. -/

namespace Sys2Proof.Machine

/-! ## Lengths -/

theorem requiredPad_pos {B L : Nat} (hB : 0 < B) : 1 ≤ requiredPad B L := by
  have := Nat.mod_lt L hB; simp only [requiredPad]; omega

theorem requiredPad_le {B L : Nat} : requiredPad B L ≤ B := by simp only [requiredPad]; omega

theorem zeroPad_lt {B L : Nat} (hB : 0 < B) : zeroPad B L < B := Nat.mod_lt _ hB

theorem padCount_le {q : Scheme} {B L : Nat} (hB : 0 < B) : padCount q B L ≤ B := by
  have h1 := zeroPad_lt (L := L) hB
  have h2 := requiredPad_le (B := B) (L := L)
  cases q <;> simp only [padCount] <;> omega

/-- A pad stage appends as many bytes as R111 counts. -/
theorem PadTail.length {q : Scheme} {B L : Nat} {tail : List Byte} (hB : 0 < B) (h : PadTail q B L tail) :
    tail.length = padCount q B L := by
  have := requiredPad_pos (L := L) hB
  cases q <;> simp only [PadTail] at h
  case nopad => simp [h, padCount]
  case zero => simp [h, padCount]
  case iso7816 => simp [h, padCount]; omega
  case x923 => simp [h, padCount]; omega
  case iso10126 => obtain ⟨f, hf, rfl⟩ := h; simp [hf, padCount]; omega
  case pkcs7 => simp [h, padCount]

/-! ## Pad stages -/

/-- The fill loop: `n` bytes of one value from index `i` on. -/
theorem fill_spec (b : Byte) (n i : Nat) (s : State) :
    Touch (i + n) s (fill b n i s) ∧ (fill b n i s).len = s.len ∧ (fill b n i s).draws = s.draws ∧
    ∀ j, (fill b n i s).byteAt j = if i ≤ j ∧ j < i + n then some b else s.byteAt j := by
  induction n generalizing i s with
  | zero => refine ⟨Touch.refl _ _, rfl, rfl, fun j => ?_⟩; rw [if_neg (by omega)]; rfl
  | succ n ih =>
    obtain ⟨h1, h2, h3, h4⟩ := ih (i + 1) ((s.setIdx i).writeByte i b)
    refine ⟨?_, by simpa [fill] using h2, by simpa [fill] using h3, fun j => ?_⟩
    · rw [show i + (n + 1) = i + 1 + n by omega]
      exact ((touch_setIdx _ i s).trans (touch_writeByte _ i b _ (by omega))).trans h1
    · simp only [fill]
      rw [h4]
      by_cases hj : i = j
      · subst hj; rw [if_neg (by omega), if_pos (by omega)]; simp
      · by_cases hk : i + 1 ≤ j ∧ j < i + 1 + n
        · rw [if_pos hk, if_pos (by omega)]
        · rw [if_neg hk, if_neg (by omega)]; simp [hj]

/-- The random fill loop, with a random port that answers where it is asked: `n` draws from index `i` on. -/
theorem fillRandom_spec (n i : Nat) (s : State) (h : n = 0 ∨ s.randomUp = true) :
    ∃ t, fillRandom n i s = .ok t ∧ Touch (i + n) s t ∧ t.len = s.len ∧ t.draws = s.draws + n ∧
      ∀ j, t.byteAt j = if i ≤ j ∧ j < i + n then some (Config.draw (s.draws + (j - i))) else s.byteAt j := by
  induction n generalizing i s with
  | zero => refine ⟨s, rfl, Touch.refl _ _, rfl, rfl, fun j => ?_⟩; rw [if_neg (by omega)]
  | succ n ih =>
    have hu : s.randomUp = true := h.resolve_left (by omega)
    obtain ⟨t, e, h1, h2, h3, h4⟩ := ih (i + 1) (((s.setIdx i).setDraws (s.draws + 1)).writeByte i (Config.draw s.draws))
      (.inr (by simpa using hu))
    refine ⟨t, ?_, ?_, by simpa using h2, by simp at h3; omega, fun j => ?_⟩
    · simpa [fillRandom, randomByte, hu] using e
    · rw [show i + (n + 1) = i + 1 + n by omega]
      exact (((touch_setIdx _ i s).trans (touch_setDraws _ _ _)).trans (touch_writeByte _ i _ _ (by omega))).trans h1
    · rw [h4]
      by_cases hj : i = j
      · subst hj; rw [if_neg (by omega), if_pos (by omega)]; simp
      · by_cases hk : i + 1 ≤ j ∧ j < i + 1 + n
        · rw [if_pos hk, if_pos (by omega)]
          simp only [writeByte_draws, setDraws_draws]
          rw [show s.draws + 1 + (j - (i + 1)) = s.draws + (j - i) by omega]
        · rw [if_neg hk, if_neg (by omega)]; simp [hj]

/-- A silent random port is waited for, where a filler byte is asked of it. -/
theorem fillRandom_silent (n i : Nat) (s : State) (h : s.randomUp = false) : fillRandom (n + 1) i s = .waiting := by
  simp [fillRandom, randomByte, h]

/-- A pad stage that has room, and the random bytes it asks for: it appends its tail. The filler of ISO10126 is one draw
for each byte, in index order. -/
theorem padStage_ok (q : Scheme) (s : State) (hl : s.legal = true)
    (hc : s.length + padCount q s.blockBytes s.length ≤ s.bufBytes)
    (hr : q = .iso10126 → requiredPad s.blockBytes s.length = 1 ∨ s.randomUp = true) :
    ∃ t tail, padStage q s = .ok t ∧ PadTail q s.blockBytes s.length tail ∧ Appended s t tail ∧
      Touch (s.length + tail.length) s t ∧
      (q = .iso10126 → ∀ j, j + 1 < tail.length → byteOf tail j = Config.draw (s.draws + j)) := by
  have hB := legal_blockBytes hl
  have hbuf := legal_bufBytes hl
  have hN := requiredPad_pos (B := s.blockBytes) (L := s.length) (by omega)
  set B := s.blockBytes with hBdef
  set L := s.length with hLdef
  have hcap : ∀ k, L + k ≤ s.bufBytes → capacity (L + k) s = .ok s := fun k hk => by
    rcases capacity_cases (L + k) s with ⟨_, h⟩ | ⟨h, _⟩
    · exact h
    · omega
  cases q <;> simp only [padCount] at hc
  case nopad =>
    refine ⟨s, [], rfl, rfl, ⟨by simp, by simp, by simp⟩, Touch.refl _ _, by simp⟩
  case zero =>
    set z := zeroPad B L with hz
    obtain ⟨h1, h2, h3, h4⟩ := fill_spec 0x00 z L s
    refine ⟨(fill 0x00 z L s).setLen (L + z), List.replicate z 0x00, ?_, rfl, ⟨?_, ?_, ?_⟩, ?_, by simp⟩
    · simp [padStage, padZeroStage, ← hBdef, ← hLdef, ← hz, hcap z hc]
    · rw [setLen_length _ _ (by omega)]; simp [hLdef]
    · intro j hj
      simp only [List.length_replicate] at hj
      rw [setLen_byteAt, h4, if_pos (by omega), byteOf_replicate hj]
    · intro i hi
      simp only [List.length_replicate] at hi
      rw [setLen_byteAt, h4, if_neg (by omega)]
    · simpa using h1.trans (touch_setLen _ _ _)
  case iso7816 =>
    set N := requiredPad B L with hNdef
    obtain ⟨h1, h2, h3, h4⟩ := fill_spec 0x00 (N - 1) (L + 1) ((s.setIdx L).writeByte L 0x80)
    refine ⟨(fill 0x00 (N - 1) (L + 1) ((s.setIdx L).writeByte L 0x80)).setLen (L + N),
      0x80 :: List.replicate (N - 1) 0x00, ?_, rfl, ⟨?_, ?_, ?_⟩, ?_, by simp⟩
    rotate_left
    · rw [setLen_length _ _ (by omega)]; simp; omega
    · intro j hj
      simp only [List.length_cons, List.length_replicate] at hj
      rw [setLen_byteAt, h4]
      cases j with
      | zero => rw [if_neg (by omega)]; simp [hLdef]
      | succ j => rw [if_pos (by omega), byteOf_cons_succ, byteOf_replicate (by omega)]
    · intro i hi
      simp only [List.length_cons, List.length_replicate] at hi
      rw [setLen_byteAt, h4, if_neg (by omega), byteAt_writeByte, if_neg (by omega), setIdx_byteAt]
    · simp only [List.length_cons, List.length_replicate]
      refine Touch.trans ?_ (touch_setLen _ _ _)
      refine Touch.trans ((touch_setIdx _ L s).trans (touch_writeByte _ L 0x80 _ (by omega))) ?_
      exact h1.mono (by omega)
    · simp [padStage, padIso7816Stage, ← hBdef, ← hLdef, ← hNdef, hcap N hc]
  case x923 =>
    set N := requiredPad B L with hNdef
    obtain ⟨h1, h2, h3, h4⟩ := fill_spec 0x00 (N - 1) L s
    refine ⟨((((fill 0x00 (N - 1) L s).setIdx (L + N - 1)).writeByte (L + N - 1) (toByte N)).setLen (L + N)),
      List.replicate (N - 1) 0x00 ++ [toByte N], ?_, rfl, ⟨?_, ?_, ?_⟩, ?_, by simp⟩
    rotate_left
    · rw [setLen_length _ _ (by omega)]; simp; omega
    · intro j hj
      simp only [List.length_append, List.length_replicate, List.length_singleton] at hj
      rw [setLen_byteAt, byteAt_writeByte]
      by_cases hjn : j = N - 1
      · rw [if_pos (by omega), byteOf_append_right (by simp; omega)]; simp [hjn]
      · rw [if_neg (by omega), setIdx_byteAt, h4, if_pos (by omega), byteOf_append_left (by simp; omega),
          byteOf_replicate (by omega)]
    · intro i hi
      simp only [List.length_append, List.length_replicate, List.length_singleton] at hi
      rw [setLen_byteAt, byteAt_writeByte, if_neg (by omega), setIdx_byteAt, h4, if_neg (by omega)]
    · simp only [List.length_append, List.length_replicate, List.length_singleton]
      refine Touch.trans ?_ (touch_setLen _ _ _)
      refine Touch.trans ?_ (touch_writeByte _ _ _ _ (by omega))
      exact (h1.mono (by omega)).trans (touch_setIdx _ _ _)
    · simp [padStage, padX923Stage, ← hBdef, ← hLdef, ← hNdef, hcap N hc]
  case iso10126 =>
    set N := requiredPad B L with hNdef
    obtain ⟨t, e, h1, h2, h3, h4⟩ := fillRandom_spec (N - 1) L s
      (by rcases hr rfl with h | h <;> first | exact .inr h | exact .inl (by omega))
    refine ⟨((t.setIdx (L + N - 1)).writeByte (L + N - 1) (toByte N)).setLen (L + N),
      drawnBytes s.draws (N - 1) ++ [toByte N], ?_, ⟨_, by rw [drawnBytes_length, hNdef], rfl⟩, ⟨?_, ?_, ?_⟩, ?_, ?_⟩
    rotate_left
    · rw [setLen_length _ _ (by omega)]; simp; omega
    · intro j hj
      simp only [List.length_append, drawnBytes_length, List.length_singleton] at hj
      rw [setLen_byteAt, byteAt_writeByte]
      by_cases hjn : j = N - 1
      · rw [if_pos (by omega), byteOf_append_right (by simp; omega)]; simp [hjn]
      · rw [if_neg (by omega), setIdx_byteAt, h4, if_pos (by omega), byteOf_append_left (by simp; omega),
          byteOf_drawnBytes (by omega), show s.length + j - L = j by omega]
    · intro i hi
      simp only [List.length_append, drawnBytes_length, List.length_singleton] at hi
      rw [setLen_byteAt, byteAt_writeByte, if_neg (by omega), setIdx_byteAt, h4, if_neg (by omega)]
    · simp only [List.length_append, drawnBytes_length, List.length_singleton]
      refine Touch.trans ?_ (touch_setLen _ _ _)
      refine Touch.trans ?_ (touch_writeByte _ _ _ _ (by omega))
      exact (h1.mono (by omega)).trans (touch_setIdx _ _ _)
    · intro _ j hj
      simp only [List.length_append, drawnBytes_length, List.length_singleton] at hj
      rw [byteOf_append_left (by simp; omega), byteOf_drawnBytes (by omega)]
    · simp [padStage, padIso10126Stage, ← hBdef, ← hLdef, ← hNdef, hcap N hc, e]
  case pkcs7 =>
    set N := requiredPad B L with hNdef
    obtain ⟨h1, h2, h3, h4⟩ := fill_spec (toByte N) N L s
    refine ⟨(fill (toByte N) N L s).setLen (L + N), List.replicate N (toByte N), ?_, rfl, ⟨?_, ?_, ?_⟩, ?_, by simp⟩
    · simp [padStage, padPkcs7Stage, ← hBdef, ← hLdef, ← hNdef, hcap N hc]
    · rw [setLen_length _ _ (by omega)]; simp [hLdef]
    · intro j hj
      simp only [List.length_replicate] at hj
      rw [setLen_byteAt, h4, if_pos (by omega), byteOf_replicate hj]
    · intro i hi
      simp only [List.length_replicate] at hi
      rw [setLen_byteAt, h4, if_neg (by omega)]
    · simpa using h1.trans (touch_setLen _ _ _)

/-- A pad stage without room raises BufferOverflow before it touches anything (R111, R121). -/
theorem padStage_overflow (q : Scheme) (s : State) (hl : s.legal = true)
    (hc : s.bufBytes < s.length + padCount q s.blockBytes s.length) :
    padStage q s = .raised .bufferOverflow (toWord (s.length + padCount q s.blockBytes s.length)) s := by
  have hL := legal_length hl
  have hcap : ∀ k, s.bufBytes < s.length + k →
      capacity (s.length + k) s = .raised .bufferOverflow (toWord (s.length + k)) s := fun k hk => by
    rcases capacity_cases (s.length + k) s with ⟨h, _⟩ | ⟨_, h⟩
    · omega
    · exact h
  cases q <;> simp only [padCount] at hc ⊢
  case nopad => omega
  all_goals
    simp [padStage, padZeroStage, padIso7816Stage, padX923Stage, padIso10126Stage, padPkcs7Stage, hcap _ hc]

/-- A pad stage that has room waits only for a silent random port. -/
theorem padStage_waiting (s : State)
    (hc : s.length + requiredPad s.blockBytes s.length ≤ s.bufBytes)
    (hN : 2 ≤ requiredPad s.blockBytes s.length) (hr : s.randomUp = false) :
    padStage .iso10126 s = .waiting := by
  obtain ⟨k, hk⟩ : ∃ k, requiredPad s.blockBytes s.length = k + 2 := ⟨_, (Nat.sub_add_cancel hN).symm⟩
  rcases capacity_cases (s.length + requiredPad s.blockBytes s.length) s with ⟨_, h⟩ | ⟨h, _⟩
  · simp only [padStage, padIso10126Stage, h, andThen_ok]
    rw [hk, show k + 2 - 1 = k + 1 by omega, fillRandom_silent k s.length s hr]
    rfl
  · omega

/-! ## Unpad stages -/

/-- What reads of the first `n` bytes of DATA may return. -/
def Reads (s : State) (n : Nat) (v : List Byte) : Prop :=
  v.length = n ∧ ∀ i, i < n → s.byteAt i = some (byteOf v i) ∨ s.byteAt i = none

theorem exists_reads (s : State) (n : Nat) : ∃ v, Reads s n v := by
  refine ⟨(List.range n).map fun i => (s.byteAt i).getD 0, by simp, fun i hi => ?_⟩
  rw [byteOf_eq_getElem (by simpa using hi)]
  cases h : s.byteAt i <;> simp [h]

theorem Reads.snoc {s : State} {n : Nat} {v : List Byte} {b : Byte} (h : Reads s n v)
    (hb : s.byteAt n = some b ∨ s.byteAt n = none) : Reads s (n + 1) (v ++ [b]) := by
  refine ⟨by simp [h.1], fun i hi => ?_⟩
  by_cases hin : i < n
  · rw [byteOf_append_left (by rw [h.1]; exact hin)]; exact h.2 i hin
  · have : i = n := by omega
    subst this
    rw [byteOf_append_right (by rw [h.1])]
    simpa [h.1] using hb

theorem Reads.mono {s t : State} {n : Nat} {v : List Byte} (h : Reads s n v) (hs : ∀ i, t.byteAt i = s.byteAt i) :
    Reads t n v := ⟨h.1, fun i hi => by rw [hs]; exact h.2 i hi⟩

theorem AllAre.snoc {x b : Byte} {v : List Byte} {a n : Nat} (hv : v.length = n) (h : AllAre x v a n) (hb : b = x) :
    AllAre x (v ++ [b]) a (n + 1) := by
  intro i h1 h2
  by_cases hin : i < n
  · rw [byteOf_append_left (by omega)]; exact h i h1 hin
  · have : i = n := by omega
    subst this
    rw [byteOf_append_right (by omega)]; simp [hv, hb]

theorem byteOf_snoc {v : List Byte} {n : Nat} {b : Byte} (hv : v.length = n) : byteOf (v ++ [b]) n = b := by
  rw [byteOf_append_right (by omega)]; simp [hv]

/-- The read of one examined byte: it may return what is written, and the state moves in IDX and the draws only. -/
theorem examine_spec (i : Nat) (s : State) :
    (s.byteAt i = some ((s.setIdx i).readByte i).1 ∨ s.byteAt i = none) ∧
    Touch 0 s ((s.setIdx i).readByte i).2 ∧ ((s.setIdx i).readByte i).2.len = s.len ∧
    ∀ a, ((s.setIdx i).readByte i).2.byteAt a = s.byteAt a := by
  obtain ⟨h1, h2⟩ := readByte_spec i (s.setIdx i)
  refine ⟨by simpa using h1, (touch_setIdx _ _ _).trans (touch_readByte _ _ _), ?_, fun a => ?_⟩
  · rw [h2]; rfl
  · rw [h2]; rfl

/-- The loop of `unpad_ZERO`. -/
theorem stripZeros_spec (L : Nat) (s : State) (hL : L < 2 ^ 32) :
    Touch 0 s (stripZeros L s) ∧ (stripZeros L s).length ≤ L ∧
    ∃ v, Reads s L v ∧ AllAre 0x00 v (stripZeros L s).length L ∧
      (0 < (stripZeros L s).length → byteOf v ((stripZeros L s).length - 1) ≠ 0x00) := by
  induction L generalizing s with
  | zero =>
    have h0 : (s.setLen 0).length = 0 := setLen_length 0 s (by omega)
    refine ⟨touch_setLen _ _ _, by simp [stripZeros, h0], [], ⟨rfl, by omega⟩, ?_, ?_⟩
    · intro i h1 h2; omega
    · simp [stripZeros, h0]
  | succ L ih =>
    obtain ⟨h1, h2, h3, h4⟩ := examine_spec L s
    simp only [stripZeros]
    by_cases hb : ((s.setIdx L).readByte L).1 = 0x00
    · rw [if_pos hb]
      obtain ⟨k1, k2, v, k3, k4, k5⟩ := ih ((s.setIdx L).readByte L).2 (by omega)
      refine ⟨h2.trans k1, by omega, v ++ [0x00], ?_, ?_, ?_⟩
      · rw [hb] at h1
        exact (k3.mono fun i => (h4 i).symm).snoc h1
      · exact AllAre.snoc k3.1 k4 rfl
      · intro hpos
        rw [byteOf_append_left (by rw [k3.1]; omega)]
        exact k5 hpos
    · rw [if_neg hb]
      obtain ⟨v, hv⟩ := exists_reads s L
      have hl := setLen_length (L + 1) ((s.setIdx L).readByte L).2 hL
      refine ⟨h2.trans (touch_setLen _ _ _), by rw [hl], v ++ [((s.setIdx L).readByte L).1], hv.snoc h1, ?_, ?_⟩
      · rw [hl]; intro i h5 h6; omega
      · intro _
        rw [hl, Nat.add_sub_cancel, byteOf_snoc hv.1]
        exact hb

/-- The scan of `unpad_ISO7816`. -/
theorem isoScan_spec (m i : Nat) (s : State) (hm : m ≤ i) (hi : i < 2 ^ 32) :
    (isoScan m i s).All
      (fun t => Touch 0 s t ∧ ∃ v, Reads s i v ∧ t.length < i ∧ i - t.length ≤ m ∧ byteOf v t.length = 0x80 ∧
        AllAre 0x00 v (t.length + 1) i)
      (fun e w t => Touch 0 s t ∧ t.len = s.len ∧ ∃ v j, Reads s i v ∧ w = toWord j ∧
        ((j < i ∧ i - j ≤ m ∧ byteOf v j ≠ 0x80 ∧ byteOf v j ≠ 0x00 ∧ AllAre 0x00 v (j + 1) i ∧ e = .paddingByteMismatch) ∨
         (j = i - m ∧ AllAre 0x00 v j i ∧ e = .paddingNotFound)))
      False := by
  induction m generalizing i s with
  | zero =>
    obtain ⟨v, hv⟩ := exists_reads s i
    exact ⟨Touch.refl _ _, rfl, v, i, hv, rfl, .inr ⟨by omega, fun j h1 h2 => by omega, rfl⟩⟩
  | succ m ih =>
    obtain ⟨i, rfl⟩ : ∃ k, i = k + 1 := ⟨i - 1, by omega⟩
    obtain ⟨h1, h2, h3, h4⟩ := examine_spec i s
    simp only [isoScan, Nat.add_sub_cancel]
    by_cases ha : ((s.setIdx i).readByte i).1 = 0x80
    · rw [if_pos ha]
      obtain ⟨v, hv⟩ := exists_reads s i
      have hl := setLen_length i ((s.setIdx i).readByte i).2 (by omega)
      refine ⟨h2.trans (touch_setLen _ _ _), v ++ [((s.setIdx i).readByte i).1], hv.snoc h1, ?_, ?_, ?_, ?_⟩
      · rw [hl]; omega
      · rw [hl]; omega
      · rw [hl, byteOf_snoc hv.1]; exact ha
      · rw [hl]; intro j h5 h6; omega
    · rw [if_neg ha]
      by_cases hz : ((s.setIdx i).readByte i).1 = 0x00
      · rw [if_neg (by simpa using hz)]
        refine (ih i ((s.setIdx i).readByte i).2 (by omega) (by omega)).imp ?_ ?_ id
        · rintro t ⟨k1, v, k2, k3, k4, k5, k6⟩
          refine ⟨h2.trans k1, v ++ [0x00], ?_, by omega, by omega, ?_, AllAre.snoc k2.1 k6 rfl⟩
          · exact (k2.mono fun a => (h4 a).symm).snoc (hz ▸ h1)
          · rw [byteOf_append_left (by rw [k2.1]; omega)]; exact k5
        · rintro e w t ⟨k1, k2, v, j, k3, k4, k5⟩
          refine ⟨h2.trans k1, k2.trans h3, v ++ [0x00], j, ?_, k4, ?_⟩
          · exact (k3.mono fun a => (h4 a).symm).snoc (hz ▸ h1)
          · rcases k5 with ⟨a1, a2, a3, a4, a5, a6⟩ | ⟨a1, a2, a3⟩
            · refine .inl ⟨by omega, by omega, ?_, ?_, AllAre.snoc k3.1 a5 rfl, a6⟩
              · rw [byteOf_append_left (by rw [k3.1]; omega)]; exact a3
              · rw [byteOf_append_left (by rw [k3.1]; omega)]; exact a4
            · exact .inr ⟨by omega, AllAre.snoc k3.1 a2 rfl, a3⟩
      · rw [if_pos hz]
        obtain ⟨v, hv⟩ := exists_reads s i
        refine ⟨h2, h3, v ++ [((s.setIdx i).readByte i).1], i, hv.snoc h1, rfl, .inl ⟨by omega, by omega, ?_, ?_, ?_, rfl⟩⟩
        · rw [byteOf_snoc hv.1]; exact ha
        · rw [byteOf_snoc hv.1]; exact hz
        · intro j h5 h6; omega

/-- The filler check, from index `i` downward over `n` bytes. -/
theorem checkFiller_spec (b : Byte) (n i : Nat) (s : State) (hn : n ≤ i + 1) :
    (checkFiller b n i s).All
      (fun t => Touch 0 s t ∧ t.len = s.len ∧ ∃ v, Reads s (i + 1) v ∧ AllAre b v (i + 1 - n) (i + 1))
      (fun e w t => Touch 0 s t ∧ t.len = s.len ∧ ∃ v j, Reads s (i + 1) v ∧ w = toWord j ∧ i + 1 - n ≤ j ∧ j < i + 1 ∧
        byteOf v j ≠ b ∧ AllAre b v (j + 1) (i + 1) ∧ e = .paddingByteMismatch)
      False := by
  induction n generalizing i s with
  | zero =>
    obtain ⟨v, hv⟩ := exists_reads s (i + 1)
    exact ⟨Touch.refl _ _, rfl, v, hv, fun j h1 h2 => by omega⟩
  | succ n ih =>
    obtain ⟨h1, h2, h3, h4⟩ := examine_spec i s
    simp only [checkFiller]
    by_cases hb : ((s.setIdx i).readByte i).1 = b
    · rw [if_neg (by simpa using hb)]
      cases i with
      | zero =>
        have hn0 : n = 0 := by omega
        subst hn0
        refine ⟨h2, h3, [b], ⟨rfl, fun j hj => ?_⟩, fun j h5 h6 => ?_⟩
        · have : j = 0 := by omega
          subst this; rw [hb] at h1; simpa using h1
        · have : j = 0 := by omega
          subst this; rfl
      | succ i =>
        refine (ih i ((s.setIdx (i + 1)).readByte (i + 1)).2 (by omega)).imp ?_ ?_ id
        · rintro t ⟨k1, k2, v, k3, k4⟩
          refine ⟨h2.trans k1, k2.trans h3, v ++ [b], (k3.mono fun a => (h4 a).symm).snoc (hb ▸ h1), ?_⟩
          rw [show i + 1 + 1 - (n + 1) = i + 1 - n by omega]
          exact AllAre.snoc k3.1 k4 rfl
        · rintro e w t ⟨k1, k2, v, j, k3, k4, k5, k6, k7, k8, k9⟩
          refine ⟨h2.trans k1, k2.trans h3, v ++ [b], j, (k3.mono fun a => (h4 a).symm).snoc (hb ▸ h1), k4, by omega, by omega, ?_,
            AllAre.snoc k3.1 k8 rfl, k9⟩
          rw [byteOf_append_left (by rw [k3.1]; omega)]; exact k7
    · rw [if_pos hb]
      obtain ⟨v, hv⟩ := exists_reads s i
      refine ⟨h2, h3, v ++ [((s.setIdx i).readByte i).1], i, hv.snoc h1, rfl, by omega, by omega, ?_, ?_, rfl⟩
      · rw [byteOf_snoc hv.1]; exact hb
      · intro j h5 h6; omega

theorem lastByte_snoc (v : List Byte) (b : Byte) : lastByte (v ++ [b]) = b.toNat := by
  simp [lastByte, byteOf_snoc rfl]

/-- `decode_len()` then a rest of the stage: the rest runs on a legal length byte `N`, LEN unchanged; else it raises as R112
says. -/
theorem decodeLen_spec (s : State) (rest : Nat → State → StageResult) {P : State → Prop} {Q : Err → Word → State → Prop}
    (hrest : ∀ b t, s.byteAt (s.length - 1) = some b ∨ s.byteAt (s.length - 1) = none → Touch 0 s t → t.len = s.len →
      (∀ a, t.byteAt a = s.byteAt a) → 0 < s.length → 1 ≤ b.toNat → b.toNat ≤ s.blockBytes → b.toNat ≤ s.length →
      (rest b.toNat t).All P Q False)
    (hfail : ∀ v e j t, Reads s s.length v → LengthByteFails s.blockBytes v e j → Touch 0 s t → t.len = s.len →
      Q e (toWord j) t) :
    (decodeLen s rest).All P Q False := by
  obtain ⟨h1, h2, h3, h4⟩ := examine_spec (s.length - 1) s
  unfold decodeLen
  by_cases hL : s.length = 0
  · simp only [hL, if_true]
    exact hfail [] _ 0 s ⟨by simp [hL], by omega⟩ (.inl ⟨rfl, rfl, rfl⟩) (Touch.refl _ _) rfl
  · simp only [hL, if_false]
    obtain ⟨v, hv⟩ := exists_reads s (s.length - 1)
    set b := ((s.setIdx (s.length - 1)).readByte (s.length - 1)).1 with hbdef
    have hv' : Reads s s.length (v ++ [b]) := by
      have := hv.snoc h1
      rwa [Nat.sub_add_cancel (by omega)] at this
    have hlast : lastByte (v ++ [b]) = b.toNat := lastByte_snoc v b
    have hpos : 0 < (v ++ [b]).length := by simp
    by_cases hN0 : b.toNat = 0
    · rw [if_pos hN0]
      exact hfail _ _ _ _ hv' (.inr (.inl ⟨hpos, by omega, rfl, by rw [hv'.1]⟩)) h2 h3
    · rw [if_neg hN0]
      by_cases hNB : s.blockBytes < b.toNat
      · rw [if_pos hNB]
        exact hfail _ _ _ _ hv' (.inr (.inr ⟨hpos, .inl (by omega), rfl, by rw [hv'.1]⟩)) h2 h3
      · rw [if_neg hNB]
        by_cases hNL : s.length < b.toNat
        · rw [if_pos hNL]
          exact hfail _ _ _ _ hv' (.inr (.inr ⟨hpos, .inr (by rw [hv'.1]; omega), rfl, by rw [hv'.1]⟩)) h2 h3
        · rw [if_neg hNL]
          exact hrest b _ h1 h2 h3 h4 (by omega) (by omega) (by omega) (by omega)

/-- Every unpad stage, on every buffer: for some bytes that reads of the buffer may return, it succeeds and leaves the
length, or raises, as the rules say; DATA is as it was. -/
theorem unpadStage_spec (q : Scheme) (s : State) :
    (unpadStage q s).All
      (fun t => Touch 0 s t ∧ ∃ v, s.mayHold v ∧ Unpads q s.blockBytes v t.length)
      (fun e w t => Touch 0 s t ∧ t.len = s.len ∧ ∃ v j, s.mayHold v ∧ w = toWord j ∧ UnpadFails q s.blockBytes v e j)
      False := by
  have hL32 : s.length < 2 ^ 32 := s.len.isLt
  have hfill : ∀ (x : Nat → Byte) (q' : Scheme),
      (∀ v n, Unpads q' s.blockBytes v n ↔
        LengthByteOk s.blockBytes v ∧ n = v.length - lastByte v ∧ AllAre (x (lastByte v)) v n (v.length - 1)) →
      (∀ v e j, UnpadFails q' s.blockBytes v e j ↔
        LengthByteFails s.blockBytes v e j ∨ FillerFails (x (lastByte v)) s.blockBytes v e j) →
      (decodeLen s fun N s' =>
          (checkFiller (x N) (N - 1) (s.length - 2) s').andThen fun s' => .ok (s'.setLen (s.length - N))).All
        (fun t => Touch 0 s t ∧ ∃ v, s.mayHold v ∧ Unpads q' s.blockBytes v t.length)
        (fun e w t => Touch 0 s t ∧ t.len = s.len ∧ ∃ v j, s.mayHold v ∧ w = toWord j ∧ UnpadFails q' s.blockBytes v e j)
        False := by
    intro x q' hU hF
    refine decodeLen_spec s _ ?_ ?_
    · intro b t hb h2 h3 h4 hL h5 h6 h7
      by_cases hN1 : b.toNat = 1
      · obtain ⟨v, hv⟩ := exists_reads s (s.length - 1)
        have hv' : s.mayHold (v ++ [b]) := by
          have := hv.snoc hb
          rwa [Nat.sub_add_cancel (by omega)] at this
        have hl := setLen_length (s.length - b.toNat) t (by omega)
        simp only [hN1, Nat.sub_self, checkFiller, andThen_ok] at hl ⊢
        refine ⟨h2.trans (touch_setLen _ _ _), v ++ [b], hv', (hU _ _).mpr ⟨⟨by simp, ?_, ?_, ?_⟩, ?_, ?_⟩⟩
        · rw [lastByte_snoc]; omega
        · rw [lastByte_snoc]; omega
        · rw [lastByte_snoc, hv'.1]; omega
        · rw [lastByte_snoc, hl, hv'.1, hN1]
        · rw [hl, hv'.1]; intro i a1 a2; omega
      · have hc := checkFiller_spec (x b.toNat) (b.toNat - 1) (s.length - 2) t (by omega)
        rw [show s.length - 2 + 1 = s.length - 1 by omega] at hc
        refine StageResult.All.andThen (P := fun u => Touch 0 t u ∧ u.len = t.len ∧ ∃ v, Reads t (s.length - 1) v ∧
          AllAre (x b.toNat) v (s.length - b.toNat) (s.length - 1)) (hc.imp ?_ ?_ id) ?_
        · rintro u ⟨k1, k2, v, k3, k4⟩
          rw [show s.length - 1 - (b.toNat - 1) = s.length - b.toNat by omega] at k4
          exact ⟨k1, k2, v, k3, k4⟩
        · rintro e w u ⟨k1, k2, v, j, k3, k4, k5, k6, k7, k8, k9⟩
          have hv' : s.mayHold (v ++ [b]) := by
            have := (k3.mono fun a => (h4 a).symm).snoc hb
            rwa [Nat.sub_add_cancel (by omega)] at this
          refine ⟨h2.trans k1, k2.trans h3, v ++ [b], j, hv', k4, (hF _ _ _).mpr (.inr ⟨⟨by simp, ?_, ?_, ?_⟩, ?_, ?_, ?_, ?_, k9⟩)⟩
          · rw [lastByte_snoc]; omega
          · rw [lastByte_snoc]; omega
          · rw [lastByte_snoc, hv'.1]; omega
          · rw [lastByte_snoc, hv'.1]; omega
          · rw [hv'.1]; omega
          · rw [lastByte_snoc, byteOf_append_left (by rw [k3.1]; omega)]; exact k7
          · rw [lastByte_snoc, hv'.1]
            intro a a1 a2
            rw [byteOf_append_left (by rw [k3.1]; omega)]; exact k8 a a1 (by omega)
        · rintro u ⟨k1, k2, v, k3, k4⟩
          have hv' : s.mayHold (v ++ [b]) := by
            have := (k3.mono fun a => (h4 a).symm).snoc hb
            rwa [Nat.sub_add_cancel (by omega)] at this
          have hl := setLen_length (s.length - b.toNat) u (by omega)
          refine ⟨(h2.trans k1).trans (touch_setLen _ _ _), v ++ [b], hv', (hU _ _).mpr ⟨⟨by simp, ?_, ?_, ?_⟩, ?_, ?_⟩⟩
          · rw [lastByte_snoc]; omega
          · rw [lastByte_snoc]; omega
          · rw [lastByte_snoc, hv'.1]; omega
          · rw [lastByte_snoc, hl, hv'.1]
          · rw [hl, lastByte_snoc, hv'.1]
            intro a a1 a2
            rw [byteOf_append_left (by rw [k3.1]; omega)]; exact k4 a a1 a2
    · intro v e j t h1 h2 h3 h4
      exact ⟨h3, h4, v, j, h1, rfl, (hF _ _ _).mpr (.inl h2)⟩
  cases q
  case nopad =>
    obtain ⟨v, hv⟩ := exists_reads s s.length
    exact ⟨Touch.refl _ _, v, hv, hv.1.symm⟩
  case zero =>
    obtain ⟨h1, h2, v, h3, h4, h5⟩ := stripZeros_spec s.length s hL32
    exact ⟨h1, v, h3, by rw [h3.1]; exact h2, by rw [h3.1]; exact h4, h5⟩
  case iso7816 =>
    refine (isoScan_spec (min s.length s.blockBytes) s.length s (by omega) hL32).imp ?_ ?_ id
    · rintro t ⟨h1, v, h2, h3, h4, h5, h6⟩
      exact ⟨h1, v, h2, by rw [h2.1]; exact h3, by rw [h2.1]; omega, h5, by rw [h2.1]; exact h6⟩
    · rintro e w t ⟨h1, h2, v, j, h3, h4, h5⟩
      refine ⟨h1, h2, v, j, h3, h4, ?_⟩
      simp only [UnpadFails, h3.1]
      rcases h5 with ⟨a1, a2, a3, a4, a5, a6⟩ | ⟨a1, a2, a3⟩
      · exact .inl ⟨a1, by omega, a3, a4, a5, a6⟩
      · exact .inr ⟨a1, a2, a3⟩
  case x923 => exact hfill (fun _ => 0x00) .x923 (fun _ _ => Iff.rfl) fun _ _ _ => Iff.rfl
  case iso10126 =>
    refine decodeLen_spec s (fun N s' => .ok (s'.setLen (s.length - N))) ?_ ?_
    · intro b t hb h2 h3 h4 hL h5 h6 h7
      obtain ⟨v, hv⟩ := exists_reads s (s.length - 1)
      have hv' : s.mayHold (v ++ [b]) := by
        have := hv.snoc hb
        rwa [Nat.sub_add_cancel (by omega)] at this
      have hl := setLen_length (s.length - b.toNat) t (by omega)
      refine ⟨h2.trans (touch_setLen _ _ _), v ++ [b], hv', ⟨by simp, ?_, ?_, ?_⟩, ?_⟩
      · rw [lastByte_snoc]; omega
      · rw [lastByte_snoc]; omega
      · rw [lastByte_snoc, hv'.1]; omega
      · rw [lastByte_snoc, hl, hv'.1]
    · intro v e j t h1 h2 h3 h4
      exact ⟨h3, h4, v, j, h1, rfl, h2⟩
  case pkcs7 => exact hfill toByte .pkcs7 (fun _ _ => Iff.rfl) fun _ _ _ => Iff.rfl

end Sys2Proof.Machine
end

