-- ==== Sys2Proof/Laws/Streams.lean ====
section
/-! SUPPORT. What the CFB, OFB and CTR loops can do: that they end, and the byte equations of what they leave in DATA. -/

namespace Sys2Proof.Machine

/-! ## What a run of bytes leaves -/

/-- A loop over bytes `i` to `i + n - 1` read `v` from them and left `w` in them, and moved nothing else of DATA and
nothing of LEN. -/
structure ByteRun (n i : Nat) (s t : State) (v w : List Byte) : Prop where
  touch : Touch (i + n) s t
  len : t.len = s.len
  before_length : v.length = n
  after_length : w.length = n
  before : ∀ j, j < n → s.byteAt (i + j) = some (byteOf v j) ∨ s.byteAt (i + j) = none
  after : ∀ j, j < n → t.byteAt (i + j) = some (byteOf w j)
  below : ∀ j, j < i → t.byteAt j = s.byteAt j

theorem ByteRun.nil (i : Nat) (s : State) : ByteRun 0 i s s [] [] :=
  ⟨Touch.refl _ _, rfl, rfl, rfl, by simp, by simp, fun _ _ => rfl⟩

/-- One run, then another. -/
theorem ByteRun.append {n n' i : Nat} {s s' t : State} {v v' w w' : List Byte} (h : ByteRun n i s s' v w)
    (h' : ByteRun n' (i + n) s' t v' w') : ByteRun (n + n') i s t (v ++ v') (w ++ w') where
  touch := by
    have := h'.touch
    rw [Nat.add_assoc] at this
    exact (h.touch.mono (by omega)).trans this
  len := h'.len.trans h.len
  before_length := by simp [h.before_length, h'.before_length]
  after_length := by simp [h.after_length, h'.after_length]
  before := by
    intro j hj
    by_cases hjn : j < n
    · rw [byteOf_append_left (by rw [h.before_length]; exact hjn)]; exact h.before j hjn
    · have := h'.before (j - n) (by omega)
      rw [h.touch.beyond _ (by omega), show i + n + (j - n) = i + j by omega] at this
      rwa [byteOf_append_right (by rw [h.before_length]; omega), h.before_length]
  after := by
    intro j hj
    by_cases hjn : j < n
    · rw [h'.below _ (by omega), byteOf_append_left (by rw [h.after_length]; exact hjn)]; exact h.after j hjn
    · have := h'.after (j - n) (by omega)
      rw [show i + n + (j - n) = i + j by omega] at this
      rwa [byteOf_append_right (by rw [h.after_length]; omega), h.after_length]
  below := fun j hj => (h'.below j (by omega)).trans (h.below j hj)

/-- One byte read and written. -/
theorem byte_run {i : Nat} (s u : State) (x y : Byte) (hx : s.byteAt i = some x ∨ s.byteAt i = none) (ht : Touch 0 s u)
    (hlen : u.len = s.len) : ByteRun 1 i s (u.writeByte i y) [x] [y] where
  touch := (ht.mono (by omega)).trans (touch_writeByte _ i y u (by omega))
  len := hlen
  before_length := rfl
  after_length := rfl
  before := by
    intro j hj
    have : j = 0 := by omega
    subst this; simpa using hx
  after := by
    intro j hj
    have : j = 0 := by omega
    subst this; simp
  below := fun j hj => by rw [byteAt_writeByte, if_neg (by omega)]; exact ht.beyond j (by omega)

/-- A register write after a run. -/
theorem ByteRun.setWork {n i : Nat} {s t : State} {v w : List Byte} (h : ByteRun n i s t v w) (x : List Byte) :
    ByteRun n i s (t.setWork x) v w :=
  { h with touch := h.touch.trans (touch_setWork _ x t), after := h.after, below := h.below, len := h.len }

/-- A register write before a run. -/
theorem ByteRun.before_touch {n i : Nat} {s u t : State} {v w : List Byte} (h : ByteRun n i u t v w) (ht : Touch 0 s u)
    (hlen : u.len = s.len) : ByteRun n i s t v w where
  touch := (ht.mono (by omega)).trans h.touch
  len := h.len.trans hlen
  before_length := h.before_length
  after_length := h.after_length
  before := fun j hj => by rw [← ht.beyond _ (by omega)]; exact h.before j hj
  after := h.after
  below := fun j hj => (h.below j hj).trans (ht.beyond j (by omega))

theorem div_mod_of {B i q r : Nat} (hr : r < B) (h : i = q * B + r) : i / B = q ∧ i % B = r := by
  subst h
  rw [Nat.mul_comm]
  exact (Nat.div_mod_unique (by omega)).mpr ⟨Nat.add_comm _ _, hr⟩

/-- The quotient and the remainder of the next index. -/
theorem succ_div_mod {B i : Nat} (hB : 0 < B) :
    (i % B + 1 < B ∧ (i + 1) % B = i % B + 1 ∧ (i + 1) / B = i / B) ∨
    (i % B + 1 = B ∧ (i + 1) % B = 0 ∧ (i + 1) / B = i / B + 1) := by
  have hr := Nat.mod_lt i hB
  have hi := Nat.div_add_mod i B
  rw [Nat.mul_comm] at hi
  by_cases h : i % B + 1 < B
  · obtain ⟨h1, h2⟩ := div_mod_of (q := i / B) (i := i + 1) h (by omega)
    exact .inl ⟨h, h2, h1⟩
  · obtain ⟨h1, h2⟩ := div_mod_of (q := i / B + 1) (i := i + 1) (r := 0) hB (by rw [Nat.succ_mul]; omega)
    exact .inr ⟨by omega, h2, h1⟩

/-! ## The refresh of the keystream -/

/-- The refresh, where the cipher port answers. -/
theorem refresh_ends (c : Cipher) (i : Nat) (s : State) (h : s.cipherUp = true) :
    ∃ t, refresh c i s = some t ∧ Touch 0 s t ∧ t.len = s.len := by
  unfold refresh
  split
  · cases he : blockEncrypt c s.work s with
    | none => rw [blockEncrypt_none, h] at he; cases he
    | some p =>
      obtain ⟨y, u⟩ := p
      obtain ⟨a1, a2⟩ := touch_answer (blockEncrypt_answered he).2.2
      exact ⟨u.setWork y, rfl, a1.trans (touch_setWork 0 y u), a2⟩
  · exact ⟨s, rfl, Touch.refl _ _, rfl⟩

/-- The refresh, served. -/
theorem refresh_served (c : Cipher) (i : Nat) (s : State) (hu : s.cipherUp = true) (hk : s.keyChanged = false) :
    refresh c i s = some (if i % s.blockBytes = 0 then s.setWork (c.encBlock s.blockBytes s.key s.work) else s) := by
  unfold refresh
  rw [blockEncrypt_served hu hk]
  split <;> rfl

theorem refresh_silent (c : Cipher) (s : State) (h : s.cipherUp = false) : refresh c 0 s = none := by
  simp [refresh, blockEncrypt_silent h]

/-! ## CFB -/

/-- The block whose encryption is the keystream for byte `i`, where `h` is the ciphertext: the IV, or the whole ciphertext
block before (R202). -/
def cfbPrev (iv h : List Byte) (B i : Nat) : List Byte := if i / B = 0 then iv else slice h ((i / B - 1) * B) B

/-- What WORK holds before byte `i` of a CFB run, where `h` is the ciphertext so far. -/
structure CfbWork (E : List Byte → List Byte) (B : Nat) (iv h : List Byte) (i : Nat) (W : List Byte) : Prop where
  length : h.length = i
  fresh : i % B = 0 → W = cfbPrev iv h B i
  mid : i % B ≠ 0 → W.length = B ∧ (∀ j, j < i % B → byteOf W j = byteOf h (i / B * B + j)) ∧
    ∀ j, i % B ≤ j → j < B → byteOf W j = byteOf (E (cfbPrev iv h B i)) j

/-- The keystream does not look at ciphertext that is yet to come. -/
theorem cfbPrev_append {iv h x : List Byte} {B i : Nat} (hi : i ≤ h.length) : cfbPrev iv (h ++ x) B i = cfbPrev iv h B i := by
  unfold cfbPrev
  split
  · rfl
  · rename_i hq
    have := Nat.div_mul_le_self i B
    obtain ⟨q, hq'⟩ : ∃ q, i / B = q + 1 := Nat.exists_eq_succ_of_ne_zero hq
    rw [hq', Nat.succ_mul] at this
    rw [hq', Nat.add_sub_cancel, slice_append_left (by omega)]

/-- One byte of CFB: the keystream byte, and WORK after the feedback. -/
theorem cfb_step {E : List Byte → List Byte} {B i : Nat} {iv h W : List Byte} (hB : 0 < B) (hE : ∀ x, (E x).length = B)
    (hw : CfbWork E B iv h i W) (b : Byte) :
    byteOf (if i % B = 0 then E W else W) (i % B) = byteOf (E (cfbPrev iv h B i)) (i % B) ∧
    CfbWork E B iv (h ++ [b]) (i + 1) ((if i % B = 0 then E W else W).set (i % B) b) := by
  have hr := Nat.mod_lt i hB
  have hi := Nat.div_add_mod i B
  rw [Nat.mul_comm] at hi
  set W' := if i % B = 0 then E W else W with hW'
  have hl : W'.length = B := by
    rw [hW']; split
    · exact hE W
    · rename_i h0; exact (hw.mid h0).1
  have hlow : ∀ j, j < i % B → byteOf W' j = byteOf h (i / B * B + j) := by
    intro j hj
    rw [hW', if_neg (by omega)]; exact (hw.mid (by omega)).2.1 j hj
  have hhigh : ∀ j, i % B ≤ j → j < B → byteOf W' j = byteOf (E (cfbPrev iv h B i)) j := by
    intro j h1 h2
    rw [hW']; split
    · rename_i h0; rw [hw.fresh h0]
    · rename_i h0; exact (hw.mid h0).2.2 j h1 h2
  have hset : ∀ j, byteOf (W'.set (i % B) b) j = if i % B = j then b else byteOf W' j := by
    intro j
    rw [byteOf_set]
    by_cases hj : i % B = j
    · rw [if_pos ⟨hj, by omega⟩, if_pos hj]
    · rw [if_neg (fun h => hj h.1), if_neg hj]
  refine ⟨hhigh _ (Nat.le_refl _) hr, by simp [hw.length], ?_, ?_⟩
  · intro h0
    rcases succ_div_mod (i := i) hB with ⟨_, h2, _⟩ | ⟨h1, _, h3⟩
    · omega
    · rw [cfbPrev, h3, if_neg (Nat.succ_ne_zero _), Nat.add_sub_cancel]
      have hlen : i / B * B + B = i + 1 := by omega
      apply eq_of_byteOf
      · rw [List.length_set, hl, slice_length (by rw [List.length_append, hw.length, hlen]; simp)]
      · intro j hj
        rw [List.length_set, hl] at hj
        rw [hset, byteOf_slice hj]
        by_cases hjr : i % B = j
        · rw [if_pos hjr, show i / B * B + j = i by omega, byteOf_append_right (by rw [hw.length]), hw.length]; simp
        · rw [if_neg hjr, hlow j (by omega), byteOf_append_left (by rw [hw.length]; omega)]
  · intro h0
    rcases succ_div_mod (i := i) hB with ⟨h1, h2, h3⟩ | ⟨_, h2, _⟩
    · refine ⟨by rw [List.length_set, hl], fun j hj => ?_, fun j hj1 hj2 => ?_⟩
      · rw [h2] at hj
        rw [hset, h3]
        by_cases hjr : i % B = j
        · rw [if_pos hjr, show i / B * B + j = i by omega, byteOf_append_right (by rw [hw.length]), hw.length]; simp
        · rw [if_neg hjr, hlow j (by omega), byteOf_append_left (by rw [hw.length]; omega)]
      · rw [h2] at hj1
        have hp : cfbPrev iv (h ++ [b]) B (i + 1) = cfbPrev iv h B i := by
          rw [← cfbPrev_append (iv := iv) (h := h) (x := [b]) (B := B) (i := i) (by rw [hw.length]), cfbPrev, cfbPrev, h3]
        rw [hset, if_neg (by omega), hp]
        exact hhigh j (by omega) hj2
    · omega

theorem cfbWork_zero (E : List Byte → List Byte) (B : Nat) (iv : List Byte) : CfbWork E B iv [] 0 iv :=
  ⟨rfl, fun _ => by simp [cfbPrev], fun h => by simp at h⟩

/-- The FWD.CFB loop ends, where the cipher port answers. -/
theorem fwdCfbLoop_ends (c : Cipher) (n i : Nat) (s : State) (h : n = 0 ∨ s.cipherUp = true) :
    ∃ t, fwdCfbLoop c n i s = .ok t ∧ Touch (i + n) s t ∧ t.len = s.len := by
  induction n generalizing i s with
  | zero => exact ⟨s, rfl, Touch.refl _ _, rfl⟩
  | succ n ih =>
    have hu : s.cipherUp = true := h.resolve_left (by omega)
    obtain ⟨t, e, t1, t2⟩ := refresh_ends c i (s.setIdx i) hu
    simp only [fwdCfbLoop, e]
    have t3 : Touch 0 s (t.readByte i).2 := ((touch_setIdx 0 i s).trans t1).trans (touch_readByte 0 i t)
    have t4 : (t.readByte i).2.len = s.len := by rw [(readByte_spec i t).2]; exact t2
    set r := t.readByte i
    set u := (r.2.writeByte i (r.1 ^^^ byteOf r.2.work (i % t.blockBytes))).setWork
      (r.2.work.set (i % t.blockBytes) (r.1 ^^^ byteOf r.2.work (i % t.blockBytes))) with hudef
    have hut : Touch (i + 1) s u :=
      ((t3.mono (by omega)).trans (touch_writeByte _ i _ _ (by omega))).trans (touch_setWork _ _ _)
    obtain ⟨t', k1, k2, k3⟩ := ih (i + 1) u (.inr (by rw [hut.cipherUp, hu]))
    refine ⟨t', k1, ?_, k3.trans t4⟩
    rw [show i + 1 + n = i + (n + 1) by omega] at k2
    exact (hut.mono (by omega)).trans k2

/-- The INV.CFB loop ends, where the cipher port answers. -/
theorem invCfbLoop_ends (c : Cipher) (n i : Nat) (s : State) (h : n = 0 ∨ s.cipherUp = true) :
    ∃ t, invCfbLoop c n i s = .ok t ∧ Touch (i + n) s t ∧ t.len = s.len := by
  induction n generalizing i s with
  | zero => exact ⟨s, rfl, Touch.refl _ _, rfl⟩
  | succ n ih =>
    have hu : s.cipherUp = true := h.resolve_left (by omega)
    obtain ⟨t, e, t1, t2⟩ := refresh_ends c i (s.setIdx i) hu
    simp only [invCfbLoop, e]
    have t3 : Touch 0 s (t.readByte i).2 := ((touch_setIdx 0 i s).trans t1).trans (touch_readByte 0 i t)
    have t4 : (t.readByte i).2.len = s.len := by rw [(readByte_spec i t).2]; exact t2
    set r := t.readByte i
    set u := (r.2.writeByte i (r.1 ^^^ byteOf r.2.work (i % t.blockBytes))).setWork
      (r.2.work.set (i % t.blockBytes) r.1) with hudef
    have hut : Touch (i + 1) s u :=
      ((t3.mono (by omega)).trans (touch_writeByte _ i _ _ (by omega))).trans (touch_setWork _ _ _)
    obtain ⟨t', k1, k2, k3⟩ := ih (i + 1) u (.inr (by rw [hut.cipherUp, hu]))
    refine ⟨t', k1, ?_, k3.trans t4⟩
    rw [show i + 1 + n = i + (n + 1) by omega] at k2
    exact (hut.mono (by omega)).trans k2

/-- The state in which a served stream loop reads byte `i`. -/
theorem served_step (c : Cipher) (i : Nat) (s : State) (hu : s.cipherUp = true) (hk : s.keyChanged = false) :
    ∃ t, refresh c i (s.setIdx i) = some t ∧
      (s.byteAt i = some (t.readByte i).1 ∨ s.byteAt i = none) ∧ Touch 0 s (t.readByte i).2 ∧
      (t.readByte i).2.len = s.len ∧ t.blockBytes = s.blockBytes ∧
      (t.readByte i).2.work = (if i % s.blockBytes = 0 then c.encBlock s.blockBytes s.key s.work else s.work) := by
  refine ⟨_, refresh_served c i (s.setIdx i) hu hk, ?_⟩
  set t := if i % (s.setIdx i).blockBytes = 0
    then (s.setIdx i).setWork (c.encBlock (s.setIdx i).blockBytes (s.setIdx i).key (s.setIdx i).work) else s.setIdx i with ht
  have h0 : Touch 0 s t ∧ t.len = s.len ∧
      t.work = (if i % s.blockBytes = 0 then c.encBlock s.blockBytes s.key s.work else s.work) := by
    by_cases h0 : i % s.blockBytes = 0
    · rw [ht, if_pos (show i % (s.setIdx i).blockBytes = 0 from h0), if_pos h0]
      exact ⟨(touch_setIdx 0 i s).trans (touch_setWork 0 _ _), rfl, rfl⟩
    · rw [ht, if_neg (show ¬ i % (s.setIdx i).blockBytes = 0 from h0), if_neg h0]
      exact ⟨touch_setIdx 0 i s, rfl, rfl⟩
  obtain ⟨r1, r2⟩ := readByte_spec i t
  refine ⟨?_, h0.1.trans (touch_readByte 0 i t), ?_, h0.1.blockBytes, ?_⟩
  · rw [← h0.1.beyond i (by omega)]; exact r1
  · rw [r2]; exact h0.2.1
  · rw [r2]; exact h0.2.2

/-- The FWD.CFB loop, served: the ciphertext byte is the plaintext byte XORed with the keystream byte. -/
theorem fwdCfbLoop_served (c : Cipher) (n i : Nat) (s : State) (h : List Byte) (hB : 0 < s.blockBytes)
    (hu : n = 0 ∨ s.cipherUp = true) (hk : s.keyChanged = false)
    (hw : CfbWork (c.encBlock s.blockBytes s.key) s.blockBytes s.iv h i s.work) :
    ∃ t v w, fwdCfbLoop c n i s = .ok t ∧ ByteRun n i s t v w ∧
      ∀ m, m < n → byteOf w m = byteOf v m ^^^
        byteOf (c.encBlock s.blockBytes s.key (cfbPrev s.iv (h ++ w) s.blockBytes (i + m))) ((i + m) % s.blockBytes) := by
  induction n generalizing i s h with
  | zero => exact ⟨s, [], [], rfl, ByteRun.nil i s, by simp⟩
  | succ n ih =>
    have hu : s.cipherUp = true := hu.resolve_left (by omega)
    obtain ⟨t, e, r1, r2, r3, r4, r5⟩ := served_step c i s hu hk
    simp only [fwdCfbLoop, e, r4, r5]
    set r := t.readByte i
    set W' := if i % s.blockBytes = 0 then c.encBlock s.blockBytes s.key s.work else s.work with hW'
    set ct := r.1 ^^^ byteOf W' (i % s.blockBytes) with hct
    obtain ⟨hkey, hw'⟩ := cfb_step hB (fun x => encBlock_length c s.blockBytes s.key x) hw ct
    have run1 := (byte_run (i := i) s r.2 r.1 ct r1 r2 r3).setWork (W'.set (i % s.blockBytes) ct)
    set s' := (r.2.writeByte i ct).setWork (W'.set (i % s.blockBytes) ct) with hs'
    have tt := run1.touch
    obtain ⟨t', v, w, k1, k2, k3⟩ := ih (i + 1) s' (h ++ [ct]) (by rw [tt.blockBytes]; exact hB)
      (.inr (by rw [tt.cipherUp, hu])) (by rw [tt.keyChanged, hk])
      (by rw [tt.blockBytes, tt.key, tt.iv]; exact hw')
    rw [tt.blockBytes, tt.key, tt.iv] at k3
    refine ⟨t', [r.1] ++ v, [ct] ++ w, k1, ?_, fun m hm => ?_⟩
    · rw [show n + 1 = 1 + n by omega]; exact run1.append k2
    · cases m with
      | zero =>
        rw [Nat.add_zero, cfbPrev_append (by rw [hw.length])]
        simp only [List.singleton_append, byteOf_cons_zero]
        rw [hct, hkey]
      | succ m =>
        have := k3 m (by omega)
        rw [List.append_assoc, show i + 1 + m = i + (m + 1) by omega] at this
        simpa using this

/-- The INV.CFB loop, served: the plaintext byte is the ciphertext byte XORed with the keystream byte. -/
theorem invCfbLoop_served (c : Cipher) (n i : Nat) (s : State) (h : List Byte) (hB : 0 < s.blockBytes)
    (hu : n = 0 ∨ s.cipherUp = true) (hk : s.keyChanged = false)
    (hw : CfbWork (c.encBlock s.blockBytes s.key) s.blockBytes s.iv h i s.work) :
    ∃ t v w, invCfbLoop c n i s = .ok t ∧ ByteRun n i s t v w ∧
      ∀ m, m < n → byteOf w m = byteOf v m ^^^
        byteOf (c.encBlock s.blockBytes s.key (cfbPrev s.iv (h ++ v) s.blockBytes (i + m))) ((i + m) % s.blockBytes) := by
  induction n generalizing i s h with
  | zero => exact ⟨s, [], [], rfl, ByteRun.nil i s, by simp⟩
  | succ n ih =>
    have hu : s.cipherUp = true := hu.resolve_left (by omega)
    obtain ⟨t, e, r1, r2, r3, r4, r5⟩ := served_step c i s hu hk
    simp only [invCfbLoop, e, r4, r5]
    set r := t.readByte i
    set W' := if i % s.blockBytes = 0 then c.encBlock s.blockBytes s.key s.work else s.work with hW'
    obtain ⟨hkey, hw'⟩ := cfb_step hB (fun x => encBlock_length c s.blockBytes s.key x) hw r.1
    have run1 := (byte_run (i := i) s r.2 r.1 (r.1 ^^^ byteOf W' (i % s.blockBytes)) r1 r2 r3).setWork
      (W'.set (i % s.blockBytes) r.1)
    set s' := (r.2.writeByte i (r.1 ^^^ byteOf W' (i % s.blockBytes))).setWork (W'.set (i % s.blockBytes) r.1) with hs'
    have tt := run1.touch
    obtain ⟨t', v, w, k1, k2, k3⟩ := ih (i + 1) s' (h ++ [r.1]) (by rw [tt.blockBytes]; exact hB)
      (.inr (by rw [tt.cipherUp, hu])) (by rw [tt.keyChanged, hk])
      (by rw [tt.blockBytes, tt.key, tt.iv]; exact hw')
    rw [tt.blockBytes, tt.key, tt.iv] at k3
    refine ⟨t', [r.1] ++ v, [r.1 ^^^ byteOf W' (i % s.blockBytes)] ++ w, k1, ?_, fun m hm => ?_⟩
    · rw [show n + 1 = 1 + n by omega]; exact run1.append k2
    · cases m with
      | zero =>
        rw [Nat.add_zero, cfbPrev_append (by rw [hw.length])]
        simp only [List.singleton_append, byteOf_cons_zero]
        rw [hkey]
      | succ m =>
        have := k3 m (by omega)
        rw [List.append_assoc, show i + 1 + m = i + (m + 1) by omega] at this
        simpa using this

/-! ## OFB -/

/-- The OFB loop ends, where the cipher port answers. -/
theorem fwdOfbLoop_ends (c : Cipher) (n i : Nat) (s : State) (h : n = 0 ∨ s.cipherUp = true) :
    ∃ t, fwdOfbLoop c n i s = .ok t ∧ Touch (i + n) s t ∧ t.len = s.len := by
  induction n generalizing i s with
  | zero => exact ⟨s, rfl, Touch.refl _ _, rfl⟩
  | succ n ih =>
    have hu : s.cipherUp = true := h.resolve_left (by omega)
    obtain ⟨t, e, t1, t2⟩ := refresh_ends c i (s.setIdx i) hu
    simp only [fwdOfbLoop, e]
    have t3 : Touch 0 s (t.readByte i).2 := ((touch_setIdx 0 i s).trans t1).trans (touch_readByte 0 i t)
    have t4 : (t.readByte i).2.len = s.len := by rw [(readByte_spec i t).2]; exact t2
    set r := t.readByte i
    set u := r.2.writeByte i (r.1 ^^^ byteOf r.2.work (i % r.2.blockBytes))
    have hut : Touch (i + 1) s u := (t3.mono (by omega)).trans (touch_writeByte _ i _ _ (by omega))
    obtain ⟨t', k1, k2, k3⟩ := ih (i + 1) u (.inr (by rw [hut.cipherUp, hu]))
    refine ⟨t', k1, ?_, k3.trans t4⟩
    rw [show i + 1 + n = i + (n + 1) by omega] at k2
    exact (hut.mono (by omega)).trans k2

/-- The number of refreshes before byte `i`. -/
theorem refreshes_succ {B i : Nat} (hB : 0 < B) :
    (i % B = 0 → (i + 1 + B - 1) / B = (i + B - 1) / B + 1) ∧
    (i % B ≠ 0 → (i + 1 + B - 1) / B = (i + B - 1) / B) ∧ (i + 1 + B - 1) / B = i / B + 1 := by
  have hr := Nat.mod_lt i hB
  have hi := Nat.div_add_mod i B
  rw [Nat.mul_comm] at hi
  have h1 : (i + 1 + B - 1) / B = i / B + 1 :=
    (div_mod_of (q := i / B + 1) (r := i % B) hr (by rw [Nat.succ_mul]; omega)).1
  refine ⟨fun h0 => ?_, fun h0 => ?_, h1⟩
  · rw [h1, (div_mod_of (q := i / B) (r := B - 1) (i := i + B - 1) (by omega) (by omega)).1]
  · rw [h1, (div_mod_of (q := i / B + 1) (r := i % B - 1) (i := i + B - 1) (by omega) (by rw [Nat.succ_mul]; omega)).1]

/-- The OFB loop, served: each byte is XORed with its byte of the keystream, `E` iterated on the IV. -/
theorem fwdOfbLoop_served (c : Cipher) (n i : Nat) (s : State) (hB : 0 < s.blockBytes)
    (hu : n = 0 ∨ s.cipherUp = true) (hk : s.keyChanged = false)
    (hw : s.work = (c.encBlock s.blockBytes s.key)^[(i + s.blockBytes - 1) / s.blockBytes] s.iv) :
    ∃ t v w, fwdOfbLoop c n i s = .ok t ∧ ByteRun n i s t v w ∧
      ∀ m, m < n → byteOf w m = byteOf v m ^^^
        byteOf ((c.encBlock s.blockBytes s.key)^[(i + m) / s.blockBytes + 1] s.iv) ((i + m) % s.blockBytes) := by
  induction n generalizing i s with
  | zero => exact ⟨s, [], [], rfl, ByteRun.nil i s, by simp⟩
  | succ n ih =>
    have hu : s.cipherUp = true := hu.resolve_left (by omega)
    obtain ⟨t, e, r1, r2, r3, r4, r5⟩ := served_step c i s hu hk
    simp only [fwdOfbLoop, e]
    set r := t.readByte i
    rw [r2.blockBytes, r5]
    set W' := if i % s.blockBytes = 0 then c.encBlock s.blockBytes s.key s.work else s.work with hW'
    obtain ⟨f1, f2, f3⟩ := refreshes_succ (i := i) hB
    have hW : W' = (c.encBlock s.blockBytes s.key)^[(i + 1 + s.blockBytes - 1) / s.blockBytes] s.iv := by
      rw [hW']
      split
      · rename_i h0; rw [f1 h0, Function.iterate_succ_apply', hw]
      · rename_i h0; rw [f2 h0, hw]
    have run1 := byte_run (i := i) s r.2 r.1 (r.1 ^^^ byteOf W' (i % s.blockBytes)) r1 r2 r3
    set s' := r.2.writeByte i (r.1 ^^^ byteOf W' (i % s.blockBytes)) with hs'
    have tt := run1.touch
    obtain ⟨t', v, w, k1, k2, k3⟩ := ih (i + 1) s' (by rw [tt.blockBytes]; exact hB)
      (.inr (by rw [tt.cipherUp, hu])) (by rw [tt.keyChanged, hk])
      (by rw [tt.blockBytes, tt.key, tt.iv, ← hW]; exact r5)
    rw [tt.blockBytes, tt.key, tt.iv] at k3
    refine ⟨t', [r.1] ++ v, [r.1 ^^^ byteOf W' (i % s.blockBytes)] ++ w, k1, ?_, fun m hm => ?_⟩
    · rw [show n + 1 = 1 + n by omega]; exact run1.append k2
    · cases m with
      | zero => simp only [List.singleton_append, byteOf_cons_zero, Nat.add_zero]; rw [hW, f3]
      | succ m =>
        have := k3 m (by omega)
        rw [show i + 1 + m = i + (m + 1) by omega] at this
        simpa using this

/-! ## CTR -/

/-- The counter keeps its length. -/
theorem ctrCarry_length (n p : Nat) (v : List Byte) : (ctrCarry n p v).length = v.length := by
  induction n generalizing p v with
  | zero => rfl
  | succ n ih =>
    simp only [ctrCarry]
    split
    · simp
    · rw [ih]; simp

theorem ctrInc_length (B : Nat) (v : List Byte) : (ctrInc B v).length = v.length := ctrCarry_length 4 (B - 1) v

/-- The byte loop of CTR: each byte is XORed with its byte of SAVE; WORK and SAVE stay. -/
theorem ctrBytes_spec (base n j : Nat) (s : State) :
    ∃ v w, ByteRun n (base + j) s (ctrBytes base n j s) v w ∧ (ctrBytes base n j s).work = s.work ∧
      (ctrBytes base n j s).save = s.save ∧ ∀ m, m < n → byteOf w m = byteOf v m ^^^ byteOf s.save (j + m) := by
  induction n generalizing j s with
  | zero => exact ⟨[], [], ByteRun.nil _ s, rfl, rfl, by simp⟩
  | succ n ih =>
    simp only [ctrBytes]
    obtain ⟨r1, r2⟩ := readByte_spec (base + j) (s.setIdx (base + j))
    have r3 : ((s.setIdx (base + j)).readByte (base + j)).2.save = s.save := by rw [r2]; rfl
    have r4 : ((s.setIdx (base + j)).readByte (base + j)).2.work = s.work := by rw [r2]; rfl
    have r5 : ((s.setIdx (base + j)).readByte (base + j)).2.len = s.len := by rw [r2]; rfl
    have r6 := (touch_setIdx 0 (base + j) s).trans (touch_readByte 0 (base + j) (s.setIdx (base + j)))
    set r := (s.setIdx (base + j)).readByte (base + j)
    have run1 := byte_run (i := base + j) s r.2 r.1 (r.1 ^^^ byteOf r.2.save j) r1 r6 r5
    obtain ⟨v, w, k1, k2, k3, k4⟩ := ih (j + 1) (r.2.writeByte (base + j) (r.1 ^^^ byteOf r.2.save j))
    refine ⟨[r.1] ++ v, [r.1 ^^^ byteOf r.2.save j] ++ w, ?_, by rw [k2]; exact r4, by rw [k3]; exact r3, fun m hm => ?_⟩
    · rw [show n + 1 = 1 + n by omega]
      exact run1.append (by rw [Nat.add_assoc]; exact k1)
    · cases m with
      | zero => simp [r3]
      | succ m =>
        have := k4 m (by omega)
        rw [writeByte_save, r3, show j + 1 + m = j + (m + 1) by omega] at this
        simpa using this

/-- The CTR block loop ends, where the cipher port answers. -/
theorem fwdCtrLoop_ends (c : Cipher) (L n k : Nat) (s : State) (h : n = 0 ∨ s.cipherUp = true) :
    ∃ t, fwdCtrLoop c L n k s = .ok t ∧ Touch L s t ∧ t.len = s.len := by
  induction n generalizing k s with
  | zero => exact ⟨s, rfl, Touch.refl _ _, rfl⟩
  | succ n ih =>
    have hu : s.cipherUp = true := h.resolve_left (by omega)
    simp only [fwdCtrLoop]
    have q1 : Touch 0 s ((s.setIdx (k * s.blockBytes)).setSave s.work) := (touch_setIdx 0 _ s).trans (touch_setSave 0 _ _)
    set s1 := (s.setIdx (k * s.blockBytes)).setSave s.work with hs1
    cases he : blockEncrypt c s1.save s1 with
    | none => rw [blockEncrypt_none, q1.cipherUp, hu] at he; cases he
    | some p =>
      obtain ⟨y, t⟩ := p
      obtain ⟨a1, a2⟩ := touch_answer (blockEncrypt_answered he).2.2
      have q2 : Touch 0 s (t.setSave y) := (q1.trans a1).trans (touch_setSave 0 y t)
      have q2l : (t.setSave y).len = s.len := a2
      obtain ⟨v, w, b1, -⟩ := ctrBytes_spec (k * s.blockBytes) (min L (k * s.blockBytes + s.blockBytes) - k * s.blockBytes) 0
        (t.setSave y)
      simp only []
      set u := ctrBytes (k * s.blockBytes) (min L (k * s.blockBytes + s.blockBytes) - k * s.blockBytes) 0 (t.setSave y)
      have hul : u.len = s.len := b1.len.trans q2l
      have hut : Touch L s u := by
        by_cases hkL : k * s.blockBytes < L
        · exact (q2.mono (by omega)).trans (b1.touch.mono (by omega))
        · have h0 : min L (k * s.blockBytes + s.blockBytes) - k * s.blockBytes = 0 := by omega
          have hu0 : u = t.setSave y := by simp only [u, h0, ctrBytes]
          rw [hu0]; exact q2.mono (by omega)
      have hf : Touch L s (u.setWork (ctrInc s.blockBytes u.work)) := hut.trans (touch_setWork _ _ _)
      obtain ⟨t', k1, k2, k3⟩ := ih (k + 1) (u.setWork (ctrInc s.blockBytes u.work)) (.inr (by rw [hf.cipherUp, hu]))
      exact ⟨t', k1, hf.trans k2, k3.trans hul⟩

/-- The CTR block loop, served, over the blocks that cover bytes `k * B` to `L - 1`: each byte is XORed with its byte of the
keystream, `E` of the counter of its block. -/
theorem fwdCtrLoop_served (c : Cipher) (L n k : Nat) (s : State) (hB : 0 < s.blockBytes)
    (hu : n = 0 ∨ s.cipherUp = true) (hk : s.keyChanged = false)
    (hcover : L - k * s.blockBytes ≤ n * s.blockBytes ∧ n * s.blockBytes < L - k * s.blockBytes + s.blockBytes)
    (hw : s.work = (ctrInc s.blockBytes)^[k] s.iv) :
    ∃ t v w, fwdCtrLoop c L n k s = .ok t ∧ ByteRun (L - k * s.blockBytes) (k * s.blockBytes) s t v w ∧
      ∀ m, m < L - k * s.blockBytes → byteOf w m = byteOf v m ^^^
        byteOf (c.encBlock s.blockBytes s.key ((ctrInc s.blockBytes)^[(k * s.blockBytes + m) / s.blockBytes] s.iv))
          ((k * s.blockBytes + m) % s.blockBytes) := by
  induction n generalizing k s with
  | zero =>
    have h0 : L - k * s.blockBytes = 0 := by omega
    rw [h0]
    exact ⟨s, [], [], rfl, ByteRun.nil _ s, by simp⟩
  | succ n ih =>
    have hu : s.cipherUp = true := hu.resolve_left (by omega)
    simp only [fwdCtrLoop]
    have q1 : Touch 0 s ((s.setIdx (k * s.blockBytes)).setSave s.work) := (touch_setIdx 0 _ s).trans (touch_setSave 0 _ _)
    rw [blockEncrypt_served (by rw [q1.cipherUp, hu]) (by rw [q1.keyChanged, hk]), q1.blockBytes, q1.key, setSave_save]
    simp only []
    set B := s.blockBytes with hBdef
    set y := c.encBlock B s.key s.work with hy
    set u0 := ((s.setIdx (k * B)).setSave s.work).setSave y with hu0
    have q2 : Touch 0 s u0 := q1.trans (touch_setSave 0 y _)
    have hcount : min L (k * B + B) - k * B = min (L - k * B) B := by omega
    obtain ⟨v1, w1, b1, b2, b3, b4⟩ := ctrBytes_spec (k * B) (min L (k * B + B) - k * B) 0 u0
    set u := ctrBytes (k * B) (min L (k * B + B) - k * B) 0 u0
    rw [hcount, Nat.add_zero] at b1
    rw [hcount] at b4
    have hkL : k * B < L := by rw [Nat.succ_mul] at hcover; omega
    have run1 := (b1.before_touch (s := s) q2 (by rw [hu0]; rfl)).setWork (ctrInc B u.work)
    have hwork : u.work = s.work := by rw [b2, hu0]; rfl
    set s' := u.setWork (ctrInc B u.work) with hs'
    have tt := run1.touch
    have hsucc : (k + 1) * B = k * B + B := Nat.succ_mul k B
    obtain ⟨t', v, w, k1, k2, k3⟩ := ih (k + 1) s' (by rw [tt.blockBytes]; exact hB)
      (.inr (by rw [tt.cipherUp, hu])) (by rw [tt.keyChanged, hk])
      (by
        rw [tt.blockBytes, ← hBdef, hsucc]
        rw [Nat.succ_mul] at hcover
        refine ⟨by omega, ?_⟩
        by_cases hLB : k * B + B ≤ L
        · omega
        · have : n = 0 := by
            by_contra hn
            have : B ≤ n * B := Nat.le_mul_of_pos_left B (by omega)
            omega
          subst this; omega)
      (by rw [tt.blockBytes, tt.iv, ← hBdef, Function.iterate_succ_apply', ← hw, hs', setWork_work, hwork])
    rw [tt.blockBytes, ← hBdef] at k2
    rw [tt.blockBytes, tt.key, tt.iv, ← hBdef] at k3
    refine ⟨t', v1 ++ v, w1 ++ w, k1, ?_, fun m hm => ?_⟩
    · by_cases hLB : k * B + B ≤ L
      · have hm : min (L - k * B) B = B := by omega
        rw [hm] at run1
        rw [hsucc] at k2
        have := run1.append k2
        rwa [show B + (L - (k * B + B)) = L - k * B by omega] at this
      · have hm : min (L - k * B) B = L - k * B := by omega
        have h0 : L - (k + 1) * B = 0 := by omega
        rw [hm] at run1
        rw [h0] at k2
        have e1 : v = [] := List.eq_nil_of_length_eq_zero k2.before_length
        have e2 : w = [] := List.eq_nil_of_length_eq_zero k2.after_length
        subst e1; subst e2
        simp only [List.append_nil]
        have hn0 : n = 0 := by
          by_contra hn
          have := Nat.le_mul_of_pos_left B (Nat.pos_of_ne_zero hn)
          rw [Nat.succ_mul] at hcover
          omega
        subst hn0
        have ht' : t' = s' := by
          simp only [fwdCtrLoop, StageResult.ok.injEq] at k1
          exact k1.symm
        subst ht'
        exact run1
    · by_cases hmB : m < B
      · obtain ⟨d1, d2⟩ := div_mod_of (q := k) (i := k * B + m) hmB rfl
        rw [d1, d2, byteOf_append_left (by rw [b1.after_length]; omega), byteOf_append_left (by rw [b1.before_length]; omega),
          b4 m (by omega), Nat.zero_add, ← hw]
        rfl
      · have hLB : k * B + B ≤ L := by omega
        have hm1 : min (L - k * B) B = B := by omega
        have := k3 (m - B) (by omega)
        rw [show (k + 1) * B + (m - B) = k * B + m by omega] at this
        rw [byteOf_append_right (by rw [b1.after_length]; omega), byteOf_append_right (by rw [b1.before_length]; omega),
          b1.after_length, b1.before_length, hm1]
        exact this

/-! ## A silent cipher port -/

theorem fwdCfbLoop_silent (c : Cipher) (n : Nat) (s : State) (h : s.cipherUp = false) :
    fwdCfbLoop c (n + 1) 0 s = .waiting := by
  simp only [fwdCfbLoop]
  rw [refresh_silent c (s.setIdx 0) h]

theorem invCfbLoop_silent (c : Cipher) (n : Nat) (s : State) (h : s.cipherUp = false) :
    invCfbLoop c (n + 1) 0 s = .waiting := by
  simp only [invCfbLoop]
  rw [refresh_silent c (s.setIdx 0) h]

theorem fwdOfbLoop_silent (c : Cipher) (n : Nat) (s : State) (h : s.cipherUp = false) :
    fwdOfbLoop c (n + 1) 0 s = .waiting := by
  simp only [fwdOfbLoop]
  rw [refresh_silent c (s.setIdx 0) h]

theorem fwdCtrLoop_silent (c : Cipher) (L n k : Nat) (s : State) (h : s.cipherUp = false) :
    fwdCtrLoop c L (n + 1) k s = .waiting := by
  have h' : ((s.setIdx (k * s.blockBytes)).setSave s.work).cipherUp = false := by simpa using h
  simp only [fwdCtrLoop]
  rw [blockEncrypt_silent h']

end Sys2Proof.Machine
end

