-- ==== Sys2Proof/Laws/Stages.lean ====
section
/-! SUPPORT. What the two transforms of each mode can do as stages: that they end, what they leave in the buffer, when they
raise and when they wait. -/

namespace Sys2Proof.Machine

/-! ## From what a run leaves to the words of Safety.lean -/

/-- A block run over the whole buffer. -/
theorem BlockRun.buffer {s t : State} {v w : List Byte} (hal : s.length % s.blockBytes = 0)
    (h : BlockRun s.blockBytes (s.length / s.blockBytes) 0 s t v w) :
    Touch s.length s t ∧ s.mayHold v ∧ t.bufferIs w ∧ v.length = s.length ∧ w.length = s.length := by
  have hL : s.length / s.blockBytes * s.blockBytes = s.length := by
    have := Nat.div_add_mod s.length s.blockBytes
    rw [Nat.mul_comm, hal] at this
    omega
  have hlen : t.length = s.length := by simp only [State.length, h.len]
  have h1 := h.before_length
  have h2 := h.after_length
  have h3 := h.touch
  have h4 := h.before
  have h5 := h.after
  rw [Nat.zero_add, hL] at h3
  rw [hL] at h1 h2 h4 h5
  simp only [Nat.zero_mul, Nat.zero_add] at h4 h5
  exact ⟨h3, ⟨h1, h4⟩, ⟨by rw [h2, hlen], fun i hi => h5 i (by omega)⟩, h1, h2⟩

/-- A byte run over the whole buffer. -/
theorem ByteRun.buffer {s t : State} {v w : List Byte} (h : ByteRun s.length 0 s t v w) :
    Touch s.length s t ∧ s.mayHold v ∧ t.bufferIs w ∧ v.length = s.length ∧ w.length = s.length := by
  have hlen : t.length = s.length := by simp only [State.length, h.len]
  have h3 := h.touch
  have h4 := h.before
  have h5 := h.after
  simp only [Nat.zero_add] at h3 h4 h5
  exact ⟨h3, ⟨h.before_length, h4⟩, ⟨by rw [h.after_length, hlen], fun i hi => h5 i (by omega)⟩, h.before_length,
    h.after_length⟩

/-- The number of the blocks of an aligned length. -/
theorem block_lt {B L k : Nat} (h : (k + 1) * B ≤ L) (hB : 0 < B) : k < L / B :=
  (Nat.le_div_iff_mul_le hB).mpr h

/-! ## The transforms -/

/-- What a transform did: it finished in `t`, having read `v` from the buffer and left `w` in it. -/
structure Ran (s t : State) (v w : List Byte) : Prop where
  touch : Touch s.length s t
  len : t.len = s.len
  before : s.mayHold v
  after : t.bufferIs w

theorem blockCheck_ok {s : State} (h : s.length % s.blockBytes = 0) : blockCheck s = .ok s := by
  simp [blockCheck, aligned, h]

theorem blockCheck_raised {s : State} (h : s.length % s.blockBytes ≠ 0) :
    blockCheck s = .raised .lengthNotAligned (toWord s.length) s := by
  simp [blockCheck, aligned, h]

/-- A count of blocks is zero, or the port answers. -/
theorem blocks_served {s : State} (h : s.length = 0 ∨ s.cipherUp = true) : s.length / s.blockBytes = 0 ∨ s.cipherUp = true := by
  rcases h with h | h
  · exact .inl (by rw [h]; exact Nat.zero_div _)
  · exact .inr h

theorem blocksTouched_served {s : State} (hB : 0 < s.blockBytes) (h : s.length = 0 ∨ s.cipherUp = true) :
    blocksTouched s.blockBytes s.length = 0 ∨ s.cipherUp = true := by
  rcases h with h | h
  · exact .inl (by rw [blocksTouched, h]; exact Nat.div_eq_of_lt (by omega))
  · exact .inr h

theorem blocksTouched_cover {B L : Nat} (hB : 0 < B) :
    L - 0 * B ≤ blocksTouched B L * B ∧ blocksTouched B L * B < L - 0 * B + B := by
  have h1 := Nat.div_add_mod (L + B - 1) B
  have h2 := Nat.mod_lt (L + B - 1) hB
  rw [Nat.mul_comm] at h1
  simp only [blocksTouched, Nat.zero_mul, Nat.sub_zero]
  omega

/-- A write of WORK before a byte run. -/
theorem ByteRun.fromWork {n : Nat} {s t : State} {x v w : List Byte} (h : ByteRun n 0 (s.setWork x) t v w) :
    ByteRun n 0 s t v w := h.before_touch (touch_setWork 0 x s) rfl

/-- A forward transform, served. -/
theorem fwdStage_served (c : Cipher) (m : Mode) (s : State) (hB : 0 < s.blockBytes)
    (hal : LengthFits m s.blockBytes s.length) (hu : s.length = 0 ∨ s.cipherUp = true) (hk : s.keyChanged = false) :
    ∃ t v w, fwdStage c m s = .ok t ∧ Ran s t v w ∧ Forward c m s v w := by
  cases m with
  | ecb =>
    have hal := hal rfl
    obtain ⟨t, v, w, h1, h2, h3⟩ := fwdEcbLoop_served c (s.length / s.blockBytes) 0 s (blocks_served hu) hk
    obtain ⟨b1, b2, b3, b4, b5⟩ := h2.buffer hal
    exact ⟨t, v, w, by simp [fwdStage, fwdEcbStage, blockCheck_ok hal, h1], ⟨b1, h2.len, b2, b3⟩,
      by rw [b5, b4], fun k hk => h3 k (block_lt (by rw [← b4]; exact hk) hB)⟩
  | cbc =>
    have hal := hal rfl
    obtain ⟨t, v, w, h1, h2, h3⟩ := fwdCbcLoop_served c (s.length / s.blockBytes) 0 s s.iv (blocks_served hu) hk
      (fun _ => rfl) (fun h => absurd h (Nat.lt_irrefl 0))
    obtain ⟨b1, b2, b3, b4, b5⟩ := h2.buffer hal
    exact ⟨t, v, w, by simp [fwdStage, fwdCbcStage, blockCheck_ok hal, h1], ⟨b1, h2.len, b2, b3⟩,
      by rw [b5, b4], fun k hk => h3 k (block_lt (by rw [← b4]; exact hk) hB)⟩
  | cfb =>
    obtain ⟨t, v, w, h1, h2, h3⟩ := fwdCfbLoop_served c s.length 0 (s.setWork s.iv) [] hB hu hk (cfbWork_zero _ _ _)
    have run := ByteRun.fromWork h2
    obtain ⟨b1, b2, b3, b4, b5⟩ := run.buffer
    refine ⟨t, v, w, h1, ⟨b1, run.len, b2, b3⟩, by rw [b5, b4], fun i hi => ?_⟩
    have := h3 i (by omega)
    simpa [cfbPrev, State.previous, State.blk, State.E, State.blockBytes] using this
  | ofb =>
    obtain ⟨t, v, w, h1, h2, h3⟩ := fwdOfbLoop_served c s.length 0 (s.setWork s.iv) hB hu hk (by
      have hz : (0 + s.blockBytes - 1) / s.blockBytes = 0 := Nat.div_eq_of_lt (by omega)
      rw [show (s.setWork s.iv).blockBytes = s.blockBytes from rfl, hz]; rfl)
    have run := ByteRun.fromWork h2
    obtain ⟨b1, b2, b3, b4, b5⟩ := run.buffer
    refine ⟨t, v, w, h1, ⟨b1, run.len, b2, b3⟩, by rw [b5, b4], fun i hi => ?_⟩
    have := h3 i (by omega)
    rw [Nat.zero_add] at this
    exact this
  | ctr =>
    obtain ⟨t, v, w, h1, h2, h3⟩ := fwdCtrLoop_served c s.length (blocksTouched s.blockBytes s.length) 0 (s.setWork s.iv) hB
      (blocksTouched_served hB hu) hk (blocksTouched_cover hB) rfl
    rw [Nat.zero_mul, Nat.sub_zero] at h2
    have run := ByteRun.fromWork h2
    obtain ⟨b1, b2, b3, b4, b5⟩ := run.buffer
    refine ⟨t, v, w, h1, ⟨b1, run.len, b2, b3⟩, by rw [b5, b4], fun i hi => ?_⟩
    have := h3 i (by omega)
    rw [Nat.zero_mul, Nat.zero_add] at this
    exact this

/-- An inverse transform, served. -/
theorem invStage_served (c : Cipher) (m : Mode) (s : State) (hB : 0 < s.blockBytes)
    (hal : LengthFits m s.blockBytes s.length) (hu : s.length = 0 ∨ s.cipherUp = true) (hk : s.keyChanged = false)
    (hiv : m = .cbc → s.iv.length = s.blockBytes) :
    ∃ t v w, invStage c m s = .ok t ∧ Ran s t v w ∧ Backward c m s v w := by
  cases m with
  | ecb =>
    have hal := hal rfl
    obtain ⟨t, v, w, h1, h2, h3⟩ := invEcbLoop_served c (s.length / s.blockBytes) 0 s (blocks_served hu) hk
    obtain ⟨b1, b2, b3, b4, b5⟩ := h2.buffer hal
    exact ⟨t, v, w, by simp [invStage, invEcbStage, blockCheck_ok hal, h1], ⟨b1, h2.len, b2, b3⟩,
      by rw [b5, b4], fun k hk => h3 k (block_lt (by rw [← b4]; exact hk) hB)⟩
  | cbc =>
    have hal := hal rfl
    obtain ⟨t, v, w, h1, h2, h3⟩ := invCbcLoop_served c (s.length / s.blockBytes) 0 (s.setWork s.iv)
      (blocks_served hu) hk (hiv rfl)
    have run : BlockRun s.blockBytes (s.length / s.blockBytes) 0 s t v w :=
      { touch := ((touch_setWork 0 s.iv s).mono (by omega)).trans h2.touch
        len := h2.len
        before_length := h2.before_length
        after_length := h2.after_length
        before := h2.before
        after := h2.after
        below := h2.below }
    obtain ⟨b1, b2, b3, b4, b5⟩ := run.buffer hal
    exact ⟨t, v, w, by simp [invStage, invCbcStage, blockCheck_ok hal, h1], ⟨b1, run.len, b2, b3⟩,
      by rw [b5, b4], fun k hk => h3 k (block_lt (by rw [← b4]; exact hk) hB)⟩
  | cfb =>
    obtain ⟨t, v, w, h1, h2, h3⟩ := invCfbLoop_served c s.length 0 (s.setWork s.iv) [] hB hu hk (cfbWork_zero _ _ _)
    have run := ByteRun.fromWork h2
    obtain ⟨b1, b2, b3, b4, b5⟩ := run.buffer
    refine ⟨t, v, w, h1, ⟨b1, run.len, b2, b3⟩, by rw [b5, b4], fun i hi => ?_⟩
    have := h3 i (by omega)
    simpa [cfbPrev, State.previous, State.blk, State.E, State.blockBytes] using this
  | ofb => exact fwdStage_served c .ofb s hB (fun h => by cases h) hu hk
  | ctr => exact fwdStage_served c .ctr s hB (fun h => by cases h) hu hk

/-- A transform on a length that is not aligned. -/
theorem fwdStage_unaligned (c : Cipher) {m : Mode} {s : State} (hm : isBlockMode m = true)
    (hal : s.length % s.blockBytes ≠ 0) : fwdStage c m s = .raised .lengthNotAligned (toWord s.length) s := by
  cases m <;> first | (cases hm; done) | simp [fwdStage, fwdEcbStage, fwdCbcStage, blockCheck_raised hal]

theorem invStage_unaligned (c : Cipher) {m : Mode} {s : State} (hm : isBlockMode m = true)
    (hal : s.length % s.blockBytes ≠ 0) : invStage c m s = .raised .lengthNotAligned (toWord s.length) s := by
  cases m <;> first | (cases hm; done) | simp [invStage, invEcbStage, invCbcStage, blockCheck_raised hal]

/-- An aligned block loop stays in the buffer. -/
theorem touch_blocks {s t : State} (hal : s.length % s.blockBytes = 0)
    (h : Touch ((0 + s.length / s.blockBytes) * s.blockBytes) s t) : Touch s.length s t := by
  have := Nat.div_add_mod s.length s.blockBytes
  rw [Nat.mul_comm, hal] at this
  exact h.mono (by rw [Nat.zero_add]; omega)

/-- A forward transform ends, whatever the buffer holds and whatever the port answers. -/
theorem fwdStage_ends (c : Cipher) (m : Mode) (s : State) (hB : 0 < s.blockBytes)
    (hal : LengthFits m s.blockBytes s.length) (hu : s.length = 0 ∨ s.cipherUp = true) :
    ∃ t, fwdStage c m s = .ok t ∧ Touch s.length s t ∧ t.len = s.len := by
  cases m with
  | ecb =>
    have hal := hal rfl
    obtain ⟨t, h1, h2, h3⟩ := fwdEcbLoop_ends c (s.length / s.blockBytes) 0 s (blocks_served hu)
    exact ⟨t, by simp [fwdStage, fwdEcbStage, blockCheck_ok hal, h1], touch_blocks hal h2, h3⟩
  | cbc =>
    have hal := hal rfl
    obtain ⟨t, h1, h2, h3⟩ := fwdCbcLoop_ends c (s.length / s.blockBytes) 0 s (blocks_served hu)
    exact ⟨t, by simp [fwdStage, fwdCbcStage, blockCheck_ok hal, h1], touch_blocks hal h2, h3⟩
  | cfb =>
    obtain ⟨t, h1, h2, h3⟩ := fwdCfbLoop_ends c s.length 0 (s.setWork s.iv) hu
    rw [Nat.zero_add] at h2
    exact ⟨t, h1, (touch_setWork _ _ s).trans h2, h3⟩
  | ofb =>
    obtain ⟨t, h1, h2, h3⟩ := fwdOfbLoop_ends c s.length 0 (s.setWork s.iv) hu
    rw [Nat.zero_add] at h2
    exact ⟨t, h1, (touch_setWork _ _ s).trans h2, h3⟩
  | ctr =>
    obtain ⟨t, h1, h2, h3⟩ := fwdCtrLoop_ends c s.length (blocksTouched s.blockBytes s.length) 0 (s.setWork s.iv)
      (blocksTouched_served hB hu)
    exact ⟨t, h1, (touch_setWork _ _ s).trans h2, h3⟩

/-- An inverse transform ends, whatever the buffer holds and whatever the port answers. -/
theorem invStage_ends (c : Cipher) (m : Mode) (s : State) (hB : 0 < s.blockBytes)
    (hal : LengthFits m s.blockBytes s.length) (hu : s.length = 0 ∨ s.cipherUp = true) :
    ∃ t, invStage c m s = .ok t ∧ Touch s.length s t ∧ t.len = s.len := by
  cases m with
  | ecb =>
    have hal := hal rfl
    obtain ⟨t, h1, h2, h3⟩ := invEcbLoop_ends c (s.length / s.blockBytes) 0 s (blocks_served hu)
    exact ⟨t, by simp [invStage, invEcbStage, blockCheck_ok hal, h1], touch_blocks hal h2, h3⟩
  | cbc =>
    have hal := hal rfl
    obtain ⟨t, h1, h2, h3⟩ := invCbcLoop_ends c (s.length / s.blockBytes) 0 (s.setWork s.iv) (blocks_served hu)
    exact ⟨t, by simp [invStage, invCbcStage, blockCheck_ok hal, h1],
      touch_blocks hal (((touch_setWork _ s.iv s)).trans h2), h3⟩
  | cfb =>
    obtain ⟨t, h1, h2, h3⟩ := invCfbLoop_ends c s.length 0 (s.setWork s.iv) hu
    rw [Nat.zero_add] at h2
    exact ⟨t, h1, (touch_setWork _ _ s).trans h2, h3⟩
  | ofb => exact fwdStage_ends c .ofb s hB (fun h => by cases h) hu
  | ctr => exact fwdStage_ends c .ctr s hB (fun h => by cases h) hu

/-- The first block of a buffer that is not empty. -/
theorem blocks_pos {s : State} (hal : s.length % s.blockBytes = 0) (hL : 0 < s.length) :
    ∃ n, s.length / s.blockBytes = n + 1 := by
  apply Nat.exists_eq_succ_of_ne_zero
  intro h
  have := Nat.div_add_mod s.length s.blockBytes
  rw [h, hal] at this
  omega

theorem blocksTouched_pos {B L : Nat} (hB : 0 < B) (hL : 0 < L) : ∃ n, blocksTouched B L = n + 1 :=
  Nat.exists_eq_succ_of_ne_zero (Nat.ne_of_gt (Nat.div_pos (by omega) hB))

/-- A forward transform of a buffer that is not empty waits at a silent cipher port. -/
theorem fwdStage_silent (c : Cipher) (m : Mode) (s : State) (hB : 0 < s.blockBytes)
    (hal : LengthFits m s.blockBytes s.length) (hL : 0 < s.length) (hu : s.cipherUp = false) :
    fwdStage c m s = .waiting := by
  obtain ⟨n, hn⟩ := Nat.exists_eq_succ_of_ne_zero (Nat.ne_of_gt hL)
  cases m with
  | ecb =>
    obtain ⟨b, hb⟩ := blocks_pos (hal rfl) hL
    simp [fwdStage, fwdEcbStage, blockCheck_ok (hal rfl), hb, fwdEcbLoop_silent c b 0 s hu]
  | cbc =>
    obtain ⟨b, hb⟩ := blocks_pos (hal rfl) hL
    simp [fwdStage, fwdCbcStage, blockCheck_ok (hal rfl), hb, fwdCbcLoop_silent c b 0 s hu]
  | cfb => simp only [fwdStage, fwdCfbStage, hn]; exact fwdCfbLoop_silent c n _ hu
  | ofb => simp only [fwdStage, fwdOfbStage, hn]; exact fwdOfbLoop_silent c n _ hu
  | ctr =>
    obtain ⟨b, hb⟩ := blocksTouched_pos hB hL
    simp only [fwdStage, fwdCtrStage, hb]
    exact fwdCtrLoop_silent c _ b 0 _ hu

/-- An inverse transform of a buffer that is not empty waits at a silent cipher port. -/
theorem invStage_silent (c : Cipher) (m : Mode) (s : State) (hB : 0 < s.blockBytes)
    (hal : LengthFits m s.blockBytes s.length) (hL : 0 < s.length) (hu : s.cipherUp = false) :
    invStage c m s = .waiting := by
  obtain ⟨n, hn⟩ := Nat.exists_eq_succ_of_ne_zero (Nat.ne_of_gt hL)
  cases m with
  | ecb =>
    obtain ⟨b, hb⟩ := blocks_pos (hal rfl) hL
    simp [invStage, invEcbStage, blockCheck_ok (hal rfl), hb, invEcbLoop_silent c b 0 s hu]
  | cbc =>
    obtain ⟨b, hb⟩ := blocks_pos (hal rfl) hL
    simp only [invStage, invCbcStage, blockCheck_ok (hal rfl), hb, andThen_ok]
    exact invCbcLoop_silent c b 0 _ hu
  | cfb => simp only [invStage, invCfbStage, hn]; exact invCfbLoop_silent c n _ hu
  | ofb => exact fwdStage_silent c .ofb s hB (fun h => by cases h) hL hu
  | ctr => exact fwdStage_silent c .ctr s hB (fun h => by cases h) hL hu

/-! ## The inverse transform undoes the forward transform -/

theorem xor_xor_byte (a b : Byte) : a ^^^ b ^^^ b = a := by
  rw [BitVec.xor_assoc, BitVec.xor_self, BitVec.xor_zero]

theorem xorBytes_cancel {a b : List Byte} (h : a.length = b.length) : xorBytes (xorBytes a b) b = a := by
  apply eq_of_byteOf
  · simp [h]
  · intro j hj
    simp only [xorBytes_length] at hj
    rw [byteOf_xorBytes (by simp; omega) (by omega), byteOf_xorBytes (by omega) (by omega), xor_xor_byte]

/-- Two buffers of whole blocks are equal when their blocks are. -/
theorem eq_of_blocks {s : State} {v w : List Byte} (hB : 0 < s.blockBytes) (hl : v.length = w.length)
    (hal : v.length % s.blockBytes = 0)
    (h : ∀ k, (k + 1) * s.blockBytes ≤ v.length → s.blk v k = s.blk w k) : v = w := by
  apply eq_of_byteOf hl
  intro i hi
  have hd := Nat.div_add_mod i s.blockBytes
  have hr := Nat.mod_lt i hB
  rw [Nat.mul_comm] at hd
  have hL := Nat.div_add_mod v.length s.blockBytes
  rw [Nat.mul_comm, hal] at hL
  have hk : i / s.blockBytes < v.length / s.blockBytes :=
    (Nat.div_lt_iff_lt_mul hB).mpr (by omega)
  have hb := mul_block_lt (B := s.blockBytes) hk
  have := congrArg (fun x => byteOf x (i % s.blockBytes)) (h (i / s.blockBytes) (by rw [Nat.succ_mul]; omega))
  simp only [State.blk] at this
  rw [byteOf_slice hr, byteOf_slice hr, hd] at this
  exact this

theorem blk_length {s : State} {v : List Byte} {k : Nat} (h : (k + 1) * s.blockBytes ≤ v.length) :
    (s.blk v k).length = s.blockBytes := slice_length (by rw [Nat.succ_mul] at h; omega)

theorem previous_length {s : State} {v : List Byte} {k : Nat} (hiv : s.iv.length = s.blockBytes)
    (h : (k + 1) * s.blockBytes ≤ v.length) : (s.previous v k).length = s.blockBytes := by
  unfold State.previous
  split
  · exact hiv
  · rename_i hk
    obtain ⟨j, rfl⟩ := Nat.exists_eq_succ_of_ne_zero hk
    rw [Nat.succ_eq_add_one, Nat.add_sub_cancel]
    exact blk_length (by rw [Nat.succ_mul] at h; omega)

/-- What the forward transform makes of a buffer, the inverse transform turns back. -/
theorem backward_forward {c : Cipher} {m : Mode} {s : State} {v w x : List Byte} (hB : 0 < s.blockBytes)
    (hal : LengthFits m s.blockBytes v.length) (hiv : m = .cbc → s.iv.length = s.blockBytes)
    (hD : isBlockMode m = true → c.Inverse s.blockBytes s.key) (hf : Forward c m s v w) (hb : Backward c m s w x) : x = v := by
  cases m with
  | ecb =>
    apply eq_of_blocks hB (by rw [hb.1, hf.1]) (by rw [hb.1, hf.1]; exact hal rfl)
    intro k hk
    rw [hb.1] at hk
    have hv : (k + 1) * s.blockBytes ≤ v.length := by rw [← hf.1]; exact hk
    rw [hb.2 k hk]
    dsimp only
    rw [hf.2 k hv]
    exact hD rfl _ (blk_length hv)
  | cbc =>
    apply eq_of_blocks hB (by rw [hb.1, hf.1]) (by rw [hb.1, hf.1]; exact hal rfl)
    intro k hk
    rw [hb.1] at hk
    have hv : (k + 1) * s.blockBytes ≤ v.length := by rw [← hf.1]; exact hk
    have l1 := blk_length hv
    have l2 := previous_length (s := s) (hiv rfl) hk
    rw [hb.2 k hk]
    dsimp only
    rw [hf.2 k hv]
    have := hD rfl (xorBytes (s.blk v k) (s.previous w k)) (by simp [l1, l2])
    simp only [State.D, State.E]
    rw [this, xorBytes_cancel (by rw [l1, l2])]
  | cfb =>
    apply eq_of_byteOf (by rw [hb.1, hf.1])
    intro i hi
    rw [hb.1] at hi
    rw [hb.2 i hi, hf.2 i (by rw [← hf.1]; exact hi), xor_xor_byte]
  | ofb =>
    apply eq_of_byteOf (by rw [hb.1, hf.1])
    intro i hi
    rw [hb.1] at hi
    rw [hb.2 i hi, hf.2 i (by rw [← hf.1]; exact hi), xor_xor_byte]
  | ctr =>
    apply eq_of_byteOf (by rw [hb.1, hf.1])
    intro i hi
    rw [hb.1] at hi
    rw [hb.2 i hi, hf.2 i (by rw [← hf.1]; exact hi), xor_xor_byte]

/-- Two states with one block size, one key and one IV name the same transforms. -/
structure SameOperands (s t : State) : Prop where
  params : t.params = s.params
  key : t.key = s.key
  iv : t.iv = s.iv

theorem SameOperands.names {s t : State} (h : SameOperands s t) :
    t.blockBytes = s.blockBytes ∧ t.blk = s.blk ∧ t.E = s.E ∧ t.D = s.D ∧ t.previous = s.previous := by
  have hb : t.blockBytes = s.blockBytes := by simp only [State.blockBytes, h.params]
  have hk : t.blk = s.blk := by funext v k; simp only [State.blk, hb]
  refine ⟨hb, hk, ?_, ?_, ?_⟩
  · funext c v; simp only [State.E, hb, h.key]
  · funext c v; simp only [State.D, hb, h.key]
  · funext v k; simp only [State.previous, hk, h.iv]

theorem SameOperands.forward {s t : State} (h : SameOperands s t) (c : Cipher) (m : Mode) (v w : List Byte) :
    Forward c m t v w ↔ Forward c m s v w := by
  obtain ⟨h1, h2, h3, h4, h5⟩ := h.names
  cases m <;> simp only [Forward, BlockwiseIs, XoredWith, h1, h2, h3, h5, h.iv]

theorem SameOperands.backward {s t : State} (h : SameOperands s t) (c : Cipher) (m : Mode) (v w : List Byte) :
    Backward c m t v w ↔ Backward c m s v w := by
  obtain ⟨h1, h2, h3, h4, h5⟩ := h.names
  cases m <;> simp only [Backward, Forward, BlockwiseIs, XoredWith, h1, h2, h3, h4, h5, h.iv]

/-- A transform gives one result. -/
theorem forward_unique {c : Cipher} {m : Mode} {s : State} {v w w' : List Byte} (hB : 0 < s.blockBytes)
    (hal : LengthFits m s.blockBytes v.length) (h : Forward c m s v w) (h' : Forward c m s v w') : w' = w := by
  cases m with
  | ecb =>
    refine eq_of_blocks hB (by rw [h'.1, h.1]) (by rw [h'.1]; exact hal rfl) fun k hk => ?_
    rw [h'.1] at hk
    rw [h'.2 k hk, h.2 k hk]
  | cbc =>
    refine eq_of_blocks hB (by rw [h'.1, h.1]) (by rw [h'.1]; exact hal rfl) fun k hk => ?_
    rw [h'.1] at hk
    induction k with
    | zero => rw [h'.2 0 hk, h.2 0 hk]; rfl
    | succ k ih =>
      have hk0 : (k + 1) * s.blockBytes ≤ v.length := by
        have := Nat.succ_mul (k + 1) s.blockBytes
        simp only [Nat.succ_eq_add_one] at this
        omega
      rw [h'.2 _ hk, h.2 _ hk]
      simp only [State.previous, Nat.succ_ne_zero, if_false, Nat.add_sub_cancel, ih hk0]
  | cfb =>
    apply eq_of_byteOf (by rw [h'.1, h.1])
    intro i hi
    rw [h'.1] at hi
    have key : ∀ n, ∀ i, i < v.length → i / s.blockBytes = n → byteOf w' i = byteOf w i := by
      intro n
      induction n using Nat.strongRecOn with
      | ind n ih =>
        intro i hi hn
        rw [h'.2 i hi, h.2 i hi]
        have : s.previous w' (i / s.blockBytes) = s.previous w (i / s.blockBytes) := by
          unfold State.previous
          split
          · rfl
          · rename_i h0
            have hd := Nat.div_mul_le_self i s.blockBytes
            obtain ⟨q, hq⟩ := Nat.exists_eq_succ_of_ne_zero h0
            rw [hq, Nat.succ_mul] at hd
            have hq' : i / s.blockBytes - 1 = q := by omega
            rw [hq']
            have hfit : (q + 1) * s.blockBytes ≤ v.length := by rw [Nat.succ_mul]; omega
            have lw' : (s.blk w' q).length = s.blockBytes := blk_length (by rw [h'.1]; exact hfit)
            have lw : (s.blk w q).length = s.blockBytes := blk_length (by rw [h.1]; exact hfit)
            apply eq_of_byteOf (by rw [lw', lw])
            intro j hj
            rw [lw'] at hj
            simp only [State.blk]
            rw [byteOf_slice hj, byteOf_slice hj]
            exact ih q (by omega) _ (by omega) (div_mod_of hj rfl).1
        dsimp only; rw [this]
    exact key _ i hi rfl
  | ofb =>
    apply eq_of_byteOf (by rw [h'.1, h.1])
    intro i hi
    rw [h'.1] at hi
    rw [h'.2 i hi, h.2 i hi]
  | ctr =>
    apply eq_of_byteOf (by rw [h'.1, h.1])
    intro i hi
    rw [h'.1] at hi
    rw [h'.2 i hi, h.2 i hi]

theorem backward_unique {c : Cipher} {m : Mode} {s : State} {v w w' : List Byte} (hB : 0 < s.blockBytes)
    (hal : LengthFits m s.blockBytes v.length) (h : Backward c m s v w) (h' : Backward c m s v w') : w' = w := by
  cases m with
  | ecb =>
    refine eq_of_blocks hB (by rw [h'.1, h.1]) (by rw [h'.1]; exact hal rfl) fun k hk => ?_
    rw [h'.1] at hk
    rw [h'.2 k hk, h.2 k hk]
  | cbc =>
    refine eq_of_blocks hB (by rw [h'.1, h.1]) (by rw [h'.1]; exact hal rfl) fun k hk => ?_
    rw [h'.1] at hk
    rw [h'.2 k hk, h.2 k hk]
  | cfb =>
    apply eq_of_byteOf (by rw [h'.1, h.1])
    intro i hi
    rw [h'.1] at hi
    rw [h'.2 i hi, h.2 i hi]
  | ofb => exact forward_unique hB hal h h'
  | ctr => exact forward_unique hB hal h h'

end Sys2Proof.Machine
end

