-- ==== Sys2Proof/Laws/Commands.lean ====
section
/-! SUPPORT. What a command can do as a whole: its completion and its frame, the stages of ENC and DEC, and one
characterisation of the stages of every command. -/

namespace Sys2Proof.Machine

/-! ## Completion -/

/-- What stays between two states of one command: all that no command writes. -/
theorem Touch.frame {n : Nat} {s t : State} (h : Touch n s t) : Frame s t :=
  { params := h.params, hosterr := h.hosterr, doneIe := h.doneIe, errIe := h.errIe, hosterrIe := h.hosterrIe,
    lastcmd := h.lastcmd, ivvalid := h.ivvalid, iv := h.iv, key := h.key, keyChanged := h.keyChanged,
    cipherUp := h.cipherUp, randomUp := h.randomUp, rdata := h.rdata, inputs := h.inputs }

theorem Frame.refl (s : State) : Frame s s := (Touch.refl 0 s).frame

theorem Frame.trans {s t u : State} (h : Frame s t) (k : Frame t u) : Frame s u where
  params := k.params.trans h.params
  hosterr := k.hosterr.trans h.hosterr
  doneIe := k.doneIe.trans h.doneIe
  errIe := k.errIe.trans h.errIe
  hosterrIe := k.hosterrIe.trans h.hosterrIe
  lastcmd := k.lastcmd.trans h.lastcmd
  ivvalid := k.ivvalid.trans h.ivvalid
  iv := k.iv.trans h.iv
  key := k.key.trans h.key
  keyChanged := k.keyChanged.trans h.keyChanged
  cipherUp := k.cipherUp.trans h.cipherUp
  randomUp := k.randomUp.trans h.randomUp
  rdata := k.rdata.trans h.rdata
  inputs := k.inputs.trans h.inputs

theorem frame_completeOk (s : State) : Frame s (completeOk s) := by constructor <;> rfl

theorem frame_completeFault (e : Err) (v : Word) (s : State) : Frame s (completeFault e v s) := by constructor <;> rfl

theorem completed_of_touch {n : Nat} {s t : State} (h : Touch n s t) : Completed s (completeOk t) :=
  ⟨rfl, rfl, h.err, h.errcode, h.errinfo⟩

theorem faulted_of_touch {n : Nat} {s t : State} (h : Touch n s t) (hl : t.len = s.len) (e : Err) (v : Word) :
    Faulted e v s (completeFault e v t) :=
  ⟨rfl, h.done, rfl, rfl, rfl, hl⟩

/-- A stage that raises at once and touches nothing. -/
theorem raises_of_runCommand {i : Instr} {f : State → StageResult} {s : State} {e : Err} {v : Word}
    (hi : exec i s = runCommand f s) (hl : s.legal = true) (h : f s = .raised e v s) : Raises i s e v :=
  ⟨completeFault e v s, by rw [hi]; exact runCommand_raised hl h, faulted_of_touch (Touch.refl 0 s) rfl e v,
    frame_completeFault e v s, fun _ => rfl⟩

/-- A transform that ran, completed. -/
theorem Ran.transformed {s t : State} {v w : List Byte} (h : Ran s t v w) : Transformed s (completeOk t) v w where
  completed := completed_of_touch h.touch
  frame := h.touch.frame.trans (frame_completeOk t)
  len := h.len
  before := h.before
  after := h.after
  beyond := h.touch.beyond

/-! ## The stages of ENC and DEC -/

theorem modeIvCheck_ok {m : Mode} {s : State} (h : s.ivReady m) : modeIvCheck m s = .ok s := by
  unfold modeIvCheck
  split
  · rename_i hm
    unfold ivCheck
    rw [h hm]
    rfl
  · rfl

theorem modeIvCheck_raised {m : Mode} {s : State} (hm : needsIv m = true) (h : s.ivComplete = false) :
    modeIvCheck m s = .raised .ivMissing (s.ivvalid.extractLsb' 0 32) s := by
  unfold modeIvCheck ivCheck
  rw [if_pos hm, h]
  rfl

/-- N and Z complete a length to whole blocks (R125). -/
theorem padded_aligned {q : Scheme} {B L : Nat} (hB : 0 < B) (hq : q ≠ .nopad) : paddedLength q B L % B = 0 := by
  have hr := Nat.mod_lt L hB
  have hd := Nat.div_add_mod L B
  rw [Nat.mul_comm] at hd
  have key : ∀ n, L % B + n = B → (L + n) % B = 0 := fun n hn => (div_mod_of (q := L / B + 1) (r := 0) hB (by
    rw [Nat.succ_mul]; omega)).2
  unfold paddedLength
  cases q with
  | nopad => exact absurd rfl hq
  | zero =>
    simp only [padCount, zeroPad]
    by_cases h0 : L % B = 0
    · rw [h0, Nat.sub_zero, Nat.mod_self, Nat.add_zero]; exact h0
    · rw [Nat.mod_eq_of_lt (show B - L % B < B by omega)]; exact key _ (by omega)
  | iso7816 => exact key _ (by simp only [requiredPad, padCount]; omega)
  | x923 => exact key _ (by simp only [requiredPad, padCount]; omega)
  | iso10126 => exact key _ (by simp only [requiredPad, padCount]; omega)
  | pkcs7 => exact key _ (by simp only [requiredPad, padCount]; omega)

/-- ENC: what it does when its checks pass and its ports serve it. -/
theorem encStages_served (c : Cipher) (m : Mode) (p : Scheme) (s : State) (hl : s.legal = true) (hiv : s.ivReady m)
    (hc : paddedLength (effPad m p) s.blockBytes s.length ≤ s.bufBytes)
    (hal : LengthFits m s.blockBytes (paddedLength (effPad m p) s.blockBytes s.length))
    (hr : s.randomServes (effPad m p)) (hu : paddedLength (effPad m p) s.blockBytes s.length = 0 ∨ s.cipherUp = true)
    (hk : s.keyChanged = false) :
    ∃ t v tail w, encStages c m p s = .ok t ∧ PadTail (effPad m p) s.blockBytes s.length tail ∧ s.mayHold v ∧
      Forward c m s (v ++ tail) w ∧ t.bufferIs w ∧ w.length = s.length + tail.length ∧ Touch w.length s t ∧
      (effPad m p = .iso10126 → ∀ j, j + 1 < tail.length → byteOf tail j = Config.draw (s.draws + j)) := by
  have hB : 0 < s.blockBytes := by have := legal_blockBytes hl; omega
  obtain ⟨u, tail, p1, p2, p3, p4, p5⟩ := padStage_ok (effPad m p) s hl hc (fun h => (hr h).symm)
  have htail := p2.length hB
  have hul : u.length = paddedLength (effPad m p) s.blockBytes s.length := by rw [p3.1, htail]; rfl
  obtain ⟨t, v, w, f1, f2, f3⟩ := fwdStage_served c m u (by rw [p4.blockBytes]; exact hB)
    (by rw [p4.blockBytes, hul]; exact hal) (by rw [hul, p4.cipherUp]; exact hu) (by rw [p4.keyChanged]; exact hk)
  have hvl : v.length = s.length + tail.length := by rw [f2.before.1, p3.1]
  -- the tail of what the transform read is the tail the pad stage wrote
  have hv : v = v.take s.length ++ tail := by
    apply eq_of_byteOf
    · simp [hvl]
    · intro j hj
      have hl1 : (v.take s.length).length = s.length := by simp [hvl]
      by_cases hjs : j < s.length
      · rw [byteOf_append_left (by rw [hl1]; exact hjs)]
        simp [byteOf, hjs]
      · rw [byteOf_append_right (by rw [hl1]; omega), hl1]
        have h1 := f2.before.2 j (by rw [p3.1]; omega)
        have h2 := p3.2.1 (j - s.length) (by omega)
        rw [show s.length + (j - s.length) = j by omega] at h2
        rw [h2] at h1
        rcases h1 with h1 | h1
        · exact (Option.some.inj h1).symm
        · cases h1
  have hwl : w.length = s.length + tail.length := by
    rw [f2.after.1, show t.length = u.length by simp only [State.length, f2.len], p3.1]
  refine ⟨t, v.take s.length, tail, w, ?_, p2, ?_, ?_, f2.after, hwl, ?_, p5⟩
  · have hcap : capacity (s.length + padCount (effPad m p) s.blockBytes s.length) s = .ok s := by
      unfold capacity
      rw [if_neg (by unfold paddedLength at hc; omega)]
    have hali : (if isBlockMode m then aligned (s.length + padCount (effPad m p) s.blockBytes s.length) s else .ok s)
        = StageResult.ok s := by
      split
      · rename_i hm
        unfold aligned
        rw [if_neg]
        rw [not_not]
        exact hal hm
      · rfl
    simp only [encStages, modeIvCheck_ok hiv, andThen_ok, hcap, hali, p1, f1]
  · refine ⟨by simp [hvl], fun i hi => ?_⟩
    have h1 := f2.before.2 i (by rw [p3.1]; omega)
    rw [p3.2.2 i (.inl hi)] at h1
    have h2 : byteOf (v.take s.length) i = byteOf v i := by simp [byteOf, hi]
    rw [h2]; exact h1
  · rw [← hv]
    exact ((SameOperands.mk p4.params p4.key p4.iv).forward c m v w).mp f3
  · rw [hwl]
    refine p4.trans ?_
    have := f2.touch
    rwa [p3.1] at this

/-- ENC: the three checks, each before any write. -/
theorem encStages_ivMissing (c : Cipher) {m : Mode} (p : Scheme) {s : State} (hm : needsIv m = true)
    (h : s.ivComplete = false) : encStages c m p s = .raised .ivMissing (s.ivvalid.extractLsb' 0 32) s := by
  simp only [encStages, modeIvCheck_raised hm h, andThen_raised]

theorem encStages_overflow (c : Cipher) {m : Mode} {p : Scheme} {s : State} (hiv : s.ivReady m)
    (hc : s.bufBytes < paddedLength (effPad m p) s.blockBytes s.length) :
    encStages c m p s = .raised .bufferOverflow (toWord (paddedLength (effPad m p) s.blockBytes s.length)) s := by
  have hcap : capacity (s.length + padCount (effPad m p) s.blockBytes s.length) s =
      .raised .bufferOverflow (toWord (paddedLength (effPad m p) s.blockBytes s.length)) s := by
    unfold capacity
    rw [if_pos (by unfold paddedLength at hc; exact hc)]
    rfl
  simp only [encStages, modeIvCheck_ok hiv, andThen_ok, hcap, andThen_raised]

theorem encStages_unaligned (c : Cipher) {m : Mode} {p : Scheme} {s : State} (hiv : s.ivReady m) (hm : isBlockMode m = true)
    (hc : paddedLength (effPad m p) s.blockBytes s.length ≤ s.bufBytes)
    (hal : paddedLength (effPad m p) s.blockBytes s.length % s.blockBytes ≠ 0) :
    encStages c m p s = .raised .lengthNotAligned (toWord (paddedLength (effPad m p) s.blockBytes s.length)) s := by
  have hcap : capacity (s.length + padCount (effPad m p) s.blockBytes s.length) s = .ok s := by
    unfold capacity
    rw [if_neg (by unfold paddedLength at hc; omega)]
  have hali : aligned (s.length + padCount (effPad m p) s.blockBytes s.length) s =
      .raised .lengthNotAligned (toWord (paddedLength (effPad m p) s.blockBytes s.length)) s := by
    unfold aligned
    rw [if_pos (by unfold paddedLength at hal; exact hal)]
    rfl
  simp only [encStages, modeIvCheck_ok hiv, andThen_ok, hcap, hm, if_true, hali, andThen_raised]

/-- ENC of a stream mode is the forward transform after the IV check. -/
theorem encStages_stream (c : Cipher) {m : Mode} (p : Scheme) {s : State} (hm : isBlockMode m = false) (hl : s.length ≤ s.bufBytes) :
    encStages c m p s = (ivCheck s).andThen (fwdStage c m) := by
  have hq : effPad m p = .nopad := by simp [effPad, hm]
  have hn : needsIv m = true := by cases m <;> first | rfl | cases hm
  have hcap : capacity (s.length + padCount .nopad s.blockBytes s.length) s = .ok s := by
    unfold capacity
    rw [if_neg (by simp only [padCount]; omega)]
  rcases ivCheck_cases s with ⟨_, h⟩ | ⟨_, h⟩ <;>
    simp [encStages, modeIvCheck, hn, h, hq, hcap, hm, padStage, padNoneStage]

/-- DEC of a stream mode is the inverse transform after the IV check. -/
theorem decStages_stream (c : Cipher) {m : Mode} (p : Scheme) {s : State} (hm : isBlockMode m = false) :
    decStages c m p s = (ivCheck s).andThen (invStage c m) := by
  have hq : effPad m p = .nopad := by simp [effPad, hm]
  have hn : needsIv m = true := by cases m <;> first | rfl | cases hm
  have hu : unpadStage .nopad = StageResult.ok := rfl
  simp [decStages, modeIvCheck, hn, hq, hu]

/-- DEC: what it does when its checks pass and the port serves it. -/
theorem decStages_served (c : Cipher) (m : Mode) (p : Scheme) (s : State) (hl : s.legal = true) (hiv : s.ivReady m)
    (hal : LengthFits m s.blockBytes s.length) (hu : s.length = 0 ∨ s.cipherUp = true) (hk : s.keyChanged = false)
    (hvl : m = .cbc → s.iv.length = s.blockBytes) :
    ∃ v w, s.mayHold v ∧ w.length = s.length ∧ Backward c m s v w ∧
      (decStages c m p s).All
        (fun t => Touch s.length s t ∧ (∀ i, i < s.length → t.byteAt i = some (byteOf w i)) ∧
          Unpads (effPad m p) s.blockBytes w t.length)
        (fun e x t => Touch s.length s t ∧ (∀ i, i < s.length → t.byteAt i = some (byteOf w i)) ∧ t.len = s.len ∧
          ∃ j, x = toWord j ∧ UnpadFails (effPad m p) s.blockBytes w e j)
        False := by
  have hB : 0 < s.blockBytes := by have := legal_blockBytes hl; omega
  obtain ⟨u, v, w, f1, f2, f3⟩ := invStage_served c m s hB hal hu hk hvl
  have hul : u.length = s.length := by simp only [State.length, f2.len]
  have hwl : w.length = s.length := by rw [f2.after.1, hul]
  refine ⟨v, w, f2.before, hwl, f3, ?_⟩
  have huniq : ∀ x, u.mayHold x → x = w := by
    intro x hx
    apply eq_of_byteOf (by rw [hx.1, f2.after.1])
    intro j hj
    rw [hx.1] at hj
    rcases hx.2 j hj with h | h
    · rw [f2.after.2 j hj] at h; exact (Option.some.inj h).symm
    · rw [f2.after.2 j hj] at h; cases h
  simp only [decStages, modeIvCheck_ok hiv, andThen_ok, f1]
  refine (unpadStage_spec (effPad m p) u).imp ?_ ?_ id
  · rintro t ⟨h1, x, h2, h3⟩
    rw [huniq x h2, f2.touch.blockBytes] at h3
    exact ⟨f2.touch.trans (h1.mono (by omega)), fun i hi => by rw [h1.beyond i (by omega)]; exact f2.after.2 i (by omega), h3⟩
  · rintro e y t ⟨h1, hlen, x, j, h2, h3, h4⟩
    rw [huniq x h2, f2.touch.blockBytes] at h4
    exact ⟨f2.touch.trans (h1.mono (by omega)), fun i hi => by rw [h1.beyond i (by omega)]; exact f2.after.2 i (by omega),
      hlen.trans f2.len, j, h3, h4⟩

theorem decStages_ivMissing (c : Cipher) {m : Mode} (p : Scheme) {s : State} (hm : needsIv m = true)
    (h : s.ivComplete = false) : decStages c m p s = .raised .ivMissing (s.ivvalid.extractLsb' 0 32) s := by
  simp only [decStages, modeIvCheck_raised hm h, andThen_raised]

theorem decStages_unaligned (c : Cipher) {m : Mode} (p : Scheme) {s : State} (hiv : s.ivReady m) (hm : isBlockMode m = true)
    (hal : s.length % s.blockBytes ≠ 0) : decStages c m p s = .raised .lengthNotAligned (toWord s.length) s := by
  simp only [decStages, modeIvCheck_ok hiv, andThen_ok, invStage_unaligned c hm hal, andThen_raised]

/-! ## The stages of every command -/

theorem exec_eq (i : Instr) (s : State) : exec i s = execWith Config.cipher i s := by cases i <;> rfl

theorem padStage_all (q : Scheme) (s : State) (hl : s.legal = true) :
    (padStage q s).All (fun t => Touch t.length s t ∧ s.length ≤ t.length ∧ t.length ≤ s.bufBytes)
      (fun e _ t => t = s ∧ e = .bufferOverflow ∧ q ≠ .nopad) (s.randomUp = false) := by
  by_cases hc : s.length + padCount q s.blockBytes s.length ≤ s.bufBytes
  · by_cases hr : s.randomServes q
    · obtain ⟨t, tail, h1, h2, h3, h4, -⟩ := padStage_ok q s hl hc (fun h => (hr h).symm)
      have hB : 0 < s.blockBytes := by have := legal_blockBytes hl; omega
      have hlen := h2.length hB
      rw [h1]
      exact ⟨by rw [h3.1]; exact h4, by rw [h3.1]; omega, by rw [h3.1]; omega⟩
    · simp only [State.randomServes, Classical.not_imp, not_or] at hr
      obtain ⟨rfl, h1, h2⟩ := hr
      have hB : 0 < s.blockBytes := by have := legal_blockBytes hl; omega
      have := requiredPad_pos (L := s.length) hB
      rw [padStage_waiting s hc (by omega) (by simpa using h1)]
      simpa [StageResult.All] using h1
  · rw [padStage_overflow q s hl (by omega)]
    refine ⟨rfl, rfl, ?_⟩
    rintro rfl
    have := legal_length hl
    simp only [padCount] at hc
    omega

theorem fwdStage_all (c : Cipher) (m : Mode) (s : State) (hB : 0 < s.blockBytes) :
    (fwdStage c m s).All (fun t => Touch s.length s t ∧ t.len = s.len)
      (fun e _ t => t = s ∧ e = .lengthNotAligned ∧ isBlockMode m = true ∧ s.length % s.blockBytes ≠ 0)
      (s.cipherUp = false) := by
  by_cases hal : LengthFits m s.blockBytes s.length
  · by_cases hu : s.length = 0 ∨ s.cipherUp = true
    · obtain ⟨t, h1, h2⟩ := fwdStage_ends c m s hB hal hu
      rw [h1]; exact h2
    · rw [not_or] at hu
      rw [fwdStage_silent c m s hB hal (by omega) (by simpa using hu.2)]
      simpa [StageResult.All] using hu.2
  · simp only [LengthFits, Classical.not_imp] at hal
    rw [fwdStage_unaligned c hal.1 hal.2]
    exact ⟨rfl, rfl, hal⟩

theorem invStage_all (c : Cipher) (m : Mode) (s : State) (hB : 0 < s.blockBytes) :
    (invStage c m s).All (fun t => Touch s.length s t ∧ t.len = s.len)
      (fun e _ t => t = s ∧ e = .lengthNotAligned ∧ isBlockMode m = true ∧ s.length % s.blockBytes ≠ 0)
      (s.cipherUp = false) := by
  by_cases hal : LengthFits m s.blockBytes s.length
  · by_cases hu : s.length = 0 ∨ s.cipherUp = true
    · obtain ⟨t, h1, h2⟩ := invStage_ends c m s hB hal hu
      rw [h1]; exact h2
    · rw [not_or] at hu
      rw [invStage_silent c m s hB hal (by omega) (by simpa using hu.2)]
      simpa [StageResult.All] using hu.2
  · simp only [LengthFits, Classical.not_imp] at hal
    rw [invStage_unaligned c hal.1 hal.2]
    exact ⟨rfl, rfl, hal⟩

/-- The faults of a failing unpad stage are those of its scheme. -/
theorem unpadFails_mem {q : Scheme} {B : Nat} {v : List Byte} {e : Err} {i : Nat} (h : UnpadFails q B v e i) :
    e ∈ unpadFaults q := by
  have hb : LengthByteFails B v e i → e = .paddingUnderflow ∨ e = .paddingOverflow := by
    rintro (⟨_, h, _⟩ | ⟨_, _, h, _⟩ | ⟨_, _, h, _⟩)
    · exact .inl h
    · exact .inl h
    · exact .inr h
  cases q with
  | nopad => exact h.elim
  | zero => exact h.elim
  | iso7816 => rcases h with ⟨_, _, _, _, _, h⟩ | ⟨_, _, h⟩ <;> simp [h, unpadFaults]
  | x923 =>
    rcases h with h | ⟨_, _, _, _, _, h⟩
    · rcases hb h with h | h <;> simp [h, unpadFaults]
    · simp [h, unpadFaults]
  | iso10126 => rcases hb h with h | h <;> simp [h, unpadFaults]
  | pkcs7 =>
    rcases h with h | ⟨_, _, _, _, _, h⟩
    · rcases hb h with h | h <;> simp [h, unpadFaults]
    · simp [h, unpadFaults]

theorem unpads_le {q : Scheme} {B : Nat} {v : List Byte} {n : Nat} (h : Unpads q B v n) : n ≤ v.length := by
  cases q with
  | nopad => exact Nat.le_of_eq h
  | zero => exact h.1
  | iso7816 => exact Nat.le_of_lt h.1
  | x923 => rw [h.2.1]; omega
  | iso10126 => rw [h.2]; omega
  | pkcs7 => rw [h.2.1]; omega

theorem unpadStage_all (q : Scheme) (s : State) :
    (unpadStage q s).All (fun t => Touch 0 s t ∧ t.length ≤ s.length)
      (fun e _ t => Touch 0 s t ∧ t.len = s.len ∧ e ∈ unpadFaults q) False := by
  refine (unpadStage_spec q s).imp ?_ ?_ id
  · rintro t ⟨h1, v, h2, h3⟩
    exact ⟨h1, by have := unpads_le h3; rw [h2.1] at this; exact this⟩
  · rintro e w t ⟨h1, h2, v, j, _, _, h3⟩
    exact ⟨h1, h2, unpadFails_mem h3⟩

/-- The stages of any command: what they touch, how long they leave the buffer, which faults they raise, and why they
wait. -/
def StagesOk (i : Instr) (s : State) (r : StageResult) : Prop :=
  r.All
    (fun t => Touch (max s.length t.length) s t ∧ t.length ≤ s.bufBytes ∧ (writesLen i = false → t.len = s.len))
    (fun e _ t => Touch (if raisesLate i then s.length else 0) s t ∧ t.len = s.len ∧ e ∈ faultsOf i)
    (s.cipherUp = false ∨ s.randomUp = false)

theorem stagesOk_pad (i : Instr) (q : Scheme) {s : State} (hl : s.legal = true)
    (hf : q ≠ .nopad → .bufferOverflow ∈ faultsOf i) (hw : writesLen i = true) : StagesOk i s (padStage q s) := by
  refine (padStage_all q s hl).imp ?_ ?_ .inr
  · rintro t ⟨h1, h2, h3⟩
    exact ⟨h1.mono (by omega), h3, by simp [hw]⟩
  · rintro e _ t ⟨rfl, rfl, hq⟩
    exact ⟨Touch.refl _ _, rfl, hf hq⟩

theorem stagesOk_unpad (i : Instr) (q : Scheme) {s : State} (hl : s.legal = true)
    (hf : ∀ e ∈ unpadFaults q, e ∈ faultsOf i) (hw : writesLen i = true) : StagesOk i s (unpadStage q s) := by
  refine (unpadStage_all q s).imp ?_ ?_ False.elim
  · rintro t ⟨h1, h2⟩
    exact ⟨h1.mono (by omega), by have := legal_length hl; omega, by simp [hw]⟩
  · rintro e _ t ⟨h1, h2, h3⟩
    exact ⟨h1.mono (by omega), h2, hf e h3⟩

/-- A transform that finished, as the stages of a command. -/
theorem transform_stagesOk (i : Instr) {s : State} {r : StageResult} (hl : s.legal = true) {Q : Prop}
    (h : r.All (fun t => Touch s.length s t ∧ t.len = s.len) (fun e _ t => t = s ∧ e = .lengthNotAligned ∧ Q)
      (s.cipherUp = false)) (hf : Q → .lengthNotAligned ∈ faultsOf i) : StagesOk i s r := by
  refine h.imp ?_ ?_ .inl
  · rintro t ⟨h1, h2⟩
    have : t.length = s.length := by simp only [State.length, h2]
    exact ⟨h1.mono (by omega), by have := legal_length hl; omega, fun _ => h2⟩
  · rintro e _ t ⟨rfl, rfl, h3⟩
    exact ⟨Touch.refl _ _, rfl, hf h3⟩

theorem ivCheck_stagesOk (i : Instr) {s : State} {f : State → StageResult} (h : StagesOk i s (f s))
    (hf : .ivMissing ∈ faultsOf i) : StagesOk i s ((ivCheck s).andThen f) := by
  rcases ivCheck_cases s with ⟨_, h1⟩ | ⟨_, h1⟩ <;> rw [h1]
  · exact h
  · exact ⟨Touch.refl _ _, rfl, hf⟩

theorem modeIvCheck_stagesOk {i : Instr} {m : Mode} {s : State} {f : State → StageResult} (h : StagesOk i s (f s))
    (hf : needsIv m = true → .ivMissing ∈ faultsOf i) : StagesOk i s ((modeIvCheck m s).andThen f) := by
  unfold modeIvCheck
  split
  · rename_i hm; exact ivCheck_stagesOk i h (hf hm)
  · exact h

theorem enc_stagesOk (i : Instr) (c : Cipher) (m : Mode) (p : Scheme) {s : State} (hl : s.legal = true)
    (h1 : needsIv m = true → .ivMissing ∈ faultsOf i) (h2 : effPad m p ≠ .nopad → .bufferOverflow ∈ faultsOf i)
    (h3 : isBlockMode m = true → effPad m p = .nopad → .lengthNotAligned ∈ faultsOf i)
    (hw : writesLen i = isBlockMode m) : StagesOk i s (encStages c m p s) := by
  have hB : 0 < s.blockBytes := by have := legal_blockBytes hl; omega
  unfold encStages
  refine modeIvCheck_stagesOk ?_ h1
  rcases capacity_cases (s.length + padCount (effPad m p) s.blockBytes s.length) s with ⟨k1, k2⟩ | ⟨k1, k2⟩ <;>
    simp only [k2, andThen_ok, andThen_raised]
  swap
  · refine ⟨Touch.refl _ _, rfl, h2 fun hq => ?_⟩
    rw [hq] at k1
    have := legal_length hl
    simp only [padCount] at k1
    omega
  by_cases hal : isBlockMode m = true ∧ (s.length + padCount (effPad m p) s.blockBytes s.length) % s.blockBytes ≠ 0
  · rw [if_pos hal.1]
    rcases aligned_cases (s.length + padCount (effPad m p) s.blockBytes s.length) s with ⟨j1, j2⟩ | ⟨j1, j2⟩
    · exact absurd j1 hal.2
    rw [j2]
    refine ⟨Touch.refl _ _, rfl, h3 hal.1 ?_⟩
    by_contra hq
    exact hal.2 (padded_aligned hB hq)
  · have hok : (if isBlockMode m = true then aligned (s.length + padCount (effPad m p) s.blockBytes s.length) s
        else StageResult.ok s) = .ok s := by
      split
      · rename_i hm
        rcases aligned_cases (s.length + padCount (effPad m p) s.blockBytes s.length) s with ⟨j1, j2⟩ | ⟨j1, j2⟩
        · exact j2
        · exact absurd ⟨hm, j1⟩ hal
      · rfl
    rw [hok, andThen_ok]
    by_cases hr : s.randomServes (effPad m p)
    · obtain ⟨u, tail, p1, p2, p3, p4, -⟩ := padStage_ok (effPad m p) s hl k1 (fun h => (hr h).symm)
      have htail := p2.length hB
      have hul : u.length = s.length + padCount (effPad m p) s.blockBytes s.length := by rw [p3.1, htail]
      rw [p1, andThen_ok]
      refine (fwdStage_all c m u (by rw [p4.blockBytes]; exact hB)).imp ?_ ?_ ?_
      · rintro t ⟨j1, j2⟩
        have htl : t.length = u.length := by simp only [State.length, j2]
        refine ⟨(p4.mono (by omega)).trans (j1.mono (by omega)), by omega, fun hwl => ?_⟩
        rw [hw] at hwl
        have hq : effPad m p = .nopad := by simp [effPad, hwl]
        rw [hq] at p1
        rw [j2]
        cases p1
        rfl
      · rintro e _ t ⟨rfl, rfl, j1, j2⟩
        refine absurd ⟨j1, ?_⟩ hal
        rwa [p4.blockBytes, hul] at j2
      · intro j; exact .inl (by rw [← p4.cipherUp]; exact j)
    · simp only [State.randomServes, Classical.not_imp, not_or] at hr
      obtain ⟨hq, g1, g2⟩ := hr
      have := requiredPad_pos (L := s.length) hB
      rw [hq] at k1 ⊢
      rw [padStage_waiting s k1 (by omega) (by simpa using g1)]
      exact .inr (by simpa using g1)

theorem dec_stagesOk (i : Instr) (c : Cipher) (m : Mode) (p : Scheme) {s : State} (hl : s.legal = true)
    (h1 : needsIv m = true → .ivMissing ∈ faultsOf i) (h2 : isBlockMode m = true → .lengthNotAligned ∈ faultsOf i)
    (h3 : ∀ e ∈ unpadFaults (effPad m p), e ∈ faultsOf i)
    (hw : writesLen i = isBlockMode m) (hn : raisesLate i = isBlockMode m) : StagesOk i s (decStages c m p s) := by
  have hB : 0 < s.blockBytes := by have := legal_blockBytes hl; omega
  unfold decStages
  refine modeIvCheck_stagesOk ?_ h1
  have hinv := invStage_all c m s hB
  cases hr : invStage c m s with
  | waiting => rw [hr] at hinv; exact .inl hinv
  | raised e w t =>
    rw [hr] at hinv
    obtain ⟨rfl, rfl, j1, _⟩ := hinv
    exact ⟨Touch.refl _ _, rfl, h2 j1⟩
  | ok u =>
    rw [hr] at hinv
    obtain ⟨j1, j2⟩ := hinv
    rw [andThen_ok]
    have hul : u.length = s.length := by simp only [State.length, j2]
    have hun := unpadStage_all (effPad m p) u
    cases hk : isBlockMode m with
    | false =>
      have hq : effPad m p = .nopad := by simp [effPad, hk]
      rw [hq]
      exact ⟨j1.mono (by omega), by have := legal_length hl; omega, fun _ => j2⟩
    | true =>
      refine hun.imp ?_ ?_ False.elim
      · rintro t ⟨g1, g2⟩
        exact ⟨(j1.mono (by omega)).trans (g1.mono (by omega)), by have := legal_length hl; omega, by simp [hw, hk]⟩
      · rintro e w t ⟨g1, g2, g3⟩
        rw [hn, hk]
        exact ⟨j1.trans (g1.mono (by omega)), g2.trans j2, h3 e g3⟩

/-- The stages of every command. -/
theorem stagesWith_ok (c : Cipher) (i : Instr) (s : State) (hl : s.legal = true) : StagesOk i s (stagesWith c i s) := by
  have hB : 0 < s.blockBytes := by have := legal_blockBytes hl; omega
  cases i with
  | padNone => exact stagesOk_pad .padNone .nopad hl (fun h => absurd rfl h) rfl
  | padZero => exact stagesOk_pad .padZero .zero hl (fun _ => by simp [faultsOf]) rfl
  | padIso7816 => exact stagesOk_pad .padIso7816 .iso7816 hl (fun _ => by simp [faultsOf]) rfl
  | padX923 => exact stagesOk_pad .padX923 .x923 hl (fun _ => by simp [faultsOf]) rfl
  | padIso10126 => exact stagesOk_pad .padIso10126 .iso10126 hl (fun _ => by simp [faultsOf]) rfl
  | padPkcs7 => exact stagesOk_pad .padPkcs7 .pkcs7 hl (fun _ => by simp [faultsOf]) rfl
  | unpadNone => exact stagesOk_unpad .unpadNone .nopad hl (fun _ h => h) rfl
  | unpadZero => exact stagesOk_unpad .unpadZero .zero hl (fun _ h => h) rfl
  | unpadIso7816 => exact stagesOk_unpad .unpadIso7816 .iso7816 hl (fun _ h => h) rfl
  | unpadX923 => exact stagesOk_unpad .unpadX923 .x923 hl (fun _ h => h) rfl
  | unpadIso10126 => exact stagesOk_unpad .unpadIso10126 .iso10126 hl (fun _ h => h) rfl
  | unpadPkcs7 => exact stagesOk_unpad .unpadPkcs7 .pkcs7 hl (fun _ h => h) rfl
  | fwdEcb => exact transform_stagesOk .fwdEcb hl (fwdStage_all c .ecb s hB) (fun _ => by simp [faultsOf])
  | invEcb => exact transform_stagesOk .invEcb hl (invStage_all c .ecb s hB) (fun _ => by simp [faultsOf])
  | fwdCbc =>
    exact ivCheck_stagesOk .fwdCbc (transform_stagesOk .fwdCbc hl (fwdStage_all c .cbc s hB) (fun _ => by simp [faultsOf])) (by simp [faultsOf])
  | invCbc =>
    exact ivCheck_stagesOk .invCbc (transform_stagesOk .invCbc hl (invStage_all c .cbc s hB) (fun _ => by simp [faultsOf])) (by simp [faultsOf])
  | fwdCfb =>
    exact ivCheck_stagesOk .fwdCfb (transform_stagesOk .fwdCfb hl (fwdStage_all c .cfb s hB) (fun h => by simp [isBlockMode] at h))
      (by simp [faultsOf])
  | fwdOfb =>
    exact ivCheck_stagesOk .fwdOfb (transform_stagesOk .fwdOfb hl (fwdStage_all c .ofb s hB) (fun h => by simp [isBlockMode] at h))
      (by simp [faultsOf])
  | fwdCtr =>
    exact ivCheck_stagesOk .fwdCtr (transform_stagesOk .fwdCtr hl (fwdStage_all c .ctr s hB) (fun h => by simp [isBlockMode] at h))
      (by simp [faultsOf])
  | invCfb =>
    exact ivCheck_stagesOk .invCfb (transform_stagesOk .invCfb hl (invStage_all c .cfb s hB) (fun h => by simp [isBlockMode] at h))
      (by simp [faultsOf])
  | invOfb =>
    exact ivCheck_stagesOk .invOfb (transform_stagesOk .invOfb hl (invStage_all c .ofb s hB) (fun h => by simp [isBlockMode] at h))
      (by simp [faultsOf])
  | invCtr =>
    exact ivCheck_stagesOk .invCtr (transform_stagesOk .invCtr hl (invStage_all c .ctr s hB) (fun h => by simp [isBlockMode] at h))
      (by simp [faultsOf])
  | encEcb p =>
    refine enc_stagesOk (.encEcb p) c .ecb p hl (fun h => by simp [needsIv] at h) (fun h => ?_) (fun _ h => ?_) rfl
    · cases p <;> first | (exact absurd rfl h) | simp [faultsOf, padFaults]
    · cases p <;> first | (cases h; done) | simp [faultsOf, padFaults]
  | encCbc p =>
    refine enc_stagesOk (.encCbc p) c .cbc p hl (fun _ => by simp [faultsOf]) (fun h => ?_) (fun _ h => ?_) rfl
    · cases p <;> first | (exact absurd rfl h) | simp [faultsOf, padFaults]
    · cases p <;> first | (cases h; done) | simp [faultsOf, padFaults]
  | encCfb p =>
    exact enc_stagesOk (.encCfb p) c .cfb p hl (fun _ => by simp [faultsOf]) (fun h => absurd rfl h) (fun h => by simp [isBlockMode] at h)
      rfl
  | encOfb p =>
    exact enc_stagesOk (.encOfb p) c .ofb p hl (fun _ => by simp [faultsOf]) (fun h => absurd rfl h) (fun h => by simp [isBlockMode] at h)
      rfl
  | encCtr p =>
    exact enc_stagesOk (.encCtr p) c .ctr p hl (fun _ => by simp [faultsOf]) (fun h => absurd rfl h) (fun h => by simp [isBlockMode] at h)
      rfl
  | decEcb p =>
    exact dec_stagesOk (.decEcb p) c .ecb p hl (fun h => by simp [needsIv] at h) (fun _ => by simp [faultsOf])
      (fun e h => List.mem_cons_of_mem _ h) rfl rfl
  | decCbc p =>
    exact dec_stagesOk (.decCbc p) c .cbc p hl (fun _ => by simp [faultsOf]) (fun _ => by simp [faultsOf])
      (fun e h => List.mem_cons_of_mem _ (List.mem_cons_of_mem _ h)) rfl rfl
  | decCfb p =>
    exact dec_stagesOk (.decCfb p) c .cfb p hl (fun _ => by simp [faultsOf]) (fun h => by simp [isBlockMode] at h)
      (fun e h => by simp [effPad, isBlockMode, unpadFaults] at h) rfl rfl
  | decOfb p =>
    exact dec_stagesOk (.decOfb p) c .ofb p hl (fun _ => by simp [faultsOf]) (fun h => by simp [isBlockMode] at h)
      (fun e h => by simp [effPad, isBlockMode, unpadFaults] at h) rfl rfl
  | decCtr p =>
    exact dec_stagesOk (.decCtr p) c .ctr p hl (fun _ => by simp [faultsOf]) (fun h => by simp [isBlockMode] at h)
      (fun e h => by simp [effPad, isBlockMode, unpadFaults] at h) rfl rfl

/-- A command ends in one of three ways: it completed, it raised, or it waits for a port and nothing moved. -/
theorem exec_cases (i : Instr) (s : State) (hl : s.legal = true) :
    (∃ u, exec i s = .next (completeOk u) ∧ Touch (max s.length u.length) s u ∧ u.length ≤ s.bufBytes ∧
      (writesLen i = false → u.len = s.len)) ∨
    (∃ e w u, exec i s = .next (completeFault e w u) ∧ Touch (if raisesLate i then s.length else 0) s u ∧ u.len = s.len ∧
      e ∈ faultsOf i) ∨
    (exec i s = .next s ∧ (s.cipherUp = false ∨ s.randomUp = false)) := by
  have h := stagesWith_ok Config.cipher i s hl
  rw [exec_eq, execWith]
  rcases runCommand_cases (stagesWith Config.cipher i) s with ⟨h1, _⟩ | ⟨_, h1⟩
  · rw [hl] at h1; cases h1
  rcases h1 with ⟨u, h1, h2⟩ | ⟨e, w, u, h1, h2⟩ | ⟨h1, h2⟩ <;> rw [h1] at h
  · exact .inl ⟨u, h2, h⟩
  · exact .inr (.inl ⟨e, w, u, h2, h⟩)
  · exact .inr (.inr ⟨h2, h⟩)

end Sys2Proof.Machine
end

