-- ==== Sys2Proof/Laws/Encoding.lean ====
section
/-! SUPPORT. What the decoder and the encoder can do, on the fields of a word. -/

namespace Sys2Proof

/-- The PAD values and their schemes (R83). -/
theorem schemeOf_eq (v : BitVec 4) (p : Scheme) : schemeOf v = some p ↔ v = schemeValue p := by
  cases p <;> revert v <;> decide
/-- The MODE values and their modes (R82). -/
theorem modeOf_eq (v : BitVec 4) (p : Mode) : modeOf v = some p ↔ v = modeValue p := by
  cases p <;> revert v <;> decide

/-- A word is its four fields (R80). -/
theorem word_of_fields (w : Word) : w = w.extractLsb' 12 20 ++ w.extractLsb' 8 4 ++ w.extractLsb' 4 4 ++ w.extractLsb' 0 4 := by
  apply BitVec.eq_of_getLsbD_eq
  intro i hi
  simp only [BitVec.getLsbD_append, BitVec.getLsbD_extractLsb']
  split
  · simp; omega
  · split
    · rw [show 4 + (i-4) = i by omega]; simp; omega
    · split
      · rw [show 8 + (i-4-4) = i by omega]; simp; omega
      · rw [show 12 + (i-4-4-4) = i by omega]; simp; omega

/-- The fields of the word of four fields (R80). -/
theorem fields_of_word (f : Fields) : fieldsOf (wordOf f) = f := by
  obtain ⟨a, b, c, d⟩ := f
  simp only [fieldsOf, wordOf, Fields.mk.injEq]
  refine ⟨?_, ?_, ?_, ?_⟩ <;>
  · apply BitVec.eq_of_getLsbD_eq
    intro i hi
    simp only [BitVec.getLsbD_append, BitVec.getLsbD_extractLsb', hi, decide_true, Bool.true_and]
    repeat' split
    all_goals first | omega | (congr 1; omega)

/-- R87, by the value of OP. -/
theorem decodeFields_eq (f : Fields) : decodeFields f = 
   if f.rsv ≠ 0 then .illegal .rsvSet
   else if f.op = 1 then decodePadding f padCommand
   else if f.op = 2 then decodePadding f unpadCommand
   else if f.op = 3 then decodeTransform f fwdCommand
   else if f.op = 4 then decodeTransform f invCommand
   else if f.op = 5 then decodeContract f encCommand
   else if f.op = 6 then decodeContract f decCommand
   else .illegal .opReserved := by
  obtain ⟨op, mode, pad, rsv⟩ := f
  simp only [decodeFields]
  split
  · rfl
  · have : ∀ k, op.toNat = k → op = BitVec.ofNat 4 k := by rintro k rfl; simp
    have h : ∀ op : BitVec 4, op = 0 ∨ op = 1 ∨ op = 2 ∨ op = 3 ∨ op = 4 ∨ op = 5 ∨ op = 6 ∨ op = 7 ∨ op = 8 ∨ op = 9 ∨ op = 10 ∨ op = 11 ∨ op = 12 ∨ op = 13 ∨ op = 14 ∨ op = 15 := by decide
    rcases h op with h|h|h|h|h|h|h|h|h|h|h|h|h|h|h|h <;> subst h <;> rfl

/-- PAD and UNPAD (R87). -/
theorem decodePadding_iff (f : Fields) (mk : Scheme → Instr) (i : Instr) :
    decodePadding f mk = .command i ↔ f.mode = 0 ∧ ∃ p, f.pad = schemeValue p ∧ mk p = i := by
  unfold decodePadding
  by_cases h : f.mode = 0
  · simp only [h, ne_eq, not_true, if_false, true_and]
    cases hp : schemeOf f.pad with
    | none =>
      constructor
      · intro h; cases h
      · rintro ⟨p, h1, _⟩; rw [(schemeOf_eq _ _).mpr h1] at hp; cases hp
    | some p =>
      have := (schemeOf_eq _ _).mp hp
      constructor
      · intro h; cases h; exact ⟨p, this, rfl⟩
      · rintro ⟨q, h1, rfl⟩; rw [(schemeOf_eq _ _).mpr h1] at hp; cases hp; rfl
  · rw [if_pos h]
    exact ⟨fun k => (by cases k), fun k => absurd k.1 h⟩

/-- FWD and INV (R87). -/
theorem decodeTransform_iff (f : Fields) (mk : Mode → Instr) (i : Instr) :
    decodeTransform f mk = .command i ↔ f.pad = 0 ∧ ∃ m, f.mode = modeValue m ∧ mk m = i := by
  unfold decodeTransform
  cases hp : modeOf f.mode with
  | none =>
      constructor
      · intro h; cases h
      · rintro ⟨_, p, h1, _⟩; rw [(modeOf_eq _ _).mpr h1] at hp; cases hp
  | some m =>
      have := (modeOf_eq _ _).mp hp
      by_cases h : f.pad = 0
      · simp only [h, ne_eq, not_true, if_false, true_and]
        constructor
        · intro h; cases h; exact ⟨m, this, rfl⟩
        · rintro ⟨q, h1, rfl⟩; rw [(modeOf_eq _ _).mpr h1] at hp; cases hp; rfl
      · simp only [ne_eq, h, not_false_eq_true, if_true, false_and, iff_false]
        exact fun k => (by cases k)

/-- ENC and DEC (R87). -/
theorem decodeContract_iff (f : Fields) (mk : Mode → Scheme → Instr) (i : Instr) :
    decodeContract f mk = .command i ↔ ∃ m p, f.mode = modeValue m ∧ f.pad = schemeValue p ∧ mk m p = i := by
  unfold decodeContract
  cases hp : modeOf f.mode with
  | none =>
      constructor
      · intro h; cases h
      · rintro ⟨p, _, h1, _⟩; rw [(modeOf_eq _ _).mpr h1] at hp; cases hp
  | some m =>
      have := (modeOf_eq _ _).mp hp
      cases hs : schemeOf f.pad with
      | none =>
        constructor
        · intro h; cases h
        · rintro ⟨_, p, _, h1, _⟩; rw [(schemeOf_eq _ _).mpr h1] at hs; cases hs
      | some p =>
        have h2 := (schemeOf_eq _ _).mp hs
        constructor
        · intro h; cases h; exact ⟨m, p, this, h2, rfl⟩
        · rintro ⟨q, r, h1, h3, rfl⟩; rw [(modeOf_eq _ _).mpr h1] at hp; rw [(schemeOf_eq _ _).mpr h3] at hs; cases hp; cases hs; rfl

/-- The fields that decode to a command are the fields of the command. -/
theorem decodeFields_iff (f : Fields) (i : Instr) : decodeFields f = .command i ↔ f = encodeFields i := by
  constructor
  · intro h
    rw [decodeFields_eq] at h
    obtain ⟨op, mode, pad, rsv⟩ := f
    by_cases hr : rsv = 0
    · subst hr
      simp only [ne_eq, not_true, if_false] at h
      split at h
      · subst op; obtain ⟨h1, p, h2, h3⟩ := (decodePadding_iff _ _ _).mp h
        simp only at h1 h2; subst h1 h2 h3; cases p <;> rfl
      split at h
      · subst op; obtain ⟨h1, p, h2, h3⟩ := (decodePadding_iff _ _ _).mp h
        simp only at h1 h2; subst h1 h2 h3; cases p <;> rfl
      split at h
      · subst op; obtain ⟨h1, p, h2, h3⟩ := (decodeTransform_iff _ _ _).mp h
        simp only at h1 h2; subst h1 h2 h3; cases p <;> rfl
      split at h
      · subst op; obtain ⟨h1, p, h2, h3⟩ := (decodeTransform_iff _ _ _).mp h
        simp only at h1 h2; subst h1 h2 h3; cases p <;> rfl
      split at h
      · subst op; obtain ⟨m, p, h1, h2, h3⟩ := (decodeContract_iff _ _ _).mp h
        simp only at h1 h2; subst h1 h2 h3; cases m <;> rfl
      split at h
      · subst op; obtain ⟨m, p, h1, h2, h3⟩ := (decodeContract_iff _ _ _).mp h
        simp only at h1 h2; subst h1 h2 h3; cases m <;> rfl
      · cases h
    · rw [if_pos hr] at h; cases h
  · rintro rfl
    cases i with
    | encEcb p => cases p <;> rfl
    | encCbc p => cases p <;> rfl
    | encCfb p => cases p <;> rfl
    | encOfb p => cases p <;> rfl
    | encCtr p => cases p <;> rfl
    | decEcb p => cases p <;> rfl
    | decCbc p => cases p <;> rfl
    | decCfb p => cases p <;> rfl
    | decOfb p => cases p <;> rfl
    | decCtr p => cases p <;> rfl
    | _ => rfl

end Sys2Proof
end

