-- ==== Sys2Proof/Laws/Host.lean ====
section
/-! SUPPORT. What a host access can do: the register each offset reaches, one lemma for each register, the word layout of
STATUS, INTEN, DATA and IV, and what a read of DATA returns where bytes are not written. -/

namespace Sys2Proof.Machine

/-! ## The register map -/

theorem controlReg_none {o : Nat} (h4 : o % 4 = 0) : controlReg o = none ↔ 0x028 ≤ o := by
  unfold controlReg
  split
  all_goals first | (simp only [reduceCtorEq, false_iff]; omega) | skip
  simp only [true_iff]
  by_contra h
  have : o = 0 ∨ o = 4 ∨ o = 8 ∨ o = 12 ∨ o = 16 ∨ o = 20 ∨ o = 24 ∨ o = 28 ∨ o = 32 ∨ o = 36 := by omega
  rcases this with h | h | h | h | h | h | h | h | h | h <;> simp_all

/-- An offset that is no error reaches a register, and only such an offset (R37, R51). -/
theorem accessed_none (p : Params) (off : Word) (bytes : Nat) :
    accessed p off bytes = none ↔ BadAccess p off.toNat bytes := by
  unfold accessed BadAccess
  by_cases hb : bytes = 4
  swap
  · simp [hb]
  rw [if_pos hb]
  generalize off.toNat = o
  unfold regAt
  by_cases h4 : o % 4 = 0
  swap
  · simp [hb, h4]
  rw [if_neg (by omega)]
  by_cases h1 : o < 0x100
  · rw [if_pos h1]
    rw [controlReg_none h4]
    omega
  rw [if_neg h1]
  by_cases h2 : o < 0x1000
  · rw [if_pos h2]
    by_cases h3 : (o - 0x100) / 4 < p.blockWords
    · rw [if_pos h3]
      simp only [reduceCtorEq, false_iff, not_or]
      omega
    · rw [if_neg h3]
      simp only [true_iff]
      omega
  · rw [if_neg h2]
    by_cases h3 : o - 0x1000 < p.bufBytes
    · rw [if_pos h3]
      simp only [reduceCtorEq, false_iff, not_or]
      omega
    · rw [if_neg h3]
      simp only [true_iff]
      omega

/-- A bad access. -/
theorem hostRead_bad {s : State} {off : Word} {bytes : Nat} (h : BadAccess s.params off.toNat bytes) :
    hostRead off bytes s = s.setHosterr.answer 0 := by
  unfold hostRead
  rw [(accessed_none _ _ _).mpr h]

theorem hostWrite_bad {s : State} {off v : Word} {bytes : Nat} (h : BadAccess s.params off.toNat bytes) :
    hostWrite off bytes v s = s.setHosterr := by
  unfold hostWrite
  rw [(accessed_none _ _ _).mpr h]

theorem hostWrite_cmd (w : Word) (s : State) : hostWrite 0x008 4 w s = whileIdle s (s.issue w) := rfl
theorem hostWrite_status (v : Word) (s : State) : hostWrite 0x00C 4 v s = s.writeStatus v := rfl
theorem hostWrite_inten (v : Word) (s : State) : hostWrite 0x010 4 v s = s.writeInten v := rfl
theorem hostWrite_len (v : Word) (s : State) :
    hostWrite 0x014 4 v s = whileIdle s (if s.bufBytes < v.toNat then s.setHosterr else { s with len := v }) := rfl

/-- The offset of an IV word. -/
theorem accessed_iv {p : Params} {w : Nat} (hp : p.wellFormed = true) (hw : w < p.blockWords) :
    accessed p (toWord (0x100 + 4 * w)) 4 = some (.ivWord w) := by
  have hb := ((wellFormed_iff p).mp hp).2.1
  have ht : (toWord (0x100 + 4 * w)).toNat = 0x100 + 4 * w := by
    simp only [toWord, BitVec.toNat_ofNat]
    exact Nat.mod_eq_of_lt (by omega)
  unfold accessed regAt
  rw [if_pos rfl, ht, if_neg (by omega), if_neg (by omega), if_pos (by omega), if_pos (by omega)]
  congr 2
  omega

/-- The offset of a DATA word. -/
theorem accessed_data {p : Params} {k : Nat} (hp : p.wellFormed = true) (hk : 4 * k < p.bufBytes) :
    accessed p (toWord (0x1000 + 4 * k)) 4 = some (.dataWord k) := by
  have hb := ((wellFormed_iff p).mp hp).2.2.2.2
  have ht : (toWord (0x1000 + 4 * k)).toNat = 0x1000 + 4 * k := by
    simp only [toWord, BitVec.toNat_ofNat]
    exact Nat.mod_eq_of_lt (by omega)
  unfold accessed regAt
  rw [if_pos rfl, ht, if_neg (by omega), if_neg (by omega), if_neg (by omega), if_pos (by omega)]
  congr 2
  omega

theorem whileIdle_idle {s : State} (t : State) (h : s.phase = .idle) : whileIdle s t = t := by
  simp [whileIdle, State.busy, h]

theorem whileIdle_busy {s : State} (t : State) (h : s.phase = .busy) : whileIdle s t = s.setHosterr := by
  simp [whileIdle, State.busy, h]

/-- A DATA word index that the map reaches has its four bytes in the buffer. -/
theorem accessed_data_within {p : Params} {off : Word} {k : Nat} (hp : p.wellFormed = true)
    (h : accessed p off 4 = some (.dataWord k)) : 4 * k + 4 ≤ p.bufBytes := by
  have hb := ((wellFormed_iff p).mp hp).2.2.1
  unfold accessed regAt at h
  rw [if_pos rfl] at h
  generalize off.toNat = o at h
  by_cases h4 : o % 4 = 0
  swap
  · rw [if_pos h4] at h; cases h
  rw [if_neg (by omega)] at h
  split at h
  · rename_i h1
    have key : ∀ o, o < 0x100 → ∀ k, controlReg o ≠ some (.dataWord k) := by
      intro o _ k hk
      unfold controlReg at hk
      split at hk <;> cases hk
    exact absurd h (key o h1 k)
  · split at h
    · split at h <;> cases h
    · split at h
      · cases h
        omega
      · cases h

/-! ## A command between its issue and its turn -/

theorem issued_started {s : State} {i : Instr} (h : s.phase = .idle) (hd : decode (encode i) = .command i) :
    s.issued i = s.started (encode i) := by
  rw [State.issued, hostWrite_cmd, whileIdle_idle _ h, State.issue, hd]

/-! ## Reads of DATA, byte by byte written or not -/

@[simp] theorem unwrittenIn_zero (i : Nat) (s : State) : s.unwrittenIn i 0 = 0 := rfl

theorem unwrittenIn_succ (i n : Nat) (s : State) :
    s.unwrittenIn i (n + 1) = (if (s.byteAt i).isNone then 1 else 0) + s.unwrittenIn (i + 1) n := by
  simp only [State.unwrittenIn, List.range_succ_eq_map, List.countP_cons, List.countP_map, Nat.add_zero]
  rw [Nat.add_comm]
  congr 2
  funext j
  simp [Nat.add_assoc, Nat.add_comm 1 j]

/-- A read of one byte, exactly. -/
theorem readByte_eq (i : Nat) (s : State) :
    s.readByte i = ((s.byteAt i).getD (Config.draw s.draws), s.setDraws (s.draws + if (s.byteAt i).isNone then 1 else 0)) := by
  unfold State.readByte State.byteAt
  split <;> rename_i h <;> simp [h, Memory.unwritten, State.setDraws]

/-- MemRead, exactly: each byte is the one written at its index, or the next draw. -/
theorem memRead_eq (n i : Nat) (s : State) :
    memRead n i s =
      ((List.range n).map fun j => (s.byteAt (i + j)).getD (Config.draw (s.draws + s.unwrittenIn i j)),
        s.setDraws (s.draws + s.unwrittenIn i n)) := by
  induction n generalizing i s with
  | zero => rfl
  | succ n ih =>
    have hs : ∀ d m, (s.setDraws d).unwrittenIn (i + 1) m = s.unwrittenIn (i + 1) m := fun _ _ => rfl
    have hb : ∀ d a, (s.setDraws d).byteAt a = s.byteAt a := fun _ _ => rfl
    simp only [memRead, ih, readByte_eq, hs, hb, unwrittenIn_succ, setDraws_draws, List.range_succ_eq_map, List.map_cons,
      List.map_map, Nat.add_zero, unwrittenIn_zero, Prod.mk.injEq, List.cons.injEq, true_and]
    refine ⟨List.map_congr_left fun j _ => ?_, by simp [State.setDraws, Nat.add_assoc]⟩
    simp only [Function.comp_apply, unwrittenIn_succ, Nat.succ_eq_add_one]
    rw [show i + 1 + j = i + (j + 1) by omega, Nat.add_assoc]

end Sys2Proof.Machine
end

