-- ==== Sys2Proof/Laws/PerInstr.lean ====
section
/-! SUPPORT. Facts about every command as syntax, one lemma for each constructor of Instr (LAWS.json): its encoding has legal
fields (spec/30_encoding.md R85). -/

/-- The command's fields are legal (R85): what the machine may run, it can be given. -/
def Sys2Proof.Laws.FieldsLegal.Statement : Sys2Proof.Instr → Prop := fun i => i.wellFormed = true

namespace Sys2Proof.Laws

theorem FieldsLegal.padNone : FieldsLegal.Statement .padNone := rfl
theorem FieldsLegal.padZero : FieldsLegal.Statement .padZero := rfl
theorem FieldsLegal.padIso7816 : FieldsLegal.Statement .padIso7816 := rfl
theorem FieldsLegal.padX923 : FieldsLegal.Statement .padX923 := rfl
theorem FieldsLegal.padIso10126 : FieldsLegal.Statement .padIso10126 := rfl
theorem FieldsLegal.padPkcs7 : FieldsLegal.Statement .padPkcs7 := rfl
theorem FieldsLegal.unpadNone : FieldsLegal.Statement .unpadNone := rfl
theorem FieldsLegal.unpadZero : FieldsLegal.Statement .unpadZero := rfl
theorem FieldsLegal.unpadIso7816 : FieldsLegal.Statement .unpadIso7816 := rfl
theorem FieldsLegal.unpadX923 : FieldsLegal.Statement .unpadX923 := rfl
theorem FieldsLegal.unpadIso10126 : FieldsLegal.Statement .unpadIso10126 := rfl
theorem FieldsLegal.unpadPkcs7 : FieldsLegal.Statement .unpadPkcs7 := rfl
theorem FieldsLegal.fwdEcb : FieldsLegal.Statement .fwdEcb := rfl
theorem FieldsLegal.fwdCbc : FieldsLegal.Statement .fwdCbc := rfl
theorem FieldsLegal.fwdCfb : FieldsLegal.Statement .fwdCfb := rfl
theorem FieldsLegal.fwdOfb : FieldsLegal.Statement .fwdOfb := rfl
theorem FieldsLegal.fwdCtr : FieldsLegal.Statement .fwdCtr := rfl
theorem FieldsLegal.invEcb : FieldsLegal.Statement .invEcb := rfl
theorem FieldsLegal.invCbc : FieldsLegal.Statement .invCbc := rfl
theorem FieldsLegal.invCfb : FieldsLegal.Statement .invCfb := rfl
theorem FieldsLegal.invOfb : FieldsLegal.Statement .invOfb := rfl
theorem FieldsLegal.invCtr : FieldsLegal.Statement .invCtr := rfl
theorem FieldsLegal.encEcb (p : Scheme) : FieldsLegal.Statement (.encEcb p) := by cases p <;> rfl
theorem FieldsLegal.encCbc (p : Scheme) : FieldsLegal.Statement (.encCbc p) := by cases p <;> rfl
theorem FieldsLegal.encCfb (p : Scheme) : FieldsLegal.Statement (.encCfb p) := by cases p <;> rfl
theorem FieldsLegal.encOfb (p : Scheme) : FieldsLegal.Statement (.encOfb p) := by cases p <;> rfl
theorem FieldsLegal.encCtr (p : Scheme) : FieldsLegal.Statement (.encCtr p) := by cases p <;> rfl
theorem FieldsLegal.decEcb (p : Scheme) : FieldsLegal.Statement (.decEcb p) := by cases p <;> rfl
theorem FieldsLegal.decCbc (p : Scheme) : FieldsLegal.Statement (.decCbc p) := by cases p <;> rfl
theorem FieldsLegal.decCfb (p : Scheme) : FieldsLegal.Statement (.decCfb p) := by cases p <;> rfl
theorem FieldsLegal.decOfb (p : Scheme) : FieldsLegal.Statement (.decOfb p) := by cases p <;> rfl
theorem FieldsLegal.decCtr (p : Scheme) : FieldsLegal.Statement (.decCtr p) := by cases p <;> rfl

end Sys2Proof.Laws
end

