-- ==== Sys2Proof/Tests/Slice0.lean ====
section
/-! SUPPORT. The model's own tests: ill-formed terms that WellFormed refuses, decoded words written out from the spec's opcode
map, the hand-calculated vectors of spec/95_test_vectors.md (one step each), and for each statement of
Certificates/Slice0/Obligations.lean that has hypotheses a concrete state and operands that meet them. -/

namespace Sys2Proof.Tests

open Sys2Proof.Machine

/-! ## Well-formedness (R85, R4, R6) -/

theorem test_fields_wellFormed : (⟨5, 4, 5, 0⟩ : Fields).wellFormed = true ∧ (⟨1, 0, 5, 0⟩ : Fields).wellFormed = true ∧
    (⟨4, 4, 0, 0⟩ : Fields).wellFormed = true := by decide
theorem test_fields_rsv : (⟨5, 0, 0, 1⟩ : Fields).wellFormed = false := by decide
theorem test_fields_op : (⟨0, 0, 0, 0⟩ : Fields).wellFormed = false ∧ (⟨7, 0, 0, 0⟩ : Fields).wellFormed = false ∧
    (⟨15, 0, 0, 0⟩ : Fields).wellFormed = false := by decide
theorem test_fields_pad_mode : (⟨1, 1, 0, 0⟩ : Fields).wellFormed = false ∧ (⟨2, 1, 0, 0⟩ : Fields).wellFormed = false := by
  decide
theorem test_fields_pad_pad : (⟨1, 0, 6, 0⟩ : Fields).wellFormed = false ∧ (⟨2, 0, 6, 0⟩ : Fields).wellFormed = false := by
  decide
theorem test_fields_fwd_mode : (⟨3, 5, 0, 0⟩ : Fields).wellFormed = false ∧ (⟨4, 5, 0, 0⟩ : Fields).wellFormed = false := by
  decide
theorem test_fields_fwd_pad : (⟨3, 0, 1, 0⟩ : Fields).wellFormed = false ∧ (⟨4, 0, 1, 0⟩ : Fields).wellFormed = false := by
  decide
theorem test_fields_enc_mode : (⟨5, 5, 0, 0⟩ : Fields).wellFormed = false ∧ (⟨6, 5, 0, 0⟩ : Fields).wellFormed = false := by
  decide
theorem test_fields_enc_pad : (⟨5, 0, 6, 0⟩ : Fields).wellFormed = false ∧ (⟨6, 2, 6, 0⟩ : Fields).wellFormed = false := by
  decide
theorem test_params_wellFormed : Params.reference.wellFormed = true ∧ (⟨1, 4⟩ : Params).wellFormed = true ∧
    (⟨63, 2 ^ 24⟩ : Params).wellFormed = true := by decide
theorem test_params_blockWords :
    (⟨0, 256⟩ : Params).wellFormed = false ∧ (⟨64, 256⟩ : Params).wellFormed = false := by decide
theorem test_params_bufBytes :
    (⟨4, 0⟩ : Params).wellFormed = false ∧ (⟨4, 2 ^ 24 + 4⟩ : Params).wellFormed = false := by decide
theorem test_params_bufBytes_multiple : (⟨4, 254⟩ : Params).wellFormed = false := by decide

/-! ## Decoding (R89, and the illegal words of spec/95 L2.1) -/

theorem test_decode_pad :
    decode 0x00000001 = .command .padNone ∧ decode 0x00000101 = .command .padZero ∧
    decode 0x00000201 = .command .padIso7816 ∧ decode 0x00000301 = .command .padX923 ∧
    decode 0x00000401 = .command .padIso10126 ∧ decode 0x00000501 = .command .padPkcs7 := by decide
theorem test_decode_unpad :
    decode 0x00000002 = .command .unpadNone ∧ decode 0x00000102 = .command .unpadZero ∧
    decode 0x00000202 = .command .unpadIso7816 ∧ decode 0x00000302 = .command .unpadX923 ∧
    decode 0x00000402 = .command .unpadIso10126 ∧ decode 0x00000502 = .command .unpadPkcs7 := by decide
theorem test_decode_fwd :
    decode 0x00000003 = .command .fwdEcb ∧ decode 0x00000013 = .command .fwdCbc ∧ decode 0x00000023 = .command .fwdCfb ∧
    decode 0x00000033 = .command .fwdOfb ∧ decode 0x00000043 = .command .fwdCtr := by decide
theorem test_decode_inv :
    decode 0x00000004 = .command .invEcb ∧ decode 0x00000014 = .command .invCbc ∧ decode 0x00000024 = .command .invCfb ∧
    decode 0x00000034 = .command .invOfb ∧ decode 0x00000044 = .command .invCtr := by decide
theorem test_decode_enc :
    decode 0x00000205 = .command (.encEcb .iso7816) ∧ decode 0x00000515 = .command (.encCbc .pkcs7) ∧
    decode 0x00000525 = .command (.encCfb .pkcs7) ∧ decode 0x00000035 = .command (.encOfb .nopad) ∧
    decode 0x00000145 = .command (.encCtr .zero) := by decide
theorem test_decode_dec :
    decode 0x00000406 = .command (.decEcb .iso10126) ∧ decode 0x00000016 = .command (.decCbc .nopad) ∧
    decode 0x00000326 = .command (.decCfb .x923) ∧ decode 0x00000036 = .command (.decOfb .nopad) ∧
    decode 0x00000246 = .command (.decCtr .iso7816) := by decide
/-- RSV 31:12, PAD 11:8, MODE 7:4, OP 3:0, bit by bit (R80). -/
theorem test_decode_bits :
    decode 0b00000000000000000000001100000001 = .command .padX923 ∧
    decode 0b00000000000000000000010000000010 = .command .unpadIso10126 ∧
    decode 0b00000000000000000000000000110011 = .command .fwdOfb ∧
    decode 0b00000000000000000000000000100100 = .command .invCfb ∧
    decode 0b00000000000000000000000100010101 = .command (.encCbc .zero) ∧
    decode 0b00000000000000000000001001000110 = .command (.decCtr .iso7816) := by decide
theorem test_decode_illegal :
    decode 0x00000625 = .illegal .padReserved ∧ decode 0x00000011 = .illegal .modeNotZero ∧
    decode 0x00000103 = .illegal .padNotZero ∧ decode 0x00000053 = .illegal .modeReserved ∧
    decode 0x00000601 = .illegal .padReserved ∧ decode 0x00001005 = .illegal .rsvSet ∧
    decode 0x80000001 = .illegal .rsvSet ∧ decode 0x00000000 = .illegal .opReserved ∧
    decode 0x00000007 = .illegal .opReserved ∧ decode 0x0000000F = .illegal .opReserved := by decide
theorem test_encode :
    encode .unpadPkcs7 = 0x00000502 ∧ encode .invCtr = 0x00000044 ∧ encode (.encCbc .iso7816) = 0x00000215 ∧
    encode (.decEcb .pkcs7) = 0x00000506 := by decide
theorem test_decodeTableWord :
    decodeTableWord 32 0x00000545 = some (.encCtr .pkcs7) ∧ decodeTableWord 32 0x00000625 = none := by decide
/-- From the text: the default of R91, a suffix, the refusal of R92, and a text that is no mnemonic. -/
theorem test_assembleText :
    assembleText "ENC.CBC" = some 0x00000215 ∧ assembleText "DEC.ECB.PKCS7" = some 0x00000506 ∧
    assembleText "ENC.CFB.PKCS7" = none ∧ assembleText "enc.cbc" = none := by decide
/-- `ENC.CBC` assembles to 0x00000215, `ENC.CTR.PKCS7` is refused (R91, R92). -/
theorem test_assemble :
    assemble (.enc .cbc none) = some (.encCbc .iso7816) ∧ assemble (.enc .ctr (some .pkcs7)) = none ∧
    spellingText (.dec .ecb (some .x923)) = "DEC.ECB.X923" := by decide

/-! ## The test cipher of spec/95 section 0 -/

/-- TOY's K. -/
def toyKey (j : Nat) : Byte := toByte (0x11 * j)

/-- TOY: rotate left by one byte and XOR with K; its inverse. -/
def toy : Cipher where
  enc _ _ x j := byteOf x ((j + 1) % 16) ^^^ toyKey j
  dec _ _ y j := byteOf y ((j + 15) % 16) ^^^ toyKey ((j + 15) % 16)

/-- The bytes `a`, `a + 1`, … -/
def upFrom (a n : Nat) : List Byte := (List.range n).map fun j => toByte (a + j)

/-- Consecutive written bytes of DATA. -/
def cells (i : Nat) (v : List Byte) : List Host.Cell := (List.range v.length).map fun j => (i + j, byteOf v j)

/-- The reference build just after reset with `v` loaded and LEN its length, as LOADIV and LOAD would. -/
def loaded (v : List Byte) (iv : List Byte := upFrom 0xF0 16) (ivvalid : BitVec 64 := 0xF) : State :=
  { State.reset with data := cells 0 v, len := toWord v.length, iv := iv, ivvalid := ivvalid }

/-- What the host sees of a next state: LEN, the written bytes of DATA, STATUS, ERRINFO. -/
def seen (o : Host.Outcome State Fault Refusal) : Option (Nat × List Byte × Word × Word) :=
  match o with
  | .next t => some (t.length, t.data.map (·.2), t.statusWord, t.errinfo)
  | _ => none

/-! ## PAD (spec/95 L2.2) -/

theorem test_pad_none :
    seen (exec .padNone (loaded (List.replicate 13 0x41))) =
    some (13, List.replicate 13 0x41, 0x00000002, 0) := by decide
theorem test_pad_zero :
    seen (exec .padZero (loaded (List.replicate 13 0x41))) =
    some (16, List.replicate 13 0x41 ++ List.replicate 3 0x00, 0x00000002, 0) := by decide
theorem test_pad_zero_aligned :
    seen (exec .padZero (loaded (List.replicate 16 0x41))) =
    some (16, List.replicate 16 0x41, 0x00000002, 0) := by decide
theorem test_pad_iso7816 :
    seen (exec .padIso7816 (loaded (List.replicate 13 0x41))) =
    some (16, List.replicate 13 0x41 ++ [0x80, 0, 0], 0x00000002, 0) := by decide
/-- L1.3. -/
theorem test_pad_iso7816_aligned :
    seen (exec .padIso7816 (loaded (List.replicate 16 0x41))) =
    some (32, List.replicate 16 0x41 ++ [0x80] ++ List.replicate 15 0x00, 0x00000002, 0) := by decide
theorem test_pad_x923 :
    seen (exec .padX923 (loaded (List.replicate 13 0x41))) =
    some (16, List.replicate 13 0x41 ++ [0, 0, 3], 0x00000002, 0) := by decide
/-- No draw is made (L2.2). -/
theorem test_pad_iso10126 :
    seen (exec .padIso10126 (loaded (List.replicate 15 0x41))) =
    some (16, List.replicate 15 0x41 ++ [1], 0x00000002, 0) := by decide
theorem test_pad_iso10126_full :
    seen (exec .padIso10126 { State.resetOf ⟨1, 16⟩ with data := cells 0 (upFrom 1 16), len := 16 }) =
    some (16, upFrom 1 16, 0x00001304, 20) := by decide
/-- L1.2. -/
theorem test_pad_pkcs7_empty :
    seen (exec .padPkcs7 (loaded [])) =
    some (16, List.replicate 16 0x10, 0x00000002, 0) := by decide
/-- B = 4 (L2.2). -/
theorem test_pad_pkcs7_small_build :
    seen (exec .padPkcs7 { State.resetOf ⟨1, 16⟩ with data := cells 0 [1, 2, 3, 4], len := 4 }) =
    some (8, [1, 2, 3, 4, 4, 4, 4, 4], 0x00000002, 0) := by decide

/-! ## UNPAD (spec/95 L2.3) -/

theorem test_unpad_none :
    seen (exec .unpadNone (loaded (List.replicate 5 0x41))) =
    some (5, List.replicate 5 0x41, 0x00000002, 0) := by decide
/-- The strip crosses a block boundary. -/
theorem test_unpad_zero :
    seen (exec .unpadZero (loaded (List.replicate 13 0x41 ++ List.replicate 19 0x00))) =
    some (13, List.replicate 13 0x41 ++ List.replicate 19 0x00, 0x00000002, 0) := by decide
theorem test_unpad_zero_stops :
    seen (exec .unpadZero (loaded ([0x41, 0x00, 0x41]))) =
    some (3, [0x41, 0x00, 0x41], 0x00000002, 0) := by decide
theorem test_unpad_iso7816 :
    seen (exec .unpadIso7816 (loaded (List.replicate 5 0x41 ++ [0x80] ++ List.replicate 10 0x00))) =
    some (5, List.replicate 5 0x41 ++ [0x80] ++ List.replicate 10 0x00, 0x00000002, 0) := by decide
/-- The scan stops after one block. -/
theorem test_unpad_iso7816_one_block :
    seen (exec .unpadIso7816 (loaded (List.replicate 15 0x41 ++ [0x80] ++ List.replicate 16 0x00))) =
    some (32, List.replicate 15 0x41 ++ [0x80] ++ List.replicate 16 0x00, 0x00000404, 16) := by decide
theorem test_unpad_x923 :
    seen (exec .unpadX923 (loaded (List.replicate 13 0x41 ++ [0, 0, 3]))) =
    some (13, List.replicate 13 0x41 ++ [0, 0, 3], 0x00000002, 0) := by decide
theorem test_unpad_x923_filler :
    seen (exec .unpadX923 (loaded (List.replicate 12 0x41 ++ [5, 0, 0, 4]))) =
    some (16, List.replicate 12 0x41 ++ [5, 0, 0, 4], 0x00000304, 12) := by decide
theorem test_unpad_iso10126 :
    seen (exec .unpadIso10126 (loaded (List.replicate 13 0x41 ++ [0x9C, 0x2E, 3]))) =
    some (13, List.replicate 13 0x41 ++ [0x9C, 0x2E, 3], 0x00000002, 0) := by decide
theorem test_unpad_iso10126_overflow :
    seen (exec .unpadIso10126 (loaded (List.replicate 15 0x41 ++ [0x11]))) =
    some (16, List.replicate 15 0x41 ++ [0x11], 0x00000204, 15) := by decide
theorem test_unpad_pkcs7 :
    seen (exec .unpadPkcs7 (loaded (List.replicate 16 0x10))) =
    some (0, List.replicate 16 0x10, 0x00000002, 0) := by decide
/-- The check runs downward: 13 fails before 12. -/
theorem test_unpad_pkcs7_downward :
    seen (exec .unpadPkcs7 (loaded (List.replicate 12 0x41 ++ [0, 0, 4, 4]))) =
    some (16, List.replicate 12 0x41 ++ [0, 0, 4, 4], 0x00000304, 13) := by decide

/-! ## FWD and INV with TOY (spec/95 L2.4, L2.5, L2.8, L2.9) -/

/-- FWD.ECB of P32 (L2.4). -/
def ecbOut : List Byte :=
  [0x01, 0x13, 0x21, 0x37, 0x41, 0x53, 0x61, 0x7F, 0x81, 0x93, 0xA1, 0xB7, 0xC1, 0xD3, 0xE1, 0xFF] ++
  [0x11, 0x03, 0x31, 0x27, 0x51, 0x43, 0x71, 0x6F, 0x91, 0x83, 0xB1, 0xA7, 0xD1, 0xC3, 0xF1, 0xEF]

/-- FWD.CBC of P32 (L2.5). -/
def cbcOut : List Byte :=
  [0xF0, 0xE1, 0xD2, 0xC3, 0xB4, 0xA5, 0x96, 0x87, 0x78, 0x69, 0x5A, 0x4B, 0x3C, 0x2D, 0x1E, 0x0F] ++
  [0xF0, 0xD1, 0xF2, 0x93, 0xF4, 0xD5, 0xF6, 0x17, 0xF8, 0xD9, 0xFA, 0x9B, 0xFC, 0xDD, 0xFE, 0x1F]

/-- FWD.CFB of the first 20 bytes (L2.9). -/
def cfbOut : List Byte :=
  [0xF1, 0xE2, 0xD3, 0xC4, 0xB5, 0xA6, 0x97, 0x88, 0x79, 0x6A, 0x5B, 0x4C, 0x3D, 0x2E, 0x1F, 0x00] ++
  [0xF2, 0xD3, 0xF4, 0x95]

/-- FWD.OFB of the first 20 bytes (L2.9). -/
def ofbOut : List Byte :=
  [0xF1, 0xE2, 0xD3, 0xC4, 0xB5, 0xA6, 0x97, 0x88, 0x79, 0x6A, 0x5B, 0x4C, 0x3D, 0x2E, 0x1F, 0x00] ++
  [0xF3, 0xD1, 0xF7, 0x91]

/-- FWD.CTR of the first 20 bytes (L2.9). -/
def ctrOut : List Byte :=
  [0xF1, 0xE2, 0xD3, 0xC4, 0xB5, 0xA6, 0x97, 0x88, 0x79, 0x6A, 0x5B, 0x4C, 0x3D, 0x2E, 0x1F, 0x00] ++
  [0xE1, 0xF2, 0xC3, 0xD4]

/-- ECB makes no IV check. -/
theorem test_fwd_ecb :
    seen (execWith toy .fwdEcb (loaded (upFrom 0 32) [] 0)) =
    some (32, ecbOut, 0x00000002, 0) := by decide
theorem test_fwd_ecb_unaligned :
    seen (execWith toy .fwdEcb (loaded (upFrom 0 20))) =
    some (20, upFrom 0 20, 0x00001204, 20) := by decide
theorem test_inv_ecb : seen (execWith toy .invEcb (loaded ecbOut)) = some (32, upFrom 0 32, 0x00000002, 0) := by decide
theorem test_fwd_cbc : seen (execWith toy .fwdCbc (loaded (upFrom 0 32))) = some (32, cbcOut, 0x00000002, 0) := by decide
/-- The IV check is made even for LEN 0. -/
theorem test_fwd_cbc_empty_no_iv : seen (execWith toy .fwdCbc (loaded [] [] 0)) = some (0, [], 0x00001104, 0) := by decide
theorem test_inv_cbc : seen (execWith toy .invCbc (loaded cbcOut)) = some (32, upFrom 0 32, 0x00000002, 0) := by decide
/-- L2.8: one bit of ciphertext block 1 changes plaintext blocks 1 and 2 only. -/
theorem test_inv_cbc_propagation :
    seen (execWith toy .invCbc (loaded ((cbcOut.set 16 0xF1) ++
      [0xF0, 0xC1, 0x92, 0xE3, 0xB4, 0x85, 0x56, 0xA7, 0x78, 0x49, 0x1A, 0x6B, 0x3C, 0x0D, 0xDE, 0x2F]))) =
    some (48, upFrom 0 16 ++ [0x10, 0x10] ++ upFrom 0x12 14 ++ [0x21] ++ upFrom 0x21 15, 0x00000002, 0) := by decide
theorem test_fwd_cfb : seen (execWith toy .fwdCfb (loaded (upFrom 0 20))) = some (20, cfbOut, 0x00000002, 0) := by decide
theorem test_inv_cfb : seen (execWith toy .invCfb (loaded cfbOut)) = some (20, upFrom 0 20, 0x00000002, 0) := by decide
theorem test_fwd_ofb : seen (execWith toy .fwdOfb (loaded (upFrom 0 20))) = some (20, ofbOut, 0x00000002, 0) := by decide
theorem test_inv_ofb : seen (execWith toy .invOfb (loaded ofbOut)) = some (20, upFrom 0 20, 0x00000002, 0) := by decide
theorem test_fwd_ctr : seen (execWith toy .fwdCtr (loaded (upFrom 0 20))) = some (20, ctrOut, 0x00000002, 0) := by decide
theorem test_fwd_ctr_no_iv :
    seen (execWith toy .fwdCtr (loaded (List.replicate 16 0x00) (upFrom 0xF0 16) 0xE)) =
    some (16, List.replicate 16 0x00, 0x00001104, 14) := by decide
theorem test_inv_ctr : seen (execWith toy .invCtr (loaded ctrOut)) = some (20, upFrom 0 20, 0x00000002, 0) := by decide

/-! ## ENC and DEC with TOY (spec/95 L1.7, L2.5, L2.6, L2.9, P5) -/

theorem test_enc_ecb :
    seen (execWith toy (.encEcb .iso7816) (loaded [] [] 0)) =
    some (16, [0x00, 0x11, 0x22, 0x33, 0x44, 0x55, 0x66, 0x77, 0x88, 0x99, 0xAA, 0xBB, 0xCC, 0xDD, 0xEE, 0x7F], 0x00000002, 0) := by decide
theorem test_enc_ecb_overflow :
    seen (execWith toy (.encEcb .pkcs7) { State.resetOf ⟨1, 16⟩ with data := cells 0 (upFrom 1 16), len := 16 }) =
    some (16, upFrom 1 16, 0x00001304, 20) := by decide
theorem test_dec_ecb :
    seen (execWith toy (.decEcb .iso7816) (loaded [0x00, 0x11, 0x22, 0x33, 0x44, 0x55, 0x66, 0x77, 0x88, 0x99, 0xAA, 0xBB, 0xCC, 0xDD, 0xEE, 0x7F])) =
    some (0, [0x80] ++ List.replicate 15 0x00, 0x00000002, 0) := by decide
/-- L1.7: the decrypted block stands in DATA. -/
theorem test_dec_ecb_fault_after_write :
    seen (execWith toy (.decEcb .pkcs7) (loaded [0x41, 0x50, 0x63, 0x72, 0x05, 0x14, 0x27, 0x36, 0xC9, 0xD8, 0xEB, 0xFA, 0x8D, 0x9C, 0xFF, 0xBE])) =
    some (16, List.replicate 15 0x41 ++ [0x11], 0x00000204, 15) := by decide
theorem test_enc_cbc :
    seen (execWith toy (.encCbc .pkcs7) (loaded [0x48, 0x65, 0x6C, 0x6C, 0x6F])) =
    some (16, [0x94, 0x8F, 0xBD, 0xA8, 0xBA, 0xA8, 0x9A, 0x84, 0x7A, 0x68, 0x5A, 0x4C, 0x3A, 0x28, 0x1A, 0x47], 0x00000002, 0) := by decide
theorem test_enc_cbc_iv_first :
    seen (execWith toy (.encCbc .nopad) (loaded [0x48, 0x65, 0x6C, 0x6C, 0x6F] (upFrom 0xF0 16) 7)) =
    some (5, [0x48, 0x65, 0x6C, 0x6C, 0x6F], 0x00001104, 7) := by decide
/-- The removed bytes stay in DATA. -/
theorem test_dec_cbc :
    seen (execWith toy (.decCbc .pkcs7) (loaded [0x94, 0x8F, 0xBD, 0xA8, 0xBA, 0xA8, 0x9A, 0x84, 0x7A, 0x68, 0x5A, 0x4C, 0x3A, 0x28, 0x1A, 0x47])) =
    some (5, [0x48, 0x65, 0x6C, 0x6C, 0x6F] ++ List.replicate 11 0x0B, 0x00000002, 0) := by decide
/-- P5. -/
theorem test_enc_cfb :
    seen (execWith toy (.encCfb .nopad) (loaded [0x48, 0x69, 0x21])) =
    some (3, [0xB9, 0x8A, 0xF0], 0x00000002, 0) := by decide
theorem test_dec_cfb :
    seen (execWith toy (.decCfb .nopad) (loaded cfbOut)) =
    some (20, upFrom 0 20, 0x00000002, 0) := by decide
theorem test_enc_ofb :
    seen (execWith toy (.encOfb .nopad) (loaded (upFrom 0 20))) =
    some (20, ofbOut, 0x00000002, 0) := by decide
theorem test_dec_ofb :
    seen (execWith toy (.decOfb .x923) (loaded ofbOut)) =
    some (20, upFrom 0 20, 0x00000002, 0) := by decide
/-- L1.4, L2.9: block 1's counter carries; the PAD field is ignored. -/
theorem test_enc_ctr_carry :
    seen (execWith toy (.encCtr .pkcs7) (loaded (List.replicate 32 0) (List.replicate 15 0 ++ [0xFF]))) =
    some (32, [0x00, 0x11, 0x22, 0x33, 0x44, 0x55, 0x66, 0x77, 0x88, 0x99, 0xAA, 0xBB, 0xCC, 0xDD, 0x11, 0xFF] ++
      [0x00, 0x11, 0x22, 0x33, 0x44, 0x55, 0x66, 0x77, 0x88, 0x99, 0xAA, 0xBB, 0xCC, 0xDC, 0xEE, 0xFF], 0x00000002, 0) := by decide
theorem test_dec_ctr :
    seen (execWith toy (.decCtr .nopad) (loaded ctrOut)) =
    some (20, upFrom 0 20, 0x00000002, 0) := by decide
/-- The counter table of L2.9 (bytes 11 to 15), and B = 4. -/
theorem test_ctrInc :
    ctrInc 16 (List.replicate 11 0 ++ [0, 0, 0, 0xFE, 0xFF]) = List.replicate 11 0 ++ [0, 0, 0, 0xFF, 0x00] ∧
    ctrInc 16 (List.replicate 11 0 ++ [0, 0, 0xFF, 0xFF, 0xFF]) = List.replicate 11 0 ++ [0, 1, 0, 0, 0] ∧
    ctrInc 16 (List.replicate 11 0 ++ [7, 0xFF, 0xFF, 0xFF, 0xFF]) = List.replicate 11 0 ++ [7, 0, 0, 0, 0] ∧
    ctrInc 4 [0, 0, 0, 0xFF] = [0, 0, 1, 0] := by decide

/-- During the byte loop of block 1 of CTR, IDX is the index of the byte (R21): after bytes 16 to 19 of DATA it is 19. -/
theorem test_ctr_idx : (ctrBytes 16 4 0 (loaded (upFrom 0 20))).idx = 19 := by decide
/-- A word of which bytes 1 and 3 alone are written (R71): the others are draws. -/
theorem test_read_half_written :
    (hostRead 0x1000 4 { State.reset with data := [(1, 5), (3, 7)] }).rdata =
      Config.draw 0 ++ (5 : Byte) ++ Config.draw 1 ++ (7 : Byte) := rfl

/-! ## The host interface (spec/95 L2.10, L2.1, P6) -/

theorem test_read_info_cap : (hostRead 0x000 4 .reset).rdata = 4 ∧ (hostRead 0x004 4 .reset).rdata = 0x100 := by decide
theorem test_read_unmapped : (hostRead 0x028 4 .reset).rdata = 0 ∧ (hostRead 0x028 4 .reset).hosterr = true := by decide
theorem test_write_errors :
    (hostWrite 0x000 4 5 .reset).hosterr = true ∧ (hostWrite 0x016 4 5 .reset).hosterr = true ∧
    (hostWrite 0x014 4 257 .reset).hosterr = true ∧ (hostWrite 0x014 4 257 .reset).len = 0 ∧
    (hostWrite 0x014 2 1 .reset).hosterr = true := by decide
theorem test_write_len : hostWrite 0x014 4 256 .reset = { State.reset with len := 256 } := by decide
theorem test_write_data :
    (hostWrite 0x1000 4 0x48656C6C .reset).data = [(0, 0x48), (1, 0x65), (2, 0x6C), (3, 0x6C)] := by decide
theorem test_write_iv :
    (hostWrite 0x100 4 0xF0F1F2F3 .reset).iv.take 4 = [0xF0, 0xF1, 0xF2, 0xF3] ∧
    (hostWrite 0x100 4 0xF0F1F2F3 .reset).ivvalid = 1 := by decide
theorem test_clear_done :
    (hostWrite 0x00C 4 2 { State.reset with done := true }).statusWord = 0 ∧
    hostWrite 0x00C 4 1 { State.reset with done := true } = { State.reset with done := true } := by decide
theorem test_irq :
    ({ State.reset with doneIe := true, done := true } : State).irq = true ∧
    ({ State.reset with errIe := true, done := true } : State).irq = false := by decide
theorem test_issue_illegal :
    (hostWrite 0x008 4 0x601 .reset).statusWord = 0x00001004 ∧ (hostWrite 0x008 4 0x601 .reset).errinfo = 0x601 ∧
    (hostWrite 0x008 4 0x601 .reset).lastcmd = 0x601 := by decide
theorem test_issue : (hostWrite 0x008 4 0x501 .reset).statusWord = 1 ∧ (hostWrite 0x008 4 0x501 .reset).cur = 0x501 := by
  decide
theorem test_step_fetched : seen (step (State.reset.withFetchWord 32 0x501)) = some (16, List.replicate 16 0x10, 2, 0) := by
  decide

/-! ## Witnesses: states and operands that meet the hypotheses of the statements

`box` is the smallest build that shows everything: B = 4, BUF_BYTES = 16, one IV word. Each witness lists the hypotheses of its
statement, clause by clause, at values where the clause begins or ends. -/

/-- A build with `v` loaded, LEN its length. -/
def boxOf (p : Params) (v : List Byte) : State :=
  { State.resetOf p with data := cells 0 v, len := toWord v.length, iv := [0x10, 0x20, 0x30, 0x40], ivvalid := 1 }

/-- The build of B = 4 and BUF_BYTES = 16 with `v` loaded. -/
def box (v : List Byte) : State := boxOf ⟨1, 16⟩ v

/-- The same without an IV. -/
def noIv (v : List Byte) : State := { box v with ivvalid := 0 }

/-- LEN 4 with the IV loaded and no byte of DATA written. -/
def unfilled : State := { box [] with len := 4 }

/-- The same build with a command issued and not yet run. -/
def running (i : Instr) (v : List Byte) : State := (box v).started (encode i)

theorem running_inv : (running .padPkcs7 [1, 2, 3]).Inv where
  build := by decide
  len_le := by decide
  idx_le := by decide
  iv_length := by decide
  work_length := by decide
  save_length := by decide
  ivvalid_high := by decide
  data_wf := by decide
  data_within := by decide
  not_both := by decide
  busy_clear := by decide
  errcode_iff := by decide
  errcode_legal := by decide
  errinfo_zero := by decide
  busy_cur := by decide

/-- TOY satisfies R12's property (spec/95 section 0). -/
theorem toy_inverse (key : Nat) : toy.Inverse 16 key := by
  intro x hx
  have at_map : ∀ (f : Nat → Byte) j, j < 16 → byteOf ((List.range 16).map f) j = f j := by
    intro f j hj
    rw [byteOf_eq_getElem (by simpa using hj)]
    simp
  apply eq_of_byteOf
  · simp [Cipher.decBlock, hx]
  · intro j hj
    have hj : j < 16 := by simpa [Cipher.decBlock] using hj
    have h1 : (j + 15) % 16 < 16 := Nat.mod_lt _ (by decide)
    have h2 : ((j + 15) % 16 + 1) % 16 = j := by omega
    simp only [Cipher.decBlock, Cipher.encBlock, toy, at_map _ j hj, at_map _ _ h1, h2]
    rw [BitVec.xor_assoc, BitVec.xor_self, BitVec.xor_zero]

theorem witness_DecodeIsTheOpcodeTable : ∃ r ∈ tableRows, r.matches 0x00000505 :=
  ⟨⟨0xFFFFF0FF, 0x00000005, .encEcb⟩, List.mem_of_getElem? (i := 22) rfl, by unfold TableRow.matches; decide⟩

theorem witness_IllegalWordsCompleteAtIssue :
    State.reset.phase = .idle ∧ isCommand (decode 0x00000000) = false ∧ isCommand (decode 0x00000007) = false ∧
    isCommand (decode 0x00001005) = false ∧ isCommand (decode 0x00000053) = false ∧ isCommand (decode 0x00000011) = false ∧
    isCommand (decode 0x00000625) = false ∧ isCommand (decode 0x00000103) = false := by decide

theorem witness_AssemblerDefaults :
    isBlockMode .ecb = true ∧ isBlockMode .cbc = true ∧ isBlockMode .cfb = false ∧ isBlockMode .ctr = false := by decide

theorem witness_StepRunsTheLatchedCommand :
    ((running .padPkcs7 [1]).phase = .busy ∧ decode (running .padPkcs7 [1]).cur = .command .padPkcs7 ∧
      (running .padPkcs7 [1]).inputs = []) ∧
    (({ running .padPkcs7 [1] with inputs := [.engine, .reset] } : State).phase = .busy ∧
      ({ running .padPkcs7 [1] with inputs := [.engine, .reset] } : State).inputs = .engine :: [.reset]) ∧
    decodeTableWord 32 0x00000505 = some (.encEcb .pkcs7) ∧
    (State.reset.phase = .idle ∧ State.reset.inputs = []) := by decide

theorem witness_StepTakesTheFirstInput :
    ({ State.reset with inputs := [.read 0 4] } : State).inputs = .read 0 4 :: [] ∧
    ({ State.reset with inputs := [.write 8 4 1] } : State).inputs = .write 8 4 1 :: [] ∧
    ({ State.reset with inputs := [.rekey 1] } : State).inputs = .rekey 1 :: [] ∧
    ({ State.reset with inputs := [.ports false true] } : State).inputs = .ports false true :: [] ∧
    (({ State.reset with inputs := [.engine] } : State).phase = .idle ∧
      ({ State.reset with inputs := [.engine] } : State).inputs = .engine :: []) := by decide

theorem witness_ResetLeavesTheStatedValues :
    (⟨1, 4⟩ : Params).wellFormed = true ∧ (⟨63, 2 ^ 24⟩ : Params).wellFormed = true ∧ 4 * 0 < 4 ∧
    4 * (2 ^ 22 - 1) < 2 ^ 24 ∧ 0 < 1 ∧ 62 < 63 := by decide

theorem witness_ResetMeetsTheInvariant : (⟨1, 4⟩ : Params).wellFormed = true ∧ (⟨63, 2 ^ 24⟩ : Params).wellFormed = true := by
  decide

theorem witness_StepKeepsTheInvariant :
    (running .padPkcs7 [1, 2, 3]).Inv ∧ ∃ t, step (running .padPkcs7 [1, 2, 3]) = .next t := ⟨running_inv, _, rfl⟩

theorem witness_StepAlwaysAnswers : (running .padPkcs7 [1, 2, 3]).Inv := running_inv

theorem witness_ResetInputAbandonsTheCommand :
    ({ running .fwdEcb [1, 2, 3, 4] with inputs := [.reset] } : State).inputs = .reset :: [] := by decide

theorem witness_BusyCommandCompletes :
    (running .padPkcs7 [1, 2, 3]).Inv ∧ (running .padPkcs7 [1, 2, 3]).phase = .busy ∧
    (running .padPkcs7 [1, 2, 3]).cipherUp = true ∧ (running .padPkcs7 [1, 2, 3]).randomUp = true ∧
    (running .padPkcs7 [1, 2, 3]).inputs = [] := ⟨running_inv, by decide⟩

/-- Clause 1 at one whole block in CBC and at one byte in CFB; clause 2 where the padded buffer just fits; clause 3 where one
random byte is asked for. -/
theorem witness_SilentPortKeepsBusy :
    (({ box [1, 2, 3, 4] with cipherUp := false } : State).legal = true ∧
      ({ box [1, 2, 3, 4] with cipherUp := false } : State).ivReady .cbc ∧ LengthFits .cbc 4 4 ∧
      0 < ({ box [1, 2, 3, 4] with cipherUp := false } : State).length ∧
      ({ box [1, 2, 3, 4] with cipherUp := false } : State).cipherUp = false) ∧
    (({ box [1] with cipherUp := false } : State).legal = true ∧ ({ box [1] with cipherUp := false } : State).ivReady .cfb ∧ LengthFits .cfb 4 1 ∧
      0 < ({ box [1] with cipherUp := false } : State).length) ∧
    (({ box (upFrom 1 12) with cipherUp := false } : State).legal = true ∧
      ({ box (upFrom 1 12) with cipherUp := false } : State).ivReady .cbc ∧
      0 < paddedLength (effPad .cbc .pkcs7) 4 12 ∧ paddedLength (effPad .cbc .pkcs7) 4 12 ≤ 16 ∧ LengthFits .cbc 4 (paddedLength (effPad .cbc .pkcs7) 4 12)) ∧
    (({ box [] with cipherUp := false } : State).legal = true ∧ 0 < paddedLength (effPad .ecb .iso7816) 4 0 ∧
      paddedLength (effPad .ecb .iso7816) 4 0 ≤ 16 ∧ LengthFits .ecb 4 (paddedLength (effPad .ecb .iso7816) 4 0)) ∧
    (({ box (upFrom 1 14) with randomUp := false } : State).legal = true ∧ 14 + requiredPad 4 14 ≤ 16 ∧
      2 ≤ requiredPad 4 14 ∧ ({ box (upFrom 1 14) with randomUp := false } : State).randomUp = false ∧
      ({ box (upFrom 1 14) with randomUp := false } : State).ivReady .cbc) :=
  ⟨⟨by decide, fun _ => by decide, fun _ => by decide, by decide, by decide⟩, ⟨by decide, fun _ => by decide, nofun, by decide⟩,
    ⟨by decide, fun _ => by decide, by decide, by decide, fun _ => by decide⟩,
    ⟨by decide, by decide, by decide, fun _ => by decide⟩, by decide, by decide, by decide, by decide, fun _ => by decide⟩

theorem witness_EveryCommandEnds :
    (box []).legal = true ∧ (box (upFrom 1 16)).legal = true ∧ (box []).cipherUp = true ∧ (box []).randomUp = true := by decide

/-- A command that completes, one that raises, one that waits. -/
theorem witness_CommandFrame :
    (∃ t, exec .padPkcs7 (box [1]) = .next t ∧ t.done = true) ∧
    (∃ t, exec .fwdCbc (noIv [1]) = .next t ∧ t.err = true) ∧
    (∃ t, exec .fwdEcb { box [1, 2, 3, 4] with cipherUp := false } = .next t) :=
  ⟨⟨_, rfl, rfl⟩, ⟨_, rfl, rfl⟩, _, rfl⟩

theorem witness_IvChangesOnlyByHostAndReset :
    (∃ t, step { State.reset with inputs := [.write 0x10C 4 5] } = .next t ∧ t.ivvalid = 8) ∧
    (∃ t, step { box [] with inputs := [.reset] } = .next t ∧ t.ivvalid = 0) ∧ (∃ t, step State.reset = .next t) :=
  ⟨⟨_, rfl, rfl⟩, ⟨_, rfl, rfl⟩, _, rfl⟩

theorem witness_NoPaddingDoesNothing : (box []).legal = true ∧ (box (upFrom 1 16)).legal = true := by decide

/-- Room at LEN 13 (three bytes) and at a full buffer (none); overflow in a build whose capacity is no multiple of B. -/
theorem witness_PadZeroAppends :
    ((box (upFrom 1 13)).legal = true ∧ 13 + (4 - 13 % 4) % 4 ≤ (box (upFrom 1 13)).bufBytes) ∧
    ((box (upFrom 1 16)).legal = true ∧ 16 + (4 - 16 % 4) % 4 ≤ (box (upFrom 1 16)).bufBytes) ∧
    ((boxOf ⟨2, 12⟩ (upFrom 1 9)).legal = true ∧ (boxOf ⟨2, 12⟩ (upFrom 1 9)).bufBytes < 9 + (8 - 9 % 8) % 8) := by decide

/-- Room up to the last byte from LEN 12 and from LEN 15; overflow at LEN 16. -/
theorem witness_PadIso7816Appends :
    ((box (upFrom 1 12)).legal = true ∧ 12 + (4 - 12 % 4) ≤ (box (upFrom 1 12)).bufBytes) ∧
    ((box (upFrom 1 15)).legal = true ∧ 15 + (4 - 15 % 4) ≤ (box (upFrom 1 15)).bufBytes) ∧
    ((box (upFrom 1 16)).legal = true ∧ (box (upFrom 1 16)).bufBytes < 16 + (4 - 16 % 4)) := by decide

theorem witness_PadX923Appends :
    ((box []).legal = true ∧ 0 + (4 - 0 % 4) ≤ (box []).bufBytes) ∧
    ((box (upFrom 1 15)).legal = true ∧ 15 + (4 - 15 % 4) ≤ (box (upFrom 1 15)).bufBytes) ∧
    ((box (upFrom 1 16)).legal = true ∧ (box (upFrom 1 16)).bufBytes < 16 + (4 - 16 % 4)) := by decide

/-- With the random port up, three draws; with it down, N = 1. -/
theorem witness_PadIso10126Appends :
    ((box (upFrom 1 12)).legal = true ∧ 12 + (4 - 12 % 4) ≤ (box (upFrom 1 12)).bufBytes ∧
      (box (upFrom 1 12)).randomUp = true) ∧
    (({ box (upFrom 1 15) with randomUp := false } : State).legal = true ∧ 15 + (4 - 15 % 4) ≤ 16 ∧ 4 - 15 % 4 = 1) ∧
    ((box (upFrom 1 16)).legal = true ∧ (box (upFrom 1 16)).bufBytes < 16 + (4 - 16 % 4)) := by decide

theorem witness_PadPkcs7Appends :
    ((box []).legal = true ∧ 0 + (4 - 0 % 4) ≤ (box []).bufBytes) ∧
    ((box (upFrom 1 15)).legal = true ∧ 15 + (4 - 15 % 4) ≤ (box (upFrom 1 15)).bufBytes) ∧
    ((box (upFrom 1 16)).legal = true ∧ (box (upFrom 1 16)).bufBytes < 16 + (4 - 16 % 4)) := by decide

/-- A legal state whose buffer holds `v`, every byte of it written. -/
def Ready (v : List Byte) : Prop := (box v).legal = true ∧ (box v).bufferIs v

theorem box_ready (v : List Byte) (h : (box v).legal = true ∧ v.length = (box v).length ∧
    ∀ i, i < (box v).length → (box v).byteAt i = some (byteOf v i)) : Ready v := h

/-- n = 1 of 4, and n = 0 of 1. -/
theorem witness_UnpadZeroStripsTrailingZeros :
    (Ready [0x41, 0, 0, 0] ∧ 1 ≤ 4 ∧
      (∀ i, 1 ≤ i → i < 4 → byteOf [0x41, 0, 0, 0] i = 0x00) ∧ byteOf [0x41, 0, 0, 0] (1 - 1) ≠ 0x00) ∧
    (Ready [0] ∧ (∀ i, 0 ≤ i → i < 1 → byteOf [0] i = 0x00)) :=
  ⟨⟨box_ready _ (by decide), by decide,
      fun i h1 h2 => (by decide : ∀ i, i < 4 → 1 ≤ i → byteOf [0x41, 0, 0, 0] i = 0x00) i h2 h1, by decide⟩,
    box_ready _ (by decide), fun i _ h2 => (by decide : ∀ i, i < 1 → byteOf [0] i = 0x00) i h2⟩

/-- The marker at the lowest index examined (j = m = 4); a wrong byte there; five bytes of which the last four are zeros;
the empty buffer. -/
theorem witness_UnpadIso7816RemovesTheMarker :
    (Ready [0x80, 0, 0, 0] ∧
      byteOf [0x80, 0, 0, 0] (4 - 4) = 0x80 ∧ ∀ k, k < 4 → 1 ≤ k → byteOf [0x80, 0, 0, 0] (4 - k) = 0x00) ∧
    (Ready [9, 0, 0, 0] ∧ byteOf [9, 0, 0, 0] (4 - 4) ≠ 0x80 ∧
      byteOf [9, 0, 0, 0] (4 - 4) ≠ 0x00 ∧ ∀ k, k < 4 → 1 ≤ k → byteOf [9, 0, 0, 0] (4 - k) = 0x00) ∧
    (Ready [9, 0, 0, 0, 0] ∧
      min (box [9, 0, 0, 0, 0]).length 4 = 4 ∧ ∀ k, k < 5 → 1 ≤ k → byteOf [9, 0, 0, 0, 0] (5 - k) = 0x00) ∧
    (Ready [] ∧ min (box []).length 4 = 0) :=
  ⟨⟨box_ready _ (by decide), by decide, by decide⟩, ⟨box_ready _ (by decide), by decide, by decide, by decide⟩,
    ⟨box_ready _ (by decide), by decide, by decide⟩, box_ready _ (by decide), by decide⟩

/-- L = 0; N = 0; N = 5 above B and N = 4 above L = 3; N = B = L with a wrong byte at L - N, and with none. -/
theorem witness_UnpadX923ChecksZeros :
    (Ready [] ∧ (box []).length = 0) ∧
    (Ready [0] ∧ 0 < (box [0]).length ∧ lastByte [0] = 0) ∧
    (Ready [7, 7, 7, 7, 5] ∧ 4 < lastByte [7, 7, 7, 7, 5]) ∧
    (Ready [7, 7, 4] ∧ (box [7, 7, 4]).length < lastByte [7, 7, 4]) ∧
    (Ready [9, 0, 0, 4] ∧ lastByte [9, 0, 0, 4] = 4 ∧ byteOf [9, 0, 0, 4] 0 ≠ 0x00 ∧
      ∀ j, j < 4 - 1 → 0 < j → byteOf [9, 0, 0, 4] j = 0x00) ∧
    (Ready [0, 0, 0, 4] ∧ lastByte [0, 0, 0, 4] = 4 ∧ ∀ i, i < 4 - 1 → byteOf [0, 0, 0, 4] i = 0x00) :=
  ⟨⟨box_ready _ (by decide), by decide⟩, ⟨box_ready _ (by decide), by decide, by decide⟩,
    ⟨box_ready _ (by decide), by decide⟩, ⟨box_ready _ (by decide), by decide⟩,
    ⟨box_ready _ (by decide), by decide, by decide, by decide⟩, box_ready _ (by decide), by decide, by decide⟩

theorem witness_UnpadIso10126TrustsTheLengthByte :
    (Ready [] ∧ (box []).length = 0) ∧
    (Ready [0] ∧ lastByte [0] = 0) ∧
    (Ready [7, 7, 7, 7, 5] ∧ 4 < lastByte [7, 7, 7, 7, 5]) ∧
    (Ready [7, 7, 4] ∧ (box [7, 7, 4]).length < lastByte [7, 7, 4]) ∧
    (Ready [9, 0, 0, 4] ∧ 0 < (box [9, 0, 0, 4]).length ∧ lastByte [9, 0, 0, 4] = 4) ∧
    (Ready [1] ∧ lastByte [1] = 1 ∧ (box [1]).length = 1) :=
  ⟨⟨box_ready _ (by decide), by decide⟩, ⟨box_ready _ (by decide), by decide⟩,
    ⟨box_ready _ (by decide), by decide⟩, ⟨box_ready _ (by decide), by decide⟩,
    ⟨box_ready _ (by decide), by decide, by decide⟩, box_ready _ (by decide), by decide, by decide⟩

theorem witness_UnpadPkcs7ChecksCopies :
    (Ready [] ∧ (box []).length = 0) ∧
    (Ready [0] ∧ lastByte [0] = 0) ∧
    (Ready [7, 7, 7, 7, 5] ∧ 4 < lastByte [7, 7, 7, 7, 5]) ∧
    (Ready [7, 7, 4] ∧ (box [7, 7, 4]).length < lastByte [7, 7, 4]) ∧
    (Ready [9, 4, 4, 4] ∧ lastByte [9, 4, 4, 4] = 4 ∧ (byteOf [9, 4, 4, 4] 0).toNat ≠ 4 ∧
      ∀ j, j < 4 - 1 → 0 < j → (byteOf [9, 4, 4, 4] j).toNat = 4) ∧
    (Ready [4, 4, 4, 4] ∧ lastByte [4, 4, 4, 4] = 4 ∧
      ∀ i, i < 4 - 1 → (byteOf [4, 4, 4, 4] i).toNat = 4) :=
  ⟨⟨box_ready _ (by decide), by decide⟩, ⟨box_ready _ (by decide), by decide⟩,
    ⟨box_ready _ (by decide), by decide⟩, ⟨box_ready _ (by decide), by decide⟩,
    ⟨box_ready _ (by decide), by decide, by decide, by decide⟩, box_ready _ (by decide), by decide, by decide⟩

/-- Unpads and UnpadFails are met; LEN 4 with nothing written is legal too. -/
theorem witness_UnpadAnswersOnce :
    Unpads .pkcs7 4 [4, 4, 4, 4] 0 ∧ UnpadFails .x923 4 [9, 0, 0, 4] .paddingByteMismatch 0 ∧
    ({ box [] with len := 4 } : State).legal = true :=
  ⟨⟨⟨by decide, by decide, by decide, by decide⟩, by decide,
      fun i _ h => (by decide : ∀ i, i < 3 → byteOf [4, 4, 4, 4] i = 4) i h⟩,
    .inr ⟨⟨by decide, by decide, by decide, by decide⟩, by decide, by decide, by decide,
      fun i h1 h2 => (by decide : ∀ i, i < 3 → 1 ≤ i → byteOf [9, 0, 0, 4] i = 0) i h2 h1, rfl⟩, by decide⟩

/-- LEN 3 is unaligned; LEN 16 is served; LEN 0 is served by a silent port. -/
theorem witness_FwdEcbEncryptsBlocks :
    ((box [1, 2, 3]).legal = true ∧ (box [1, 2, 3]).length % (box [1, 2, 3]).blockBytes ≠ 0) ∧
    ((box (upFrom 1 16)).legal = true ∧ (box (upFrom 1 16)).length % (box (upFrom 1 16)).blockBytes = 0 ∧
      (box (upFrom 1 16)).cipherServes) ∧
    (({ box [] with cipherUp := false } : State).legal = true ∧ ({ box [] with cipherUp := false } : State).cipherServes) :=
  ⟨by decide, ⟨by decide, by decide, .inr rfl, rfl⟩, by decide, .inl rfl, rfl⟩

/-- P32 of L2.4 as TOY encrypts it, for the round trip; then as for FWD.ECB. -/
theorem witness_InvEcbDecryptsBlocks :
    (toy.Inverse 16 (loaded (upFrom 0 32)).key ∧ (loaded (upFrom 0 32)).legal = true ∧
      (loaded (upFrom 0 32)).length % (loaded (upFrom 0 32)).blockBytes = 0 ∧ (loaded (upFrom 0 32)).cipherServes ∧
      (loaded (upFrom 0 32)).bufferIs (upFrom 0 32)) ∧
    ((box [1, 2, 3]).legal = true ∧ (box [1, 2, 3]).length % (box [1, 2, 3]).blockBytes ≠ 0) ∧
    ((box (upFrom 1 16)).legal = true ∧ (box (upFrom 1 16)).length % (box (upFrom 1 16)).blockBytes = 0 ∧
      (box (upFrom 1 16)).cipherServes) ∧
    (({ box [] with cipherUp := false } : State).legal = true ∧ ({ box [] with cipherUp := false } : State).cipherServes) :=
  ⟨⟨toy_inverse _, by decide, by decide, ⟨.inr rfl, rfl⟩, by decide, by decide⟩, by decide,
    ⟨by decide, by decide, .inr rfl, rfl⟩, by decide, .inl rfl, rfl⟩

theorem witness_FwdCbcChainsCiphertext :
    ((noIv []).legal = true ∧ (noIv []).ivComplete = false) ∧
    ((box [1, 2, 3]).legal = true ∧ (box [1, 2, 3]).ivComplete = true ∧
      (box [1, 2, 3]).length % (box [1, 2, 3]).blockBytes ≠ 0) ∧
    ((box (upFrom 1 16)).legal = true ∧ (box (upFrom 1 16)).ivComplete = true ∧
      (box (upFrom 1 16)).length % (box (upFrom 1 16)).blockBytes = 0 ∧ (box (upFrom 1 16)).cipherServes) :=
  ⟨by decide, by decide, by decide, by decide, by decide, .inr rfl, rfl⟩

theorem witness_InvCbcChainsCiphertext :
    ((noIv []).legal = true ∧ (noIv []).iv.length = (noIv []).blockBytes ∧ (noIv []).ivComplete = false) ∧
    ((box [1, 2, 3]).legal = true ∧ (box [1, 2, 3]).iv.length = (box [1, 2, 3]).blockBytes ∧
      (box [1, 2, 3]).ivComplete = true ∧ (box [1, 2, 3]).length % (box [1, 2, 3]).blockBytes ≠ 0) ∧
    ((box (upFrom 1 16)).legal = true ∧ (box (upFrom 1 16)).ivComplete = true ∧
      (box (upFrom 1 16)).length % (box (upFrom 1 16)).blockBytes = 0 ∧ (box (upFrom 1 16)).cipherServes) :=
  ⟨by decide, by decide, by decide, by decide, by decide, .inr rfl, rfl⟩

/-- No IV; LEN 3, which is no whole block. -/
theorem witness_CfbEncryptFeedsBackCiphertext :
    ((noIv [1]).legal = true ∧ (noIv [1]).ivComplete = false) ∧
    ((box [1, 2, 3]).legal = true ∧ (box [1, 2, 3]).ivComplete = true ∧ (box [1, 2, 3]).cipherServes) :=
  ⟨by decide, by decide, by decide, .inr rfl, rfl⟩

theorem witness_CfbDecryptFeedsBackCiphertext :
    ((noIv [1]).legal = true ∧ (noIv [1]).ivComplete = false) ∧
    ((box [1, 2, 3]).legal = true ∧ (box [1, 2, 3]).ivComplete = true ∧ (box [1, 2, 3]).cipherServes) :=
  ⟨by decide, by decide, by decide, .inr rfl, rfl⟩

theorem witness_OfbKeystreamIsTheIteratedCipher :
    ((noIv [1]).legal = true ∧ (noIv [1]).ivComplete = false) ∧
    ((box [1, 2, 3]).legal = true ∧ (box [1, 2, 3]).ivComplete = true ∧ (box [1, 2, 3]).cipherServes) :=
  ⟨by decide, by decide, by decide, .inr rfl, rfl⟩

theorem witness_CtrKeystreamIsTheEncryptedCounter :
    ((noIv [1]).legal = true ∧ (noIv [1]).ivComplete = false) ∧
    ((box [1, 2, 3]).legal = true ∧ (box [1, 2, 3]).ivComplete = true ∧ (box [1, 2, 3]).cipherServes) :=
  ⟨by decide, by decide, by decide, .inr rfl, rfl⟩

/-- The second clause at a command without an IV check that raises another error. -/
theorem witness_IvCheckComesFirst :
    ((noIv []).legal = true ∧ ivMode (.encCtr .pkcs7) ≠ none ∧ (noIv []).ivComplete = false) ∧
    (ivMode .fwdEcb = none ∧ (noIv [1]).err = false ∧ ∃ t, exec .fwdEcb (noIv [1]) = .next t ∧ t.err = true) :=
  ⟨by decide, by decide, by decide, _, rfl, rfl⟩

/-- Overflow at a full buffer; LEN 3 without padding; the padded buffer just fits; LEN 0 with ZERO needs no cipher. -/
theorem witness_EncEcbPadsThenEncrypts :
    ((box (upFrom 1 16)).legal = true ∧ (box (upFrom 1 16)).bufBytes < paddedLength .pkcs7 4 16) ∧
    ((box [1, 2, 3]).legal = true ∧ (box [1, 2, 3]).length % (box [1, 2, 3]).blockBytes ≠ 0) ∧
    ((box (upFrom 1 12)).legal = true ∧ paddedLength .iso10126 4 12 ≤ (box (upFrom 1 12)).bufBytes ∧
      (box (upFrom 1 12)).randomServes .iso10126 ∧ (box (upFrom 1 12)).cipherUp = true ∧
      (box (upFrom 1 12)).keyChanged = false) ∧
    (({ box [] with cipherUp := false } : State).legal = true ∧ paddedLength .zero 4 0 = 0 ∧
      paddedLength .zero 4 0 ≤ ({ box [] with cipherUp := false } : State).bufBytes ∧
      ({ box [] with cipherUp := false } : State).keyChanged = false ∧
      ({ box [] with cipherUp := false } : State).randomServes .zero) :=
  ⟨by decide, by decide, ⟨by decide, by decide, fun _ => .inl rfl, rfl, rfl⟩, by decide, by decide, by decide, by decide, nofun⟩

theorem witness_EncCbcPadsThenChains :
    ((noIv []).legal = true ∧ (noIv []).ivComplete = false) ∧
    ((box (upFrom 1 16)).legal = true ∧ (box (upFrom 1 16)).ivComplete = true ∧
      (box (upFrom 1 16)).bufBytes < paddedLength .pkcs7 4 16) ∧
    ((box [1, 2, 3]).legal = true ∧ (box [1, 2, 3]).ivComplete = true ∧
      (box [1, 2, 3]).length % (box [1, 2, 3]).blockBytes ≠ 0) ∧
    ((box (upFrom 1 12)).legal = true ∧ (box (upFrom 1 12)).ivComplete = true ∧
      paddedLength .x923 4 12 ≤ (box (upFrom 1 12)).bufBytes ∧ (box (upFrom 1 12)).randomServes .x923 ∧
      (box (upFrom 1 12)).cipherUp = true ∧ (box (upFrom 1 12)).keyChanged = false) :=
  ⟨by decide, by decide, by decide, by decide, by decide, by decide, nofun, rfl, rfl⟩

/-- LEN 3 is unaligned; LEN 4 without padding, `w` what the free cipher answers; LEN 0, where PKCS7 has no length byte; LEN 4 of
which nothing was written. -/
theorem witness_DecEcbDecryptsThenUnpads :
    ((box [1, 2, 3]).legal = true ∧ (box [1, 2, 3]).length % (box [1, 2, 3]).blockBytes ≠ 0) ∧
    ((box [1, 2, 3, 4]).legal = true ∧ (box [1, 2, 3, 4]).length % (box [1, 2, 3, 4]).blockBytes = 0 ∧
      (box [1, 2, 3, 4]).cipherServes ∧ Ready [1, 2, 3, 4] ∧
      (box [1, 2, 3, 4]).blk ((box [1, 2, 3, 4]).D Config.cipher [1, 2, 3, 4]) 0 =
        (box [1, 2, 3, 4]).D Config.cipher ((box [1, 2, 3, 4]).blk [1, 2, 3, 4] 0) ∧
      Unpads .nopad 4 ((box [1, 2, 3, 4]).D Config.cipher [1, 2, 3, 4]) 4) ∧
    ((box []).legal = true ∧ (box []).cipherServes ∧ Ready [] ∧ UnpadFails .pkcs7 4 [] .paddingUnderflow 0) ∧
    (unfilled.legal = true ∧ unfilled.length % unfilled.blockBytes = 0 ∧ unfilled.cipherServes ∧ unfilled.byteAt 0 = none) :=
  ⟨by decide, ⟨by decide, by decide, ⟨.inr rfl, rfl⟩, box_ready _ (by decide), rfl, rfl⟩,
    ⟨by decide, ⟨.inl rfl, rfl⟩, box_ready _ (by decide), .inl (.inl ⟨rfl, rfl, rfl⟩)⟩,
    by decide, by decide, ⟨.inr rfl, rfl⟩, by decide⟩

theorem witness_DecCbcUnchainsThenUnpads :
    ((noIv []).legal = true ∧ (noIv []).iv.length = (noIv []).blockBytes ∧ (noIv []).ivComplete = false) ∧
    ((box [1, 2, 3]).legal = true ∧ (box [1, 2, 3]).ivComplete = true ∧
      (box [1, 2, 3]).length % (box [1, 2, 3]).blockBytes ≠ 0) ∧
    ((box [1, 2, 3, 4]).legal = true ∧ (box [1, 2, 3, 4]).iv.length = (box [1, 2, 3, 4]).blockBytes ∧
      (box [1, 2, 3, 4]).ivComplete = true ∧ (box [1, 2, 3, 4]).length % (box [1, 2, 3, 4]).blockBytes = 0 ∧
      (box [1, 2, 3, 4]).cipherServes ∧ Ready [1, 2, 3, 4] ∧
      (box [1, 2, 3, 4]).blk
          (xorBytes ((box [1, 2, 3, 4]).D Config.cipher [1, 2, 3, 4]) (box [1, 2, 3, 4]).iv) 0 =
        xorBytes ((box [1, 2, 3, 4]).D Config.cipher ((box [1, 2, 3, 4]).blk [1, 2, 3, 4] 0)) (box [1, 2, 3, 4]).iv ∧
      Unpads .nopad 4 (xorBytes ((box [1, 2, 3, 4]).D Config.cipher [1, 2, 3, 4]) (box [1, 2, 3, 4]).iv) 4) ∧
    ((box []).ivComplete = true ∧ (box []).cipherServes ∧ Ready [] ∧
      UnpadFails .iso7816 4 [] .paddingNotFound 0) ∧
    (unfilled.legal = true ∧ unfilled.iv.length = unfilled.blockBytes ∧ unfilled.ivComplete = true ∧
      unfilled.length % unfilled.blockBytes = 0 ∧ unfilled.cipherServes ∧ unfilled.byteAt 0 = none) :=
  ⟨by decide, by decide, ⟨by decide, by decide, by decide, by decide, ⟨.inr rfl, rfl⟩,
      box_ready _ (by decide), rfl, rfl⟩, ⟨by decide, ⟨.inl rfl, rfl⟩, box_ready _ (by decide),
    .inr ⟨rfl, nofun, rfl⟩⟩, by decide, by decide, by decide, by decide, ⟨.inr rfl, rfl⟩, by decide⟩

theorem witness_PadLeavesWholeBlocks :
    Scheme.pkcs7 ≠ .nopad ∧ (box [1]).done = false ∧ ∃ t, exec (padCommand .pkcs7) (box [1]) = .next t ∧ t.done = true :=
  ⟨by decide, by decide, _, rfl, rfl⟩

theorem witness_UnpadReversesPad :
    (box (upFrom 1 12)).legal = true ∧ Scheme.iso10126 ≠ .zero ∧
    paddedLength .iso10126 4 12 ≤ (box (upFrom 1 12)).bufBytes ∧ (box (upFrom 1 12)).randomServes .iso10126 :=
  ⟨by decide, by decide, by decide, fun _ => .inl rfl⟩

/-- A buffer that ends in 0x41, one that ends in 0x00, and the empty one. -/
theorem witness_ZeroPaddingAmbiguity :
    (Ready [1] ∧ paddedLength .zero 4 1 ≤ (box [1]).bufBytes) ∧
    (Ready [0] ∧ byteOf [0] (1 - 1) = 0x00) ∧
    (Ready [] ∧ paddedLength .zero 4 0 ≤ (box []).bufBytes) :=
  ⟨⟨box_ready _ (by decide), by decide⟩, ⟨box_ready _ (by decide), by decide⟩, box_ready _ (by decide), by decide⟩

/-- "Hello" on the reference build. -/
theorem loaded_bufferIs : (loaded [0x48, 0x65, 0x6C, 0x6C, 0x6F]).bufferIs [0x48, 0x65, 0x6C, 0x6C, 0x6F] := by
  refine ⟨?_, ?_⟩ <;> decide

/-- TOY, "Hello", CBC with PKCS7 and with ZERO; CTR; ECB without padding on the empty buffer. -/
theorem witness_DecReversesEnc :
    ((loaded [0x48, 0x65, 0x6C, 0x6C, 0x6F]).legal = true ∧
      (loaded [0x48, 0x65, 0x6C, 0x6C, 0x6F]).bufferIs [0x48, 0x65, 0x6C, 0x6C, 0x6F] ∧
      (loaded [0x48, 0x65, 0x6C, 0x6C, 0x6F]).iv.length = 16 ∧ (loaded [0x48, 0x65, 0x6C, 0x6C, 0x6F]).ivReady .cbc ∧
      (loaded [0x48, 0x65, 0x6C, 0x6C, 0x6F]).cipherUp = true ∧ (loaded [0x48, 0x65, 0x6C, 0x6C, 0x6F]).keyChanged = false ∧
      (loaded [0x48, 0x65, 0x6C, 0x6C, 0x6F]).randomServes (effPad .cbc .pkcs7) ∧
      paddedLength (effPad .cbc .pkcs7) 16 5 ≤ 256 ∧ toy.Inverse 16 0) ∧
    (effPad .cbc .zero = .zero ∧ paddedLength .zero 16 5 ≤ 256 ∧ byteOf [0x48, 0x65, 0x6C, 0x6C, 0x6F] (5 - 1) ≠ 0x00) ∧
    ((loaded [0x48, 0x65, 0x6C, 0x6C, 0x6F]).ivReady .ctr ∧ isBlockMode .ctr = false ∧ effPad .ctr .zero = .nopad) ∧
    (Ready [] ∧ (box []).length % (box []).blockBytes = 0) :=
  ⟨⟨by decide, loaded_bufferIs, by decide, fun _ => by decide, by decide, by decide, nofun, by decide, toy_inverse 0⟩, by decide,
    ⟨fun _ => by decide, by decide, by decide⟩, box_ready _ (by decide), by decide⟩

theorem witness_EcbKeepsEqualBlocks :
    (box [1, 2, 3, 4, 1, 2, 3, 4]).length % (box [1, 2, 3, 4, 1, 2, 3, 4]).blockBytes = 0 ∧
    (box [1, 2, 3, 4, 1, 2, 3, 4]).cipherServes ∧ Ready [1, 2, 3, 4, 1, 2, 3, 4] ∧
    (1 + 1) * 4 ≤ (box [1, 2, 3, 4, 1, 2, 3, 4]).length ∧
    (box [1, 2, 3, 4, 1, 2, 3, 4]).blk [1, 2, 3, 4, 1, 2, 3, 4] 0 =
      (box [1, 2, 3, 4, 1, 2, 3, 4]).blk [1, 2, 3, 4, 1, 2, 3, 4] 1 :=
  ⟨by decide, ⟨.inr rfl, rfl⟩, box_ready _ (by decide), by decide, by decide⟩

/-- P32 of L2.5 and the same with its first byte changed: block 0 differs, block 1 does not. -/
theorem witness_CbcErrorPropagation :
    toy.Inverse 16 (loaded (upFrom 0 32)).key ∧ (loaded (upFrom 0 32)).legal = true ∧
    (loaded (upFrom 0 32)).iv.length = (loaded (upFrom 0 32)).blockBytes ∧ (loaded (upFrom 0 32)).ivComplete = true ∧
    (loaded (upFrom 0 32)).length % (loaded (upFrom 0 32)).blockBytes = 0 ∧ (loaded (upFrom 0 32)).cipherServes ∧
    loaded ((upFrom 0 32).set 0 9) = { loaded (upFrom 0 32) with data := (loaded ((upFrom 0 32).set 0 9)).data } ∧
    (loaded (upFrom 0 32)).bufferIs (upFrom 0 32) ∧ (loaded ((upFrom 0 32).set 0 9)).bufferIs ((upFrom 0 32).set 0 9) ∧
    (0 + 2) * 16 ≤ (loaded (upFrom 0 32)).length ∧
    (loaded (upFrom 0 32)).blk (upFrom 0 32) 0 ≠ (loaded (upFrom 0 32)).blk ((upFrom 0 32).set 0 9) 0 ∧
    (loaded (upFrom 0 32)).blk (upFrom 0 32) 1 = (loaded (upFrom 0 32)).blk ((upFrom 0 32).set 0 9) 1 :=
  ⟨toy_inverse _, by decide, by decide, by decide, by decide, ⟨.inr rfl, rfl⟩, by decide, ⟨by decide, by decide⟩,
    ⟨by decide, by decide⟩, by decide, by decide, by decide⟩

theorem witness_StreamModesAreSelfInverse :
    (box [1, 2, 3, 4]).legal = true ∧ (box [1, 2, 3, 4]).ivComplete = true ∧ (box [1, 2, 3, 4]).cipherServes ∧
    Ready [1, 2, 3, 4] ∧ Instr.invOfb ∈ [Instr.fwdOfb, Instr.invOfb] ∧
    Instr.fwdCtr ∈ [Instr.fwdCtr, Instr.invCtr] ∧ Ready [1] :=
  ⟨by decide, by decide, ⟨.inr rfl, rfl⟩, box_ready _ (by decide), by decide, by decide, box_ready _ (by decide)⟩

theorem witness_CounterWindowIncrements : 4 ≤ 4 ∧ ([0xFF, 0xFF, 0xFF, 0xFF] : List Byte).length = 4 ∧ 0 < 2 ^ 32 - 1 ∧
    2 ^ 32 - 1 < 2 ^ 32 := by decide

/-- The same operands with other WORK, SAVE, IDX, HOSTERR, INTEN, LASTCMD and draws. -/
theorem witness_CommandReadsOnlyItsOperands :
    (box [1, 2, 3, 4]).legal = true ∧ (box [1, 2, 3, 4]).iv.length = (box [1, 2, 3, 4]).blockBytes ∧
    SameForCommand (box [1, 2, 3, 4])
      { box [1, 2, 3, 4] with work := [9], save := [8], idx := 7, hosterr := true, doneIe := true, lastcmd := 5, draws := 6 } :=
  ⟨by decide, by decide,
    { params := rfl, len := rfl
      buffer := ⟨[1, 2, 3, 4], (box_ready _ (by decide)).2, (box_ready [1, 2, 3, 4] (by decide)).2⟩
      iv := rfl, ivvalid := rfl, key := rfl, keySteady := ⟨rfl, rfl⟩, cipherUp := rfl, randomUp := rfl, phase := rfl
      done := rfl, err := rfl, errcode := rfl, errinfo := rfl }⟩

/-- Each kind of bad access where it begins and ends in the reference build, and the accesses that are none. -/
theorem witness_HostInterfaceErrors :
    (BadAccess .reference 0x000 2 ∧ BadAccess .reference 0x016 4 ∧ BadAccess .reference 0x028 4 ∧ BadAccess .reference 0x0FC 4 ∧
      BadAccess .reference 0x110 4 ∧ BadAccess .reference 0xFFC 4 ∧ BadAccess .reference 0x1100 4) ∧
    (ReadOnlyOffset 0x000 ∧ ReadOnlyOffset 0x024) ∧ State.reset.bufBytes < (257 : Word).toNat ∧
    ((running .fwdEcb []).phase = .busy ∧ GuardedOffset 0x008 ∧ GuardedOffset 0x014 ∧ GuardedOffset 0x100 ∧
      GuardedOffset 0x1000) ∧
    (¬ BadAccess .reference 0x024 4 ∧ ¬ BadAccess .reference 0x100 4 ∧ ¬ BadAccess .reference 0x10C 4 ∧
      ¬ BadAccess .reference 0x1000 4 ∧ ¬ BadAccess .reference 0x10FC 4) ∧
    (¬ ReadOnlyOffset 0x014 ∧ ¬ (State.reset.bufBytes < (256 : Word).toNat) ∧ State.reset.phase ≠ .busy) := by
  unfold BadAccess ReadOnlyOffset GuardedOffset
  refine ⟨by decide, by decide, by decide, by decide, by decide, by decide, ?_, by decide⟩
  decide

/-- The first and the last word of the reference build, written and not written. -/
theorem witness_DataWordsAreBigEndian :
    (State.reset.params.wellFormed = true ∧ State.reset.phase = .idle ∧ 4 * 0 < State.reset.bufBytes ∧
      4 * 63 < State.reset.bufBytes ∧ (∀ j, j < 4 → State.reset.byteAt (4 * 63 + j) = none)) ∧
    ((box [1, 2, 3, 4]).params.wellFormed = true ∧ (box [1, 2, 3, 4]).byteAt (4 * 0) = some 1 ∧
      (box [1, 2, 3, 4]).byteAt (4 * 0 + 1) = some 2 ∧ (box [1, 2, 3, 4]).byteAt (4 * 0 + 2) = some 3 ∧
      (box [1, 2, 3, 4]).byteAt (4 * 0 + 3) = some 4) ∧
    (({ State.reset with data := [(1, 5)] } : State).byteAt (4 * 0) = none ∧
      ({ State.reset with data := [(1, 5)] } : State).byteAt (4 * 0 + 1) = some 5 ∧
      ({ State.reset with data := [(1, 5)] } : State).unwrittenIn (4 * 0) 3 = 2 ∧
      ({ State.reset with data := [(1, 5)] } : State).unwrittenIn (4 * 0) 4 = 3) := by decide

/-- The first and the last IV word of the reference build, written and not written; one of a BUSY engine. -/
theorem witness_IvWordsAreBigEndian :
    (State.reset.params.wellFormed = true ∧ State.reset.iv.length = State.reset.blockBytes ∧ State.reset.phase = .idle ∧
      0 < State.reset.params.blockWords ∧ 3 < State.reset.params.blockWords ∧ State.reset.ivvalid.getLsbD 3 = false) ∧
    ((loaded []).iv.length = (loaded []).blockBytes ∧ (loaded []).ivvalid.getLsbD 3 = true) ∧
    ((running .fwdEcb []).params.wellFormed = true ∧ (running .fwdEcb []).iv.length = (running .fwdEcb []).blockBytes ∧
      0 < (running .fwdEcb []).params.blockWords ∧ (running .fwdEcb []).phase = .busy) := by decide

theorem witness_StatusReadsAndClears :
    ({ State.reset with err := true, errcode := 0x12, errinfo := 3 } : State).err = true ∧
    (0x0000000E : Word).getLsbD 2 = true ∧ (0x0000000A : Word).getLsbD 2 = false := by decide

theorem witness_IssueOfACommandWord :
    (running .fwdEcb []).phase = .busy ∧ State.reset.phase = .idle ∧ isCommand (decode 0x00000601) = false ∧
    decode 0x00000515 = .command (.encCbc .pkcs7) := by decide

theorem witness_LenIntenAndIrq :
    State.reset.phase = .idle ∧ (0 : Word).toNat ≤ State.reset.bufBytes ∧ (256 : Word).toNat ≤ State.reset.bufBytes := by decide

theorem witness_ReadsReturnCurrentValues :
    (running .fwdEcb []).params.wellFormed = true ∧ (running .fwdEcb []).phase = .busy ∧
    4 * 0 < (running .fwdEcb []).bufBytes ∧ 4 * 3 < (running .fwdEcb []).bufBytes := by decide

theorem witness_KeyChangeMakesAnswersDraws :
    State.reset.phase = .idle ∧ ({ running .fwdEcb [] with keyChanged := true } : State).cipherUp = true ∧
    ({ running .fwdEcb [] with keyChanged := true } : State).keyChanged = true := by decide

end Sys2Proof.Tests
end

section
/-! What host accesses, the engine's turn, completions, the reset and a step can do: one fact for each, the layer under
the statements of spec/10_state.md. -/

namespace Sys2Proof.Machine

/-! ## The phase -/

@[simp] theorem busy_eq_true_iff (s : State) : s.busy = true ↔ s.phase = .busy := by
  unfold State.busy
  cases s.phase <;> simp

theorem not_busy_of_idle {s : State} (h : s.phase = .idle) : ¬ s.busy = true := by simp [h]

theorem whileIdle_cases (s t : State) :
    whileIdle s t = s.setHosterr ∨ (s.phase = .idle ∧ whileIdle s t = t) := by
  cases h : s.phase with
  | idle => exact .inr ⟨rfl, whileIdle_idle t h⟩
  | busy => exact .inl (whileIdle_busy t h)

/-! ## STATUS, INTEN and IVVALID, bit by bit -/

/-- Every bit of STATUS (R23, R38). -/
theorem getLsbD_statusWord (s : State) (i : Nat) :
    s.statusWord.getLsbD i =
      if i = 0 then s.busy else if i = 1 then s.done else if i = 2 then s.err else if i = 3 then s.hosterr
      else decide (8 ≤ i) && s.errcode.getLsbD (i - 8) := by
  change BitVec.getLsbD (w := 16 + 8 + 4 + 1 + 1 + 1 + 1) (_ ++ BitVec.ofBool s.busy) i = _
  simp only [BitVec.getLsbD_append, BitVec.getLsbD_ofBool]
  rcases i with _ | _ | _ | _ | i
  case succ.succ.succ.succ =>
    have above (h : ¬ i - 4 < 8) : s.errcode.getLsbD (i - 4) = false := BitVec.getLsbD_of_ge _ _ (by omega)
    by_cases low : i < 4
    · simp [low, Nat.not_le.mpr low]
    · by_cases h : i - 4 < 8 <;> simp [low, Nat.not_lt.mp low, h, above]
  all_goals simp

/-- STATUS from bit 4 on: ERRCODE in bits 15:8, 0 elsewhere (R23, R38). -/
theorem getLsbD_statusWord_of_four_le (s : State) {i : Nat} (hi : 4 ≤ i) :
    s.statusWord.getLsbD i = (decide (8 ≤ i) && s.errcode.getLsbD (i - 8)) := by
  rw [getLsbD_statusWord, if_neg (by omega), if_neg (by omega), if_neg (by omega), if_neg (by omega)]

theorem statusWord_errcode (s : State) : s.statusWord.extractLsb' 8 8 = s.errcode := by
  apply BitVec.eq_of_getLsbD_eq
  intro i hi
  simp [hi, getLsbD_statusWord_of_four_le s (show 4 ≤ 8 + i by omega)]

theorem statusWord_reserved_low (s : State) : s.statusWord.extractLsb' 4 4 = 0 := by
  apply BitVec.eq_of_getLsbD_eq
  intro i hi
  simp [getLsbD_statusWord_of_four_le s (show 4 ≤ 4 + i by omega), show ¬ 8 ≤ 4 + i by omega]

theorem statusWord_reserved_high (s : State) : s.statusWord.extractLsb' 16 16 = 0 := by
  apply BitVec.eq_of_getLsbD_eq
  intro i hi
  simp [getLsbD_statusWord_of_four_le s (show 4 ≤ 16 + i by omega),
    BitVec.getLsbD_of_ge s.errcode _ (show 8 ≤ 16 + i - 8 by omega)]

/-- Every bit of INTEN (R34). -/
theorem getLsbD_intenWord (s : State) (i : Nat) :
    s.intenWord.getLsbD i =
      if i = 0 then s.doneIe else if i = 1 then s.errIe else decide (i = 2) && s.hosterrIe := by
  change BitVec.getLsbD (w := 29 + 1 + 1 + 1) (_ ++ BitVec.ofBool s.doneIe) i = _
  simp only [BitVec.getLsbD_append, BitVec.getLsbD_ofBool]
  rcases i with _ | _ | _ | i <;> simp

theorem intenWord_reserved (s : State) : s.intenWord.extractLsb' 3 29 = 0 := by
  apply BitVec.eq_of_getLsbD_eq
  intro i hi
  simp [getLsbD_intenWord, show ¬ 3 + i = 1 by omega, show ¬ 3 + i = 2 by omega]

/-- A write of an IV word sets its IVVALID bit and no other (R35). -/
theorem getLsbD_writeIv_ivvalid (s : State) (w : Nat) (v : Word) {j : Nat} (hj : j < 64) :
    (s.writeIv w v).ivvalid.getLsbD j = (s.ivvalid.getLsbD j || decide (w = j)) := by
  simp only [writeIv_ivvalid, BitVec.getLsbD_or, BitVec.natCast_eq_ofNat, BitVec.getLsbD_ofNat, Nat.one_shiftLeft,
    Nat.testBit_two_pow, hj, decide_true, Bool.true_and]

/-- A 1 in bit 2 clears ERR, ERRCODE and ERRINFO together (R23). -/
theorem writeStatus_clears_err (s : State) {v : Word} (h : v.getLsbD 2 = true) :
    (s.writeStatus v).err = false ∧ (s.writeStatus v).errcode = 0 ∧ (s.writeStatus v).errinfo = 0 := by
  simp only [writeStatus_err, writeStatus_errcode, writeStatus_errinfo, h, Bool.not_true, Bool.and_false, if_true, and_self]

/-- A 0 in bit 2 leaves them (R23). -/
theorem writeStatus_keeps_err (s : State) {v : Word} (h : v.getLsbD 2 = false) :
    (s.writeStatus v).err = s.err ∧ (s.writeStatus v).errcode = s.errcode ∧ (s.writeStatus v).errinfo = s.errinfo := by
  simp only [writeStatus_err, writeStatus_errcode, writeStatus_errinfo, h, Bool.not_false, Bool.and_true,
    Bool.false_eq_true, if_false, and_self]

theorem putBytes_length (bs : List Byte) (i : Nat) (v : List Byte) : (putBytes bs i v).length = v.length := by
  induction bs generalizing i v with
  | nil => rfl
  | cons b bs ih => rw [putBytes, ih, List.length_set]

/-! ## The register map -/

theorem accessed_eq_some_iff (p : Params) (off : Word) (bytes : Nat) (r : Reg) :
    accessed p off bytes = some r ↔ bytes = 4 ∧ regAt p off.toNat = some r := by
  unfold accessed
  split <;> simp_all

/-- An IV word that the map reaches is one of the BLOCK_WORDS words (R37). -/
theorem regAt_ivWord_lt {p : Params} {o w : Nat} (h : regAt p o = some (.ivWord w)) : w < p.blockWords := by
  have hc : ∀ o, controlReg o ≠ some (.ivWord w) := by
    intro o
    unfold controlReg
    split <;> simp
  unfold regAt at h
  split at h
  · cases h
  split at h
  · exact absurd h (hc o)
  split at h
  · split at h
    · cases h; assumption
    · cases h
  · split at h <;> cases h

/-! ## Host reads -/

/-- A read of a register hands over a word and may take draws; it moves nothing else (R50, R60). -/
theorem readReg_eq (r : Reg) (s : State) : ∃ n v, readReg r s = { s with draws := n, rdata := v } := by
  cases r with
  | ivWord w =>
    by_cases h : s.ivvalid.getLsbD w
    · exact ⟨_, _, by rw [readReg, if_pos h]; rfl⟩
    · exact ⟨_, _, by rw [readReg, if_neg h]; rfl⟩
  | dataWord k =>
    by_cases h : s.busy
    · exact ⟨_, _, by rw [readReg, if_pos h]; rfl⟩
    · exact ⟨_, _, by rw [readReg, if_neg h, (memRead_spec 4 (4 * k) s).2.2]; rfl⟩
  | _ => exact ⟨s.draws, _, rfl⟩

/-- A read moves HOSTERR, the draws taken and the word handed over, and nothing else (R50, R51). -/
theorem hostRead_eq (off : Word) (bytes : Nat) (s : State) :
    ∃ b n v, hostRead off bytes s = { s with hosterr := b, draws := n, rdata := v } := by
  unfold hostRead
  split
  · exact ⟨true, s.draws, 0, rfl⟩
  · rename_i r _
    obtain ⟨n, v, h⟩ := readReg_eq r s
    exact ⟨s.hosterr, n, v, h⟩

/-- MemRead of bytes that nothing has written: draws, in index order (R71). -/
theorem memRead_unwritten {n i : Nat} {s : State} (h : ∀ j, j < n → s.byteAt (i + j) = none) :
    memRead n i s = (drawnBytes s.draws n, s.setDraws (s.draws + n)) := by
  have count : ∀ m, m ≤ n → s.unwrittenIn i m = m := fun m hm => by
    rw [State.unwrittenIn, List.countP_eq_length.mpr, List.length_range]
    intro j hj
    have hj : j < m := List.mem_range.mp hj
    rw [h j (by omega), Option.isNone_none]
  rw [memRead_eq, count n le_rfl, drawnBytes]
  congr 1
  refine List.map_congr_left fun j hj => ?_
  have hj : j < n := List.mem_range.mp hj
  rw [h j hj, count j hj.le, Option.getD_none]

theorem wordAt_drawnBytes (d : Nat) : wordAt (drawnBytes d 4) 0 = drawnWord d := by
  simp [wordAt, drawnWord, byteOf_drawnBytes]

/-! ## Host writes -/

/-- What a host write of `v` to the mapped register `r` does to a state `s` (R23, R24, R34, R51 to R53, R95). -/
inductive WriteEffect (v : Word) (s : State) : Reg → State → Prop
  /-- The register is read-only, the engine is BUSY, or the length passes BUF_BYTES. -/
  | hosterr (r : Reg) : WriteEffect v s r s.setHosterr
  | status : WriteEffect v s .status (s.writeStatus v)
  | inten : WriteEffect v s .inten (s.writeInten v)
  | issue (idle : s.phase = .idle) : WriteEffect v s .cmd (s.issue v)
  | len (idle : s.phase = .idle) (fits : v.toNat ≤ s.bufBytes) : WriteEffect v s .len { s with len := v }
  | iv (w : Nat) (idle : s.phase = .idle) : WriteEffect v s (.ivWord w) (s.writeIv w v)
  | data (k : Nat) (idle : s.phase = .idle) : WriteEffect v s (.dataWord k) (memWrite (wordBytes v) (4 * k) s)

/-- A write that only an IDLE engine accepts. -/
theorem WriteEffect.whileIdle {v : Word} {r : Reg} {s t : State} (h : s.phase = .idle → WriteEffect v s r t) :
    WriteEffect v s r (whileIdle s t) := by
  rcases whileIdle_cases s t with e | ⟨idle, e⟩ <;> rw [e]
  · exact .hosterr r
  · exact h idle

theorem writeReg_effect (r : Reg) (v : Word) (s : State) : WriteEffect v s r (writeReg r v s) := by
  cases r with
  | status => exact .status
  | inten => exact .inten
  | cmd => exact .whileIdle .issue
  | len =>
    refine .whileIdle fun idle => ?_
    split
    · exact .hosterr _
    · rename_i h; exact .len idle (Nat.le_of_not_lt h)
  | ivWord w => exact .whileIdle (.iv w)
  | dataWord k => exact .whileIdle (.data k)
  | _ => exact .hosterr _

/-- A host write is a host-interface error or a write to the register it reaches (R50, R51). -/
theorem hostWrite_cases (off : Word) (bytes : Nat) (v : Word) (s : State) :
    hostWrite off bytes v s = s.setHosterr ∨
    ∃ r, accessed s.params off bytes = some r ∧ WriteEffect v s r (hostWrite off bytes v s) := by
  unfold hostWrite
  split
  · exact .inl rfl
  · rename_i r h; exact .inr ⟨r, h, writeReg_effect r v s⟩

/-! ## The engine's turn and the step -/

/-- A command answers in legal machines only. -/
theorem legal_of_exec_next {i : Instr} {s t : State} (h : exec i s = .next t) : s.legal = true := by
  rw [exec_eq, execWith] at h
  rcases runCommand_cases (stagesWith Config.cipher i) s with ⟨-, hf⟩ | ⟨hl, -⟩
  · rw [hf] at h; cases h
  · exact hl

/-- No command writes what `Frame` names (R41, R42). -/
theorem frame_of_exec_next {i : Instr} {s t : State} (h : exec i s = .next t) : Frame s t := by
  rcases exec_cases i s (legal_of_exec_next h) with ⟨u, hu, touch, -⟩ | ⟨e, w, u, hu, touch, -⟩ | ⟨hu, -⟩ <;>
    rw [hu] at h <;> cases h
  · exact touch.frame.trans (frame_completeOk u)
  · exact touch.frame.trans (frame_completeFault e w u)
  · exact Frame.refl s

/-- The engine's turn: nothing while IDLE; while BUSY the command in CUR, or the completion of an illegal word. -/
theorem engineTurn_cases {s t : State} (h : engineTurn s = .next t) :
    (s.phase = .idle ∧ t = s) ∨
    (s.phase = .busy ∧ ∃ i, decode s.cur = .command i ∧ exec i s = .next t) ∨
    (s.phase = .busy ∧ isCommand (decode s.cur) = false ∧ t = completeFault .illegalCommand s.cur s) := by
  unfold engineTurn at h
  cases hp : s.phase with
  | idle => rw [hp] at h; cases h; exact .inl ⟨rfl, rfl⟩
  | busy =>
    cases hd : decode s.cur with
    | command i => simp only [hp, hd] at h; exact .inr (.inl ⟨rfl, i, rfl, h⟩)
    | illegal e => simp only [hp, hd] at h; cases h; exact .inr (.inr ⟨rfl, rfl, rfl⟩)

theorem frame_of_engineTurn {s t : State} (h : engineTurn s = .next t) : Frame s t := by
  rcases engineTurn_cases h with ⟨-, rfl⟩ | ⟨-, i, -, hi⟩ | ⟨-, -, rfl⟩
  · exact Frame.refl t
  · exact frame_of_exec_next hi
  · exact frame_completeFault _ _ s

/-- A step is the engine's turn where nothing else happens, else the first input (R63, R275). -/
theorem step_cases {s t : State} (h : step s = .next t) :
    (s.inputs = [] ∧ engineTurn s = .next t) ∨
    ∃ x rest, s.inputs = x :: rest ∧ takeInput x s.dropInput = .next t := by
  unfold step nextTurn at h
  split at h <;> rename_i hin
  · exact .inl ⟨hin, h⟩
  · exact .inr ⟨_, _, hin, h⟩

end Sys2Proof.Machine
end

section
/-! The settled statements of spec/10_state.md: the invariant, who changes IV and IVVALID, the values after reset, STATUS,
LEN, INTEN and irq. -/

namespace Sys2Proof.Machine

/-! ## The values after reset (R39) -/

theorem toWord_blockWords {p : Params} (hp : p.wellFormed = true) :
    BitVec.setWidth 32 (BitVec.ofNat 8 p.blockWords) = toWord p.blockWords := by
  have hb := ((wellFormed_iff p).mp hp).2.1
  apply BitVec.eq_of_toNat_eq
  simp only [BitVec.toNat_setWidth, BitVec.toNat_ofNat, toWord]
  omega

theorem statusWord_resetOf (p : Params) : (State.resetOf p).statusWord = 0 := by
  simp [State.statusWord, State.busy, State.resetOf]

theorem intenWord_resetOf (p : Params) : (State.resetOf p).intenWord = 0 := by
  simp [State.intenWord, State.resetOf]

/-- Right after reset no byte of DATA is written, so a DATA word reads as a draw. -/
theorem hostRead_data_resetOf {p : Params} {k : Nat} (hp : p.wellFormed = true) (hk : 4 * k < p.bufBytes) :
    (hostRead (toWord (0x1000 + 4 * k)) 4 (State.resetOf p)).rdata = drawnWord (State.resetOf p).draws := by
  have acc : accessed (State.resetOf p).params (toWord (0x1000 + 4 * k)) 4 = some (.dataWord k) := accessed_data hp hk
  have idle : ¬ (State.resetOf p).busy = true := not_busy_of_idle rfl
  simp only [hostRead, acc, readReg, if_neg idle, answer_rdata]
  rw [memRead_unwritten fun _ _ => rfl, wordAt_drawnBytes]

/-- Right after reset IVVALID is 0, so an IV word reads as a draw. -/
theorem hostRead_iv_resetOf {p : Params} {w : Nat} (hp : p.wellFormed = true) (hw : w < p.blockWords) :
    (hostRead (toWord (0x100 + 4 * w)) 4 (State.resetOf p)).rdata = drawnWord (State.resetOf p).draws := by
  have acc : accessed (State.resetOf p).params (toWord (0x100 + 4 * w)) 4 = some (.ivWord w) := accessed_iv hp hw
  have invalid : ¬ (State.resetOf p).ivvalid.getLsbD w = true := by simp [State.resetOf]
  simp only [hostRead, acc, readReg, if_neg invalid, answerDraw_rdata]

/-- Settles O8, for every build at once. -/
theorem resetLeavesTheStatedValues : Obligations.ResetLeavesTheStatedValues := by
  rintro p _ hp rfl
  exact ⟨rfl, statusWord_resetOf p, intenWord_resetOf p, rfl, rfl, rfl, rfl, rfl, fun _ => rfl, toWord_blockWords hp, rfl,
    fun _ => hostRead_data_resetOf hp, fun _ => hostRead_iv_resetOf hp⟩

/-! ## STATUS, LEN, INTEN and irq -/

/-- Settles O56, from the bits of STATUS. -/
theorem statusReadsAndClears : Obligations.StatusReadsAndClears := by
  refine ⟨fun s => ⟨s.statusWord, rfl, ?_⟩, ?_⟩
  · refine ⟨?_, getLsbD_statusWord s 1, getLsbD_statusWord s 2, getLsbD_statusWord s 3, statusWord_reserved_low s,
      statusWord_errcode s, statusWord_reserved_high s⟩
    rw [getLsbD_statusWord, if_pos rfl, busy_eq_true_iff]
  · rintro s _ v rfl
    rw [hostWrite_status]
    exact ⟨rfl, by simp, by simp, by simp, fun clear => (writeStatus_clears_err s clear).2,
      fun keep => (writeStatus_keeps_err s keep).2⟩

/-- A length the buffer holds is accepted while IDLE (R24). -/
theorem hostWrite_len_fits {s : State} {v : Word} (idle : s.phase = .idle) (fits : v.toNat ≤ s.bufBytes) :
    hostWrite 0x014 4 v s = { s with len := v } := by
  rw [hostWrite_len, whileIdle_idle _ idle, if_neg (Nat.not_lt.mpr fits)]

theorem irq_eq_true_iff (s : State) : s.irq = true ↔
    (s.done = true ∧ s.doneIe = true) ∨ (s.err = true ∧ s.errIe = true) ∨
    (s.hosterr = true ∧ s.hosterrIe = true) := by
  simp [State.irq, or_assoc]

/-- Settles O58, from the bits of INTEN. -/
theorem lenIntenAndIrq : Obligations.LenIntenAndIrq :=
  ⟨fun p => ⟨intenWord_resetOf p, rfl⟩, fun _ _ => hostWrite_len_fits, fun _ => rfl, fun s v => hostWrite_inten v s,
    fun s => ⟨s.intenWord, rfl, getLsbD_intenWord s 0, getLsbD_intenWord s 1, getLsbD_intenWord s 2,
      intenWord_reserved s⟩,
    irq_eq_true_iff⟩

/-! ## The invariant, update by update -/

/-- The reset state of a legal build meets the invariant. -/
theorem resetOf_inv {p : Params} (hp : p.wellFormed = true) : (State.resetOf p).Inv where
  build := hp
  len_le := Nat.zero_le _
  idx_le := Nat.zero_le _
  iv_length := List.length_replicate
  work_length := List.length_replicate
  save_length := List.length_replicate
  ivvalid_high := fun w _ _ => by simp [State.resetOf]
  data_wf := resetOf_data_wf p
  data_within := by simp [State.resetOf, Memory.within]
  not_both := .inl rfl
  busy_clear := fun h => by cases h
  errcode_iff := by simp [State.resetOf]
  errcode_legal := by simp [State.resetOf, errCodes]
  errinfo_zero := fun _ => rfl
  busy_cur := fun h => by cases h

/-- Settles O9; the reference build is one of the legal builds. -/
theorem resetMeetsTheInvariant : Obligations.ResetMeetsTheInvariant :=
  ⟨rfl, resetOf_inv (by decide), fun _ => resetOf_inv⟩

section Updates
variable {s : State}

theorem State.Inv.legal (hs : s.Inv) : s.legal = true := (legal_iff s).mpr ⟨hs.build, hs.len_le⟩

theorem State.Inv.dataOk (hs : s.Inv) : DataOk s.bufBytes s := ⟨hs.data_wf, hs.data_within⟩

theorem setHosterr_inv (hs : s.Inv) : s.setHosterr.Inv := { hs with }

theorem dropInput_inv (hs : s.Inv) : s.dropInput.Inv := { hs with }

theorem rekeyed_inv (hs : s.Inv) (k : Nat) : (s.rekeyed k).Inv := { hs with }

theorem setPorts_inv (hs : s.Inv) (c r : Bool) : (s.setPorts c r).Inv := { hs with }

theorem assertReset_inv (hs : s.Inv) : s.assertReset.Inv := { resetOf_inv hs.build with }

theorem hostRead_inv (hs : s.Inv) (off : Word) (bytes : Nat) : (hostRead off bytes s).Inv := by
  obtain ⟨b, n, v, h⟩ := hostRead_eq off bytes s
  rw [h]
  exact { hs with }

theorem writeInten_inv (hs : s.Inv) (v : Word) : (s.writeInten v).Inv := { hs with }

/-- ERR, ERRCODE and ERRINFO are cleared together or kept together (R23). -/
theorem writeStatus_inv (hs : s.Inv) (v : Word) : (s.writeStatus v).Inv := by
  have done_of (h : s.done = false) : (s.writeStatus v).done = false := by simp [h]
  have err_of (h : s.err = false) : (s.writeStatus v).err = false := by simp [h]
  have not_both := hs.not_both.imp done_of err_of
  have busy_clear (hb : (s.writeStatus v).busy = true) := (hs.busy_clear hb).imp done_of err_of
  cases hv : v.getLsbD 2 with
  | true =>
    obtain ⟨err, errcode, errinfo⟩ := writeStatus_clears_err s hv
    exact { hs with
      not_both, busy_clear
      errcode_iff := by simp [-writeStatus_err, -writeStatus_errcode, err, errcode]
      errcode_legal := by rw [errcode]; decide
      errinfo_zero := fun _ => errinfo }
  | false =>
    obtain ⟨err, errcode, errinfo⟩ := writeStatus_keeps_err s hv
    exact { hs with
      not_both, busy_clear
      errcode_iff := by rw [err, errcode]; exact hs.errcode_iff
      errcode_legal := by rw [errcode]; exact hs.errcode_legal
      errinfo_zero := by rw [err, errinfo]; exact hs.errinfo_zero }

theorem setLen_inv (hs : s.Inv) {v : Word} (fits : v.toNat ≤ s.bufBytes) : ({ s with len := v } : State).Inv :=
  { hs with len_le := fits }

theorem writeIv_inv (hs : s.Inv) {w : Nat} (hw : w < s.params.blockWords) (v : Word) : (s.writeIv w v).Inv :=
  { hs with
    iv_length := (putBytes_length _ _ _).trans hs.iv_length
    ivvalid_high := fun j hj hwj => by
      have : w ≠ j := fun h => absurd hw (by rw [h]; exact Nat.not_lt.mpr hwj)
      rw [getLsbD_writeIv_ivvalid s w v hj, hs.ivvalid_high j hj hwj, decide_eq_false this, Bool.or_false] }

theorem memWrite_inv (hs : s.Inv) {v : List Byte} {i : Nat} (h : i + v.length ≤ s.bufBytes) : (memWrite v i s).Inv := by
  have ok := (touch_memWrite s.bufBytes v i s h).ok _ le_rfl hs.dataOk
  rw [memWrite_eq]
  exact { hs with data_wf := ok.wf, data_within := ok.within }

/-! ## The invariant at issue and completion -/

/-- While IDLE, CUR need not be a command (R43). -/
theorem accept_inv (hs : s.Inv) (idle : s.phase = .idle) (w : Word) : (s.accept w).Inv :=
  { hs with
    not_both := .inl rfl
    busy_clear := fun _ => ⟨rfl, rfl⟩
    errcode_iff := by simp
    errcode_legal := by simp [errCodes]
    errinfo_zero := fun _ => rfl
    busy_cur := fun hb => absurd hb (not_busy_of_idle idle) }

theorem started_inv (hs : s.Inv) (idle : s.phase = .idle) {w : Word} (hw : isCommand (decode w) = true) :
    (s.started w).Inv :=
  { accept_inv hs idle w with
    busy_clear := fun _ => ⟨rfl, rfl⟩
    busy_cur := fun _ => ⟨rfl, hw⟩ }

/-- After a command IDX is a draw within its range (R21). -/
theorem scrub_idx_le (s : State) : s.scrub.idx.toNat ≤ s.bufBytes := by
  have hr := Nat.mod_lt (drawnWord (s.draws + 2 * s.blockBytes + 4)).toNat (Nat.succ_pos s.bufBytes)
  rw [scrub_idx, BitVec.toNat_ofNat]
  exact (Nat.mod_le _ _).trans (Nat.le_of_lt_succ hr)

/-- What the stages of a command leave, once the engine is IDLE and its registers are scrubbed: the part of the invariant
that both completions share. -/
theorem Touch.idle_scrub_inv {n : Nat} {u : State} (hs : s.Inv) (touch : Touch n s u) (hn : n ≤ s.bufBytes)
    (hlen : u.length ≤ s.bufBytes) : ({ u.scrub with phase := .idle } : State).Inv := by
  have ok : DataOk u.bufBytes u := touch.bufBytes ▸ touch.ok _ hn hs.dataOk
  exact {
    build := touch.params ▸ hs.build
    len_le := hlen.trans_eq touch.bufBytes.symm
    idx_le := scrub_idx_le u
    iv_length := touch.iv ▸ hs.iv_length.trans touch.blockBytes.symm
    work_length := drawnBytes_length _ _
    save_length := drawnBytes_length _ _
    ivvalid_high := touch.ivvalid ▸ touch.params ▸ hs.ivvalid_high
    data_wf := ok.wf
    data_within := ok.within
    not_both := touch.done ▸ touch.err ▸ hs.not_both
    busy_clear := fun h => by cases h
    errcode_iff := touch.errcode ▸ touch.err ▸ hs.errcode_iff
    errcode_legal := touch.errcode ▸ hs.errcode_legal
    errinfo_zero := touch.err ▸ touch.errinfo ▸ hs.errinfo_zero
    busy_cur := fun h => by cases h }

theorem Touch.completeOk_inv {n : Nat} {u : State} (hs : s.Inv) (touch : Touch n s u) (hn : n ≤ s.bufBytes)
    (hlen : u.length ≤ s.bufBytes) (noErr : s.err = false) : (completeOk u).Inv :=
  { touch.idle_scrub_inv hs hn hlen with
    not_both := .inr (touch.err.trans noErr)
    busy_clear := fun h => by cases h }

/-- The code of a fault is one of the listed codes and not 0 (R230). -/
theorem errCode_legal (e : Err) : errCode e ≠ 0 ∧ errCode e ∈ errCodes := by
  cases e <;> decide

theorem Touch.completeFault_inv {n : Nat} {u : State} (hs : s.Inv) (touch : Touch n s u) (hn : n ≤ s.bufBytes)
    (hlen : u.length ≤ s.bufBytes) (notDone : s.done = false) (e : Err) (info : Word) : (completeFault e info u).Inv :=
  { touch.idle_scrub_inv hs hn hlen with
    not_both := .inl (touch.done.trans notDone)
    busy_clear := fun h => by cases h
    errcode_iff := iff_of_true (errCode_legal e).1 rfl
    errcode_legal := (errCode_legal e).2
    errinfo_zero := fun h => by cases h }

theorem issue_inv (hs : s.Inv) (idle : s.phase = .idle) (w : Word) : (s.issue w).Inv := by
  rcases issue_cases w s with ⟨hw, h⟩ | ⟨-, h⟩ <;> rw [h]
  · exact started_inv hs idle hw
  · exact (Touch.refl 0 _).completeFault_inv (accept_inv hs idle w) (Nat.zero_le _) hs.len_le rfl _ w

end Updates

/-! ## The invariant, turn by turn -/

theorem hostWrite_inv {s : State} (hs : s.Inv) (off : Word) (bytes : Nat) (v : Word) : (hostWrite off bytes v s).Inv := by
  rcases hostWrite_cases off bytes v s with h | ⟨r, acc, effect⟩
  · rw [h]; exact setHosterr_inv hs
  · obtain ⟨rfl, at_r⟩ := (accessed_eq_some_iff _ _ _ _).mp acc
    generalize hostWrite off 4 v s = t at effect
    cases effect with
    | hosterr => exact setHosterr_inv hs
    | status => exact writeStatus_inv hs v
    | inten => exact writeInten_inv hs v
    | issue idle => exact issue_inv hs idle v
    | len _ fits => exact setLen_inv hs fits
    | iv w _ => exact writeIv_inv hs (regAt_ivWord_lt at_r) v
    | data k _ => exact memWrite_inv hs (accessed_data_within hs.build acc)

/-- A command that was issued, however it ends. -/
theorem exec_inv {i : Instr} {s t : State} (hs : s.Inv) (busy : s.phase = .busy) (h : exec i s = .next t) : t.Inv := by
  obtain ⟨notDone, noErr⟩ := hs.busy_clear ((busy_eq_true_iff s).mpr busy)
  rcases exec_cases i s hs.legal with ⟨u, hu, touch, hlen, -⟩ | ⟨e, info, u, hu, touch, hlen, -⟩ | ⟨hu, -⟩ <;>
    rw [hu] at h <;> cases h
  · exact touch.completeOk_inv hs (max_le hs.len_le hlen) hlen noErr
  · have hn : (if raisesLate i then s.length else 0) ≤ s.bufBytes := by
      split
      · exact hs.len_le
      · exact Nat.zero_le _
    exact touch.completeFault_inv hs hn (by rw [State.length, hlen]; exact hs.len_le) notDone e info
  · exact hs

theorem engineTurn_inv {s t : State} (hs : s.Inv) (h : engineTurn s = .next t) : t.Inv := by
  rcases engineTurn_cases h with ⟨-, rfl⟩ | ⟨busy, i, -, hi⟩ | ⟨busy, illegal, -⟩
  · exact hs
  · exact exec_inv hs busy hi
  · obtain ⟨-, command⟩ := hs.busy_cur ((busy_eq_true_iff s).mpr busy)
    rw [illegal] at command
    cases command

theorem takeInput_inv {x : Input} {s t : State} (hs : s.Inv) (h : takeInput x s = .next t) : t.Inv := by
  cases x with
  | read off bytes => cases h; exact hostRead_inv hs off bytes
  | write off bytes v => cases h; exact hostWrite_inv hs off bytes v
  | engine => exact engineTurn_inv hs h
  | reset => cases h; exact assertReset_inv hs
  | rekey k => cases h; exact rekeyed_inv hs k
  | ports c r => cases h; exact setPorts_inv hs c r

/-- Settles O10, turn by turn of what a step may be. -/
theorem stepKeepsTheInvariant : Obligations.StepKeepsTheInvariant := by
  intro s t hs h
  rcases step_cases h with ⟨-, h⟩ | ⟨x, rest, -, h⟩
  · exact engineTurn_inv hs h
  · exact takeInput_inv (dropInput_inv hs) h

/-! ## Who changes IV and IVVALID (R41) -/

/-- A host write changes IV or IVVALID only where it is one of an IV word that the IDLE engine accepts. -/
theorem hostWrite_iv (off : Word) (bytes : Nat) (v : Word) (s : State) :
    ((hostWrite off bytes v s).iv = s.iv ∧ (hostWrite off bytes v s).ivvalid = s.ivvalid) ∨
    (bytes = 4 ∧ s.phase = .idle ∧ ∃ w, regAt s.params off.toNat = some (.ivWord w)) := by
  rcases hostWrite_cases off bytes v s with h | ⟨r, acc, effect⟩
  · rw [h]; exact .inl ⟨rfl, rfl⟩
  · obtain ⟨rfl, at_r⟩ := (accessed_eq_some_iff _ _ _ _).mp acc
    generalize hostWrite off 4 v s = t at effect
    cases effect with
    | iv w idle => exact .inr ⟨rfl, idle, w, at_r⟩
    | issue _ => rcases issue_cases v s with ⟨-, h⟩ | ⟨-, h⟩ <;> rw [h] <;> exact .inl ⟨rfl, rfl⟩
    | data k _ => rw [memWrite_eq]; exact .inl ⟨rfl, rfl⟩
    | hosterr | status | inten | len => exact .inl ⟨rfl, rfl⟩

theorem engineTurn_iv {s t : State} (h : engineTurn s = .next t) : t.iv = s.iv ∧ t.ivvalid = s.ivvalid :=
  ⟨(frame_of_engineTurn h).iv, (frame_of_engineTurn h).ivvalid⟩

theorem takeInput_iv {x : Input} {s t : State} (h : takeInput x s = .next t) :
    (t.iv = s.iv ∧ t.ivvalid = s.ivvalid) ∨
    (∃ off v w, x = .write off 4 v ∧ regAt s.params off.toNat = some (.ivWord w) ∧ s.phase = .idle) ∨ x = .reset := by
  cases x with
  | read off bytes =>
    obtain ⟨b, n, v, e⟩ := hostRead_eq off bytes s
    cases h
    rw [e]
    exact .inl ⟨rfl, rfl⟩
  | write off bytes v =>
    cases h
    rcases hostWrite_iv off bytes v s with same | ⟨rfl, idle, w, at_w⟩
    · exact .inl same
    · exact .inr (.inl ⟨off, v, w, rfl, at_w, idle⟩)
  | engine => exact .inl (engineTurn_iv h)
  | reset => exact .inr (.inr rfl)
  | rekey k => cases h; exact .inl ⟨rfl, rfl⟩
  | ports c r => cases h; exact .inl ⟨rfl, rfl⟩

/-- Settles O17: of the turns a step may be, only a host write and reset reach IV and IVVALID. -/
theorem ivChangesOnlyByHostAndReset : Obligations.IvChangesOnlyByHostAndReset := by
  intro s t h
  rcases step_cases h with ⟨-, h⟩ | ⟨x, rest, hin, h⟩
  · exact .inl (engineTurn_iv h)
  · rcases takeInput_iv h with same | ⟨off, v, w, rfl, at_w, idle⟩ | rfl
    · exact .inl same
    · exact .inr (.inl ⟨off, v, w, rest, hin, at_w, idle⟩)
    · exact .inr (.inr ⟨rest, hin⟩)

end Sys2Proof.Machine
end

section
/-! The facts under the statements of spec/20_memory.md: the offset of a register, what a host access does to HOSTERR,
DATA and IV words byte by byte, and the stages of a command at a silent port. -/

namespace Sys2Proof.Machine

/-! ## The register map, read backwards -/

/-- Where a register stands in the host offset space (R37). -/
def Reg.offset : Reg → Nat
  | .info => 0x000
  | .cap => 0x004
  | .cmd => 0x008
  | .status => 0x00C
  | .inten => 0x010
  | .len => 0x014
  | .errinfo => 0x018
  | .lastcmd => 0x01C
  | .ivvalid0 => 0x020
  | .ivvalid1 => 0x024
  | .ivWord w => 0x100 + 4 * w
  | .dataWord k => 0x1000 + 4 * k

theorem controlReg_offset {o : Nat} {r : Reg} (h : controlReg o = some r) : o = r.offset := by
  unfold controlReg at h
  split at h <;> cases h <;> rfl

/-- A register is reached at its own offset only. -/
theorem regAt_offset {p : Params} {o : Nat} {r : Reg} (h : regAt p o = some r) : o = r.offset := by
  unfold regAt at h
  split at h
  · cases h
  split at h
  · exact controlReg_offset h
  split at h <;> split at h <;> cases h <;> simp only [Reg.offset] <;> omega

/-- An access that is no error whatever its direction reaches a register, at that register's offset (R37, R51). -/
theorem accessed_of_not_bad {p : Params} {off : Word} (h : ¬ BadAccess p off.toNat 4) :
    ∃ r, accessed p off 4 = some r ∧ off.toNat = r.offset := by
  obtain ⟨r, acc⟩ := Option.ne_none_iff_exists'.mp (mt (accessed_none p off 4).mp h)
  exact ⟨r, acc, regAt_offset ((accessed_eq_some_iff _ _ _ _).mp acc).2⟩

/-! ## What an access does to HOSTERR -/

/-- A read of a mapped register is no host-interface error (R51). -/
theorem readReg_hosterr (r : Reg) (s : State) : (readReg r s).hosterr = s.hosterr := by
  obtain ⟨n, v, h⟩ := readReg_eq r s
  rw [h]

theorem writeReg_readOnly {r : Reg} (h : ReadOnlyOffset r.offset) (v : Word) (s : State) :
    writeReg r v s = s.setHosterr := by
  cases r with
  | info | cap | errinfo | lastcmd | ivvalid0 | ivvalid1 => rfl
  | cmd | status | inten | len => simp [ReadOnlyOffset, Reg.offset] at h
  | ivWord w | dataWord k =>
    simp only [ReadOnlyOffset, Reg.offset, List.mem_cons, List.not_mem_nil, or_false] at h
    omega

theorem writeReg_guarded {r : Reg} {s : State} (busy : s.phase = .busy) (h : GuardedOffset r.offset) (v : Word) :
    writeReg r v s = s.setHosterr := by
  cases r with
  | cmd | len | ivWord w | dataWord k => exact whileIdle_busy _ busy
  | _ => simp [GuardedOffset, Reg.offset] at h

theorem issue_hosterr (w : Word) (s : State) : (s.issue w).hosterr = s.hosterr := by
  rcases issue_cases w s with ⟨-, h⟩ | ⟨-, h⟩ <;> rw [h] <;> rfl

/-- A write that only an IDLE engine accepts sets HOSTERR only while BUSY. -/
theorem whileIdle_hosterr {s t : State} (idle : ¬ s.phase = .busy) (h : t.hosterr = s.hosterr) :
    (whileIdle s t).hosterr = s.hosterr := by
  rw [whileIdle, if_neg (mt (busy_eq_true_iff s).mp idle), h]

/-- The writes that set no HOSTERR: not to a read-only register, not of a LEN above BUF_BYTES, not to a guarded register
while BUSY (R51). A write of STATUS may clear it (R23). -/
theorem writeReg_hosterr {r : Reg} {s : State} {v : Word} (status : r ≠ .status) (writable : ¬ ReadOnlyOffset r.offset)
    (fits : ¬ (r = .len ∧ s.bufBytes < v.toNat)) (accepted : ¬ (s.phase = .busy ∧ GuardedOffset r.offset)) :
    (writeReg r v s).hosterr = s.hosterr := by
  have idle (guarded : GuardedOffset r.offset) : ¬ s.phase = .busy := fun busy => accepted ⟨busy, guarded⟩
  cases r with
  | info | cap | errinfo | lastcmd | ivvalid0 | ivvalid1 => exact absurd (by simp [ReadOnlyOffset, Reg.offset]) writable
  | status => exact absurd rfl status
  | inten => rfl
  | cmd => exact whileIdle_hosterr (idle (.inl rfl)) (issue_hosterr v s)
  | len =>
    refine whileIdle_hosterr (idle (.inr (.inl rfl))) ?_
    rw [if_neg fun large => fits ⟨rfl, large⟩]
  | ivWord w => exact whileIdle_hosterr (idle (.inr (.inr (Nat.le_add_right _ _)))) rfl
  | dataWord k =>
    refine whileIdle_hosterr (idle (.inr (.inr (by simp only [Reg.offset]; omega)))) ?_
    rw [memWrite_eq]

/-- A write that is refused whatever register it reaches sets HOSTERR and does nothing else. -/
theorem hostWrite_refused {off v : Word} {s : State} (h : ∀ r, off.toNat = r.offset → writeReg r v s = s.setHosterr) :
    hostWrite off 4 v s = s.setHosterr := by
  unfold hostWrite
  split
  · rfl
  · rename_i r acc
    exact h r (regAt_offset ((accessed_eq_some_iff _ _ _ _).mp acc).2)

/-- A LEN that the buffer does not hold is refused in either phase (R24, R51). -/
theorem hostWrite_len_large {s : State} {v : Word} (large : s.bufBytes < v.toNat) :
    hostWrite 0x014 4 v s = s.setHosterr := by
  rw [hostWrite_len, if_pos large]
  rcases whileIdle_cases s s.setHosterr with h | ⟨-, h⟩ <;> exact h

/-! ## DATA words -/

@[simp] theorem wordBytes_length (v : Word) : (wordBytes v).length = 4 := rfl

section DataWord
variable {s : State} {k : Nat} (hp : s.params.wellFormed = true) (hk : 4 * k < s.bufBytes)
include hp hk

theorem hostWrite_data_idle (idle : s.phase = .idle) (v : Word) :
    hostWrite (toWord (0x1000 + 4 * k)) 4 v s = memWrite (wordBytes v) (4 * k) s := by
  simp only [hostWrite, accessed_data hp hk, writeReg, whileIdle_idle _ idle]

theorem hostRead_data_idle (idle : s.phase = .idle) :
    hostRead (toWord (0x1000 + 4 * k)) 4 s =
      (memRead 4 (4 * k) s).2.answer (wordAt (memRead 4 (4 * k) s).1 0) := by
  simp only [hostRead, accessed_data hp hk, readReg, if_neg (not_busy_of_idle idle)]

theorem hostRead_data_busy (busy : s.phase = .busy) : hostRead (toWord (0x1000 + 4 * k)) 4 s = s.answerDraw := by
  simp only [hostRead, accessed_data hp hk, readReg, if_pos ((busy_eq_true_iff s).mpr busy)]

end DataWord

/-- Byte `j` of a word written at index `i` of DATA. -/
theorem byteAt_memWrite_wordBytes (v : Word) (i : Nat) (s : State) {j : Nat} (hj : j < 4) :
    (memWrite (wordBytes v) i s).byteAt (i + j) = some (byteOf (wordBytes v) j) := by
  have inside : i ≤ i + j ∧ i + j < i + (wordBytes v).length := by rw [wordBytes_length]; omega
  rw [byteAt_memWrite, if_pos inside, Nat.add_sub_cancel_left]

/-! ## IV words -/

/-- A byte of a vector after some of its bytes were replaced. -/
theorem byteOf_putBytes {bs v : List Byte} {i : Nat} (h : i + bs.length ≤ v.length) (j : Nat) :
    byteOf (putBytes bs i v) j = if i ≤ j ∧ j < i + bs.length then byteOf bs (j - i) else byteOf v j := by
  induction bs generalizing i v with
  | nil => rw [if_neg (by simp)]; rfl
  | cons b bs ih =>
    rw [List.length_cons] at h ⊢
    rw [putBytes, ih (by rw [List.length_set]; omega), byteOf_set]
    by_cases here : i = j
    · subst here
      rw [if_neg (by omega), if_pos ⟨rfl, by omega⟩, if_pos (by omega), Nat.sub_self, byteOf_cons_zero]
    · rw [if_neg fun both : i = j ∧ _ => here both.1]
      by_cases rest : i + 1 ≤ j ∧ j < i + 1 + bs.length
      · rw [if_pos rest, if_pos (by omega), show j - i = j - (i + 1) + 1 by omega, byteOf_cons_succ]
      · rw [if_neg rest, if_neg (by omega)]

section IvWord
variable {s : State} {w : Nat} (hp : s.params.wellFormed = true) (hw : w < s.params.blockWords)
include hp hw

theorem hostWrite_iv_idle (idle : s.phase = .idle) (v : Word) :
    hostWrite (toWord (0x100 + 4 * w)) 4 v s = s.writeIv w v := by
  simp only [hostWrite, accessed_iv hp hw, writeReg, whileIdle_idle _ idle]

theorem hostWrite_iv_busy (busy : s.phase = .busy) (v : Word) :
    hostWrite (toWord (0x100 + 4 * w)) 4 v s = s.setHosterr := by
  simp only [hostWrite, accessed_iv hp hw, writeReg, whileIdle_busy _ busy]

theorem hostRead_iv_valid (valid : s.ivvalid.getLsbD w = true) :
    hostRead (toWord (0x100 + 4 * w)) 4 s = s.answer (wordAt s.iv (4 * w)) := by
  simp only [hostRead, accessed_iv hp hw, readReg, if_pos valid]

theorem hostRead_iv_invalid (invalid : s.ivvalid.getLsbD w = false) :
    hostRead (toWord (0x100 + 4 * w)) 4 s = s.answerDraw := by
  simp only [hostRead, accessed_iv hp hw, readReg, invalid, Bool.false_eq_true, if_false]

end IvWord

/-- Byte `j` of the IV word `w` after a write of it. -/
theorem byteOf_writeIv {s : State} {w : Nat} (fits : 4 * w + 4 ≤ s.iv.length) (v : Word) {j : Nat} (hj : j < 4) :
    byteOf (s.writeIv w v).iv (4 * w + j) = byteOf (wordBytes v) j := by
  have inside : 4 * w ≤ 4 * w + j ∧ 4 * w + j < 4 * w + (wordBytes v).length := by rw [wordBytes_length]; omega
  rw [writeIv_iv, byteOf_putBytes fits, if_pos inside, Nat.add_sub_cancel_left]

/-- A write of the IV word `w` leaves every other byte of the IV. -/
theorem byteOf_writeIv_outside {s : State} {w : Nat} (fits : 4 * w + 4 ≤ s.iv.length) (v : Word) {j : Nat}
    (hj : j < 4 * w ∨ 4 * w + 4 ≤ j) : byteOf (s.writeIv w v).iv j = byteOf s.iv j := by
  have outside : ¬ (4 * w ≤ j ∧ j < 4 * w + (wordBytes v).length) := by rw [wordBytes_length]; omega
  rw [writeIv_iv, byteOf_putBytes fits, if_neg outside]

/-- A write of the IV word `w` leaves every other bit of IVVALID. -/
theorem getLsbD_writeIv_ivvalid_ne (s : State) (v : Word) {w j : Nat} (hj : j ≠ w) :
    (s.writeIv w v).ivvalid.getLsbD j = s.ivvalid.getLsbD j := by
  by_cases h : j < 64
  · rw [getLsbD_writeIv_ivvalid s w v h, decide_eq_false hj.symm, Bool.or_false]
  · rw [BitVec.getLsbD_of_ge _ _ (Nat.le_of_not_lt h), BitVec.getLsbD_of_ge _ _ (Nat.le_of_not_lt h)]

/-! ## The step with an input -/

theorem step_of_inputs {s : State} {x : Input} {rest : List Input} (h : s.inputs = x :: rest) :
    step s = takeInput x { s with inputs := rest } := by
  rw [step, nextTurn, h, State.dropInput, h, List.tail_cons]

theorem engineTurn_idle {s : State} (idle : s.phase = .idle) : engineTurn s = .next s := by
  rw [engineTurn, idle]

/-! ## The stages of a command at a silent port -/

theorem exec_fwdCommand (m : Mode) (s : State) :
    exec (fwdCommand m) s = runCommand (fun s => (modeIvCheck m s).andThen (fwdStage Config.cipher m)) s := by
  cases m <;> rfl

theorem exec_invCommand (m : Mode) (s : State) :
    exec (invCommand m) s = runCommand (fun s => (modeIvCheck m s).andThen (invStage Config.cipher m)) s := by
  cases m <;> rfl

theorem exec_encCommand (m : Mode) (p : Scheme) (s : State) :
    exec (encCommand m p) s = runCommand (encStages Config.cipher m p) s := by
  cases m <;> rfl

theorem exec_decCommand (m : Mode) (p : Scheme) (s : State) :
    exec (decCommand m p) s = runCommand (decStages Config.cipher m p) s := by
  cases m <;> rfl

/-- ENC after its checks: the pad stage, then the transform (R152). -/
theorem encStages_checked (c : Cipher) {m : Mode} {p : Scheme} {s : State} (hiv : s.ivReady m)
    (hc : paddedLength (effPad m p) s.blockBytes s.length ≤ s.bufBytes)
    (hal : LengthFits m s.blockBytes (paddedLength (effPad m p) s.blockBytes s.length)) :
    encStages c m p s = (padStage (effPad m p) s).andThen (fwdStage c m) := by
  simp only [paddedLength] at hc hal
  have room : capacity (s.length + padCount (effPad m p) s.blockBytes s.length) s = .ok s := by
    rw [capacity, if_neg (Nat.not_lt.mpr hc)]
  simp only [encStages, modeIvCheck_ok hiv, room, andThen_ok]
  cases block : isBlockMode m with
  | false => rfl
  | true => rw [if_pos rfl, aligned, if_neg (not_not.mpr (hal block)), andThen_ok]

/-- ENC that gives the transform something to do waits at a silent cipher port: the pad stage already waits, or it
ends and the transform waits. -/
theorem encStages_silent (c : Cipher) {m : Mode} {p : Scheme} {s : State} (hl : s.legal = true) (hiv : s.ivReady m)
    (hu : s.cipherUp = false) (hpos : 0 < paddedLength (effPad m p) s.blockBytes s.length)
    (hc : paddedLength (effPad m p) s.blockBytes s.length ≤ s.bufBytes)
    (hal : LengthFits m s.blockBytes (paddedLength (effPad m p) s.blockBytes s.length)) :
    encStages c m p s = .waiting := by
  have hB : 0 < s.blockBytes := Nat.lt_of_lt_of_le (by decide) (legal_blockBytes hl).1
  rw [encStages_checked c hiv hc hal]
  by_cases served : s.randomServes (effPad m p)
  · obtain ⟨t, tail, ran, isTail, appended, touch, -⟩ := padStage_ok (effPad m p) s hl hc fun h => (served h).symm
    have ht : t.length = paddedLength (effPad m p) s.blockBytes s.length := by
      rw [appended.1, isTail.length hB, paddedLength]
    rw [ran, andThen_ok]
    apply fwdStage_silent c m t
    · rwa [touch.blockBytes]
    · rwa [touch.blockBytes, ht]
    · rwa [ht]
    · rwa [touch.cipherUp]
  · simp only [State.randomServes, Classical.not_imp, not_or, Bool.not_eq_true] at served
    obtain ⟨iso, silent, asks⟩ := served
    have := requiredPad_pos (L := s.length) hB
    rw [iso] at hc ⊢
    rw [padStage_waiting s hc (by omega) silent, andThen_waiting]

end Sys2Proof.Machine
end

section
/-! The settled statements of spec/20_memory.md: the commands at a silent port and their frame, the host-interface errors,
DATA and IV words, the order of the inputs, and the reads. -/

namespace Sys2Proof.Machine

/-! ## Commands -/

/-- Settles O14: by R94 a command is its stages, and each of these waits. -/
theorem silentPortKeepsBusy : Obligations.SilentPortKeepsBusy := by
  refine ⟨fun s m p hl hiv hal hL hu => ?_, fun s m p hl hiv hu hpos hc hal => ?_, fun s hl hc hN hr => ⟨?_, ?_⟩⟩
  · have hB : 0 < s.blockBytes := Nat.lt_of_lt_of_le (by decide) (legal_blockBytes hl).1
    have fwd := fwdStage_silent Config.cipher m s hB hal hL hu
    have inv := invStage_silent Config.cipher m s hB hal hL hu
    rw [exec_fwdCommand, exec_invCommand, exec_decCommand]
    exact ⟨runCommand_waiting hl (by rw [modeIvCheck_ok hiv, andThen_ok, fwd]),
      runCommand_waiting hl (by rw [modeIvCheck_ok hiv, andThen_ok, inv]),
      runCommand_waiting hl (by rw [decStages, modeIvCheck_ok hiv, andThen_ok, inv, andThen_waiting])⟩
  · rw [exec_encCommand]
    exact runCommand_waiting hl (encStages_silent Config.cipher hl hiv hu hpos hc hal)
  · exact runCommand_waiting hl (padStage_waiting s hc hN hr)
  · intro m block hiv
    have hB : 0 < s.blockBytes := Nat.lt_of_lt_of_le (by decide) (legal_blockBytes hl).1
    have iso : effPad m .iso10126 = .iso10126 := if_pos block
    have checked := encStages_checked Config.cipher (p := .iso10126) hiv (by rw [iso]; exact hc)
      fun _ => padded_aligned hB (by rw [iso]; decide)
    rw [exec_encCommand]
    exact runCommand_waiting hl (by rw [checked, iso, padStage_waiting s hc hN hr, andThen_waiting])

/-- Settles O16, from the three ways in which a command ends. -/
theorem commandFrame : Obligations.CommandFrame := by
  intro i s t h
  refine ⟨frame_of_exec_next h, ?_⟩
  rcases exec_cases i s (legal_of_exec_next h) with
    ⟨u, hu, touch, -, keeps⟩ | ⟨e, info, u, hu, touch, keeps, mem⟩ | ⟨hu, silent⟩ <;> rw [hu] at h <;> cases h
  · exact ⟨touch.beyond, keeps, .inl (completed_of_touch touch)⟩
  · refine ⟨(touch.mono ?_).beyond, fun _ => keeps,
      .inr (.inl ⟨e, mem, info, faulted_of_touch touch keeps e info, fun early a => ?_⟩)⟩
    · split <;> omega
    · rw [if_neg (by rw [early]; decide)] at touch
      exact touch.beyond a (Nat.zero_le a)
  · exact ⟨fun _ _ => rfl, fun _ => rfl, .inr (.inr ⟨rfl, silent⟩)⟩

/-! ## Host accesses -/

/-- Settles O53, register by register at its offset. -/
theorem hostInterfaceErrors : Obligations.HostInterfaceErrors := by
  refine ⟨fun s off bytes v bad => ⟨hostRead_bad bad, hostWrite_bad bad⟩, fun s off v readOnly => ?_,
    fun s v => hostWrite_len_large, fun s off v busy guarded => ?_, fun s off good => ?_,
    fun s off v good writable status fits accepted => ?_⟩
  · exact hostWrite_refused fun r at_r => writeReg_readOnly (at_r ▸ readOnly) v s
  · exact hostWrite_refused fun r at_r => writeReg_guarded busy (at_r ▸ guarded) v
  · obtain ⟨r, acc, -⟩ := accessed_of_not_bad good
    rw [hostRead, acc]
    exact readReg_hosterr r s
  · obtain ⟨r, acc, at_r⟩ := accessed_of_not_bad good
    rw [hostWrite, acc]
    rw [at_r] at writable accepted
    refine writeReg_hosterr ?_ writable ?_ accepted
    · rintro rfl
      exact status (BitVec.eq_of_toNat_eq at_r)
    · rintro ⟨rfl, large⟩
      exact fits ⟨BitVec.eq_of_toNat_eq at_r, large⟩

/-- Settles O54, from MemWrite and from MemRead of bytes that are all, none and some of them written. -/
theorem dataWordsAreBigEndian : Obligations.DataWordsAreBigEndian := by
  rintro s k _ hp idle hk rfl
  rw [hostRead_data_idle hp hk idle]
  refine ⟨?_, fun b0 b1 b2 b3 h0 h1 h2 h3 => ?_, fun unwritten => ?_, fun b hb => ?_⟩
  · rintro v _ rfl
    rw [hostWrite_data_idle hp hk idle]
    have written {j : Nat} (hj : j < 4) := byteAt_memWrite_wordBytes v (4 * k) s hj
    refine ⟨memWrite_eq _ _ _, written (j := 0) (by decide), written (j := 1) (by decide), written (j := 2) (by decide),
      written (j := 3) (by decide), fun i outside => ?_⟩
    rw [byteAt_memWrite, wordBytes_length, if_neg (by omega)]
  · have written : ∀ j, j < 4 → s.byteAt (4 * k + j) = some (byteOf [b0, b1, b2, b3] j)
      | 0, _ => h0
      | 1, _ => h1
      | 2, _ => h2
      | 3, _ => h3
    have read : memRead 4 (4 * k) s = ([b0, b1, b2, b3], s) := memRead_written [b0, b1, b2, b3] written
    rw [read]
    rfl
  · rw [memRead_unwritten unwritten, wordAt_drawnBytes]
    rfl
  · rw [memRead_eq, hb 0 (by decide), hb 1 (by decide), hb 2 (by decide), hb 3 (by decide)]
    rfl

/-- Settles O55, from the bytes and the bits that a write of an IV word leaves. -/
theorem ivWordsAreBigEndian : Obligations.IvWordsAreBigEndian := by
  rintro s w _ hp hlen hw rfl
  have fits : 4 * w + 4 ≤ s.iv.length := by rw [hlen, State.blockBytes]; omega
  refine ⟨?_, fun v busy => hostWrite_iv_busy hp hw busy v, hostRead_iv_valid hp hw, hostRead_iv_invalid hp hw⟩
  rintro v _ idle rfl
  rw [hostWrite_iv_idle hp hw idle]
  have low : w < 64 := by have := ((wellFormed_iff _).mp hp).2.1; omega
  have written {j : Nat} (hj : j < 4) := byteOf_writeIv fits v hj
  refine ⟨rfl, putBytes_length _ _ _, written (j := 0) (by decide), written (j := 1) (by decide),
    written (j := 2) (by decide), written (j := 3) (by decide), fun j => byteOf_writeIv_outside fits v, ?_,
    fun j => getLsbD_writeIv_ivvalid_ne s v⟩
  rw [getLsbD_writeIv_ivvalid s w v low, decide_eq_true rfl, Bool.or_true]

/-- Settles O7: the step is `takeInput` of the first input, for each kind of input. -/
theorem stepTakesTheFirstInput : Obligations.StepTakesTheFirstInput := by
  rintro s _ rest rfl
  exact ⟨fun _ _ h => step_of_inputs h, fun _ _ _ h => step_of_inputs h, fun _ h => step_of_inputs h,
    fun _ _ h => step_of_inputs h, fun idle h => (step_of_inputs h).trans (engineTurn_idle idle)⟩

/-- Settles O59: each control register by its offset, DATA words from the map. -/
theorem readsReturnCurrentValues : Obligations.ReadsReturnCurrentValues := by
  intro s hp
  refine ⟨?_, rfl, rfl, rfl, rfl, rfl, rfl, rfl, rfl, rfl, fun k busy hk => hostRead_data_busy hp hk busy⟩
  rw [← toWord_blockWords hp]
  rfl

end Sys2Proof.Machine
end

section
/-! The facts under the statements of spec/30_encoding.md: a word and its fields, the families of commands, the rows of the
opcode table, the words that decode to no command, the issue of a word, and the engine's turn of a command. -/

namespace Sys2Proof

/-! ## Words and fields -/

/-- A word has given fields exactly when it is their word (R80). -/
theorem fieldsOf_eq_iff (w : Word) (f : Fields) : fieldsOf w = f ↔ w = wordOf f := by
  constructor
  · rintro rfl
    exact word_of_fields w
  · rintro rfl
    exact fields_of_word f

/-- A word decodes to a command exactly when it is the command's word (R87, R89). -/
theorem decode_eq_command_iff (w : Word) (i : Instr) : decode w = .command i ↔ w = encode i :=
  (decodeFields_iff (fieldsOf w) i).trans (fieldsOf_eq_iff w _)

theorem decode_encode (i : Instr) : decode (encode i) = .command i := (decode_eq_command_iff _ i).mpr rfl

/-! ## The families of commands -/

/-- Every command is one of six families (R89). -/
theorem Instr.family (i : Instr) :
    (∃ p, i = padCommand p) ∨ (∃ p, i = unpadCommand p) ∨ (∃ m, i = fwdCommand m) ∨ (∃ m, i = invCommand m) ∨
    (∃ m p, i = encCommand m p) ∨ (∃ m p, i = decCommand m p) := by
  cases i with
  | padNone => exact .inl ⟨.nopad, rfl⟩
  | padZero => exact .inl ⟨.zero, rfl⟩
  | padIso7816 => exact .inl ⟨.iso7816, rfl⟩
  | padX923 => exact .inl ⟨.x923, rfl⟩
  | padIso10126 => exact .inl ⟨.iso10126, rfl⟩
  | padPkcs7 => exact .inl ⟨.pkcs7, rfl⟩
  | unpadNone => exact .inr (.inl ⟨.nopad, rfl⟩)
  | unpadZero => exact .inr (.inl ⟨.zero, rfl⟩)
  | unpadIso7816 => exact .inr (.inl ⟨.iso7816, rfl⟩)
  | unpadX923 => exact .inr (.inl ⟨.x923, rfl⟩)
  | unpadIso10126 => exact .inr (.inl ⟨.iso10126, rfl⟩)
  | unpadPkcs7 => exact .inr (.inl ⟨.pkcs7, rfl⟩)
  | fwdEcb => exact .inr (.inr (.inl ⟨.ecb, rfl⟩))
  | fwdCbc => exact .inr (.inr (.inl ⟨.cbc, rfl⟩))
  | fwdCfb => exact .inr (.inr (.inl ⟨.cfb, rfl⟩))
  | fwdOfb => exact .inr (.inr (.inl ⟨.ofb, rfl⟩))
  | fwdCtr => exact .inr (.inr (.inl ⟨.ctr, rfl⟩))
  | invEcb => exact .inr (.inr (.inr (.inl ⟨.ecb, rfl⟩)))
  | invCbc => exact .inr (.inr (.inr (.inl ⟨.cbc, rfl⟩)))
  | invCfb => exact .inr (.inr (.inr (.inl ⟨.cfb, rfl⟩)))
  | invOfb => exact .inr (.inr (.inr (.inl ⟨.ofb, rfl⟩)))
  | invCtr => exact .inr (.inr (.inr (.inl ⟨.ctr, rfl⟩)))
  | encEcb p => exact .inr (.inr (.inr (.inr (.inl ⟨.ecb, p, rfl⟩))))
  | encCbc p => exact .inr (.inr (.inr (.inr (.inl ⟨.cbc, p, rfl⟩))))
  | encCfb p => exact .inr (.inr (.inr (.inr (.inl ⟨.cfb, p, rfl⟩))))
  | encOfb p => exact .inr (.inr (.inr (.inr (.inl ⟨.ofb, p, rfl⟩))))
  | encCtr p => exact .inr (.inr (.inr (.inr (.inl ⟨.ctr, p, rfl⟩))))
  | decEcb p => exact .inr (.inr (.inr (.inr (.inr ⟨.ecb, p, rfl⟩))))
  | decCbc p => exact .inr (.inr (.inr (.inr (.inr ⟨.cbc, p, rfl⟩))))
  | decCfb p => exact .inr (.inr (.inr (.inr (.inr ⟨.cfb, p, rfl⟩))))
  | decOfb p => exact .inr (.inr (.inr (.inr (.inr ⟨.ofb, p, rfl⟩))))
  | decCtr p => exact .inr (.inr (.inr (.inr (.inr ⟨.ctr, p, rfl⟩))))

/-- The commands whose word is fixed: all but ENC and DEC, whose PAD field selects the scheme (R89). -/
def fixedCommands : List Instr :=
  schemes.map padCommand ++ schemes.map unpadCommand ++ modes.map fwdCommand ++ modes.map invCommand

/-- ENC and DEC by mode, as functions of the scheme in the PAD field (R89). -/
def openCommands : List (Scheme → Instr) := modes.map encCommand ++ modes.map decCommand

theorem mem_schemes (p : Scheme) : p ∈ schemes := by cases p <;> decide

theorem mem_modes (m : Mode) : m ∈ modes := by cases m <;> decide

theorem mem_openCommands (f : Scheme → Instr) :
    f ∈ openCommands ↔ (∃ m, f = encCommand m) ∨ ∃ m, f = decCommand m := by
  simp only [openCommands, List.mem_append, List.mem_map, mem_modes, true_and, eq_comm]

/-- A command has a fixed word, or is ENC or DEC with the scheme of its PAD field. -/
theorem fixed_or_open (i : Instr) : i ∈ fixedCommands ∨ ∃ f ∈ openCommands, ∃ p, f p = i := by
  rcases i.family with ⟨p, rfl⟩ | ⟨p, rfl⟩ | ⟨m, rfl⟩ | ⟨m, rfl⟩ | ⟨m, p, rfl⟩ | ⟨m, p, rfl⟩
  · exact .inl (by simp [fixedCommands, List.mem_map_of_mem (mem_schemes p)])
  · exact .inl (by simp [fixedCommands, List.mem_map_of_mem (mem_schemes p)])
  · exact .inl (by simp [fixedCommands, List.mem_map_of_mem (mem_modes m)])
  · exact .inl (by simp [fixedCommands, List.mem_map_of_mem (mem_modes m)])
  · exact .inr ⟨_, (mem_openCommands _).mpr (.inl ⟨m, rfl⟩), p, rfl⟩
  · exact .inr ⟨_, (mem_openCommands _).mpr (.inr ⟨m, rfl⟩), p, rfl⟩

/-! ## The fields of the words of ENC and DEC -/

theorem encodeFields_encCommand (m : Mode) (p : Scheme) :
    encodeFields (encCommand m p) = ⟨5, modeValue m, schemeValue p, 0⟩ := by cases m <;> rfl

theorem encodeFields_decCommand (m : Mode) (p : Scheme) :
    encodeFields (decCommand m p) = ⟨6, modeValue m, schemeValue p, 0⟩ := by cases m <;> rfl

theorem encode_pad (i : Instr) : (encode i).extractLsb' 8 4 = (encodeFields i).pad :=
  congrArg Fields.pad (fields_of_word (encodeFields i))

/-- The PAD field of ENC and DEC is the value of their scheme (R83). -/
theorem encode_open_pad {f : Scheme → Instr} (hf : f ∈ openCommands) (p : Scheme) :
    (encode (f p)).extractLsb' 8 4 = schemeValue p := by
  rw [encode_pad]
  rcases (mem_openCommands f).mp hf with ⟨m, rfl⟩ | ⟨m, rfl⟩
  · rw [encodeFields_encCommand]
  · rw [encodeFields_decCommand]

/-- The mask of ENC and DEC fixes every field but PAD. -/
theorem wordOf_and_mask (f : Fields) : wordOf f &&& 0xFFFFF0FF = wordOf { f with pad := 0 } := by
  change (f.rsv ++ f.pad ++ f.mode ++ f.op) &&& (BitVec.allOnes 20 ++ 0#4 ++ BitVec.allOnes 4 ++ BitVec.allOnes 4) = _
  simp only [BitVec.and_append, BitVec.and_allOnes, BitVec.and_zero]
  rfl

/-- Under the mask of ENC and DEC their words are those with PAD 0x0. -/
theorem encode_open_mask {f : Scheme → Instr} (hf : f ∈ openCommands) (p : Scheme) :
    encode (f p) &&& 0xFFFFF0FF = encode (f .nopad) := by
  rw [encode, encode, wordOf_and_mask]
  rcases (mem_openCommands f).mp hf with ⟨m, rfl⟩ | ⟨m, rfl⟩
  · rw [encodeFields_encCommand, encodeFields_encCommand]
    rfl
  · rw [encodeFields_decCommand, encodeFields_decCommand]
    rfl

theorem schemeValue_le (p : Scheme) : (schemeValue p).toNat ≤ 5 := by cases p <;> decide

theorem schemeOf_isSome_iff (v : BitVec 4) : (schemeOf v).isSome = true ↔ v.toNat ≤ 5 := by
  revert v
  decide

theorem modeOf_isSome_iff (v : BitVec 4) : (modeOf v).isSome = true ↔ v.toNat ≤ 4 := by
  revert v
  decide

/-- Two words that agree under the mask of ENC and DEC and in the PAD field are one. -/
theorem eq_of_mask_of_pad {a b : Word} (mask : a &&& 0xFFFFF0FF = b &&& 0xFFFFF0FF)
    (pad : a.extractLsb' 8 4 = b.extractLsb' 8 4) : a = b := by
  obtain ⟨f, rfl⟩ : ∃ f, a = wordOf f := ⟨fieldsOf a, word_of_fields a⟩
  obtain ⟨g, rfl⟩ : ∃ g, b = wordOf g := ⟨fieldsOf b, word_of_fields b⟩
  have padEq : f.pad = g.pad := by
    rw [← fields_of_word f, ← fields_of_word g]
    exact pad
  have rest := congrArg fieldsOf mask
  rw [wordOf_and_mask, wordOf_and_mask, fields_of_word, fields_of_word] at rest
  obtain ⟨op, mode, -, rsv⟩ := Fields.mk.inj rest
  cases f
  cases g
  exact congrArg wordOf (Fields.mk.injEq .. ▸ ⟨op, mode, padEq, rsv⟩)

end Sys2Proof

namespace Sys2Proof.Machine

/-! ## The opcode table -/

/-- The row of a command with a fixed word: it fixes every bit. -/
def fixedRow (i : Instr) : TableRow := ⟨0xFFFFFFFF, encode i, fun _ => i⟩

/-- The row of an ENC or a DEC: it leaves the PAD field free. -/
def openRow (f : Scheme → Instr) : TableRow := ⟨0xFFFFF0FF, encode (f .nopad), f⟩

/-- The opcode table is a row for each command with a fixed word and one for each ENC and each DEC (R89). -/
theorem tableRows_eq : tableRows = fixedCommands.map fixedRow ++ openCommands.map openRow := rfl

theorem mem_tableRows (r : TableRow) :
    r ∈ tableRows ↔ (∃ i ∈ fixedCommands, fixedRow i = r) ∨ ∃ f ∈ openCommands, openRow f = r := by
  rw [tableRows_eq, List.mem_append, List.mem_map, List.mem_map]

theorem fixedRow_matches (i : Instr) (w : Word) :
    (fixedRow i).matches w ↔ w = encode i ∧ (w.extractLsb' 8 4).toNat ≤ 5 := by
  have all : w &&& 0xFFFFFFFF = w := BitVec.and_allOnes
  simp only [TableRow.matches, fixedRow, all]

/-- A word in a row is the word of the row's command for the scheme of its PAD field. -/
theorem TableRow.matches.eq_encode {r : TableRow} {w : Word} {p : Scheme} (row : r ∈ tableRows) (h : r.matches w)
    (scheme : schemeOf (w.extractLsb' 8 4) = some p) : w = encode (r.command p) := by
  rcases (mem_tableRows r).mp row with ⟨i, -, rfl⟩ | ⟨f, hf, rfl⟩
  · exact ((fixedRow_matches i w).mp h).1
  · refine eq_of_mask_of_pad (h.1.trans (encode_open_mask hf p).symm) ?_
    rw [(schemeOf_eq _ _).mp scheme]
    exact (encode_open_pad hf p).symm

/-- The PAD field of every command's word holds a scheme (R83, R85). -/
theorem encode_pad_scheme (i : Instr) : ∃ p, schemeOf ((encode i).extractLsb' 8 4) = some p := by
  rcases fixed_or_open i with fixed | ⟨f, hf, p, rfl⟩
  · have all : ∀ i ∈ fixedCommands, (schemeOf ((encode i).extractLsb' 8 4)).isSome = true := by decide
    exact Option.isSome_iff_exists.mp (all i fixed)
  · exact ⟨p, (schemeOf_eq _ _).mpr (encode_open_pad hf p)⟩

/-- The word of every command is in a row of the table. -/
theorem encode_in_table (i : Instr) :
    ∃ r ∈ tableRows, ∃ p, r.matches (encode i) ∧ schemeOf ((encode i).extractLsb' 8 4) = some p ∧ r.command p = i := by
  rcases fixed_or_open i with fixed | ⟨f, hf, p, rfl⟩
  · obtain ⟨p, scheme⟩ := encode_pad_scheme i
    have pad := (schemeOf_isSome_iff _).mp (Option.isSome_of_eq_some scheme)
    exact ⟨fixedRow i, (mem_tableRows _).mpr (.inl ⟨i, fixed, rfl⟩), p, (fixedRow_matches i _).mpr ⟨rfl, pad⟩, scheme, rfl⟩
  · have pad := encode_open_pad hf p
    refine ⟨openRow f, (mem_tableRows _).mpr (.inr ⟨f, hf, rfl⟩), p, ⟨encode_open_mask hf p, ?_⟩,
      (schemeOf_eq _ _).mpr pad, rfl⟩
    rw [pad]
    exact schemeValue_le p

/-- The bits a row fixes, by OP: all for PAD, UNPAD, FWD and INV, all but PAD for ENC and DEC. -/
def opMask (op : BitVec 4) : Word := if op.toNat ≤ 4 then 0xFFFFFFFF else 0xFFFFF0FF

theorem row_mask : ∀ r ∈ tableRows, r.mask = opMask (r.pattern.extractLsb' 0 4) := by decide

/-- Every row fixes OP, so the words in a row have the OP of its pattern. -/
theorem TableRow.matches.op_eq {r : TableRow} {w : Word} (row : r ∈ tableRows) (h : r.matches w) :
    w.extractLsb' 0 4 = r.pattern.extractLsb' 0 4 := by
  have fixesOp : ∀ r ∈ tableRows, r.mask.extractLsb' 0 4 = BitVec.allOnes 4 := by decide
  rw [← h.1, BitVec.extractLsb'_and, fixesOp r row, BitVec.and_allOnes]

/-- No word is in two rows (R87). -/
theorem TableRow.matches.unique {r r' : TableRow} {w : Word} (row : r ∈ tableRows) (row' : r' ∈ tableRows)
    (h : r.matches w) (h' : r'.matches w) : r.mask = r'.mask ∧ r.pattern = r'.pattern := by
  have mask : r.mask = r'.mask := by rw [row_mask r row, row_mask r' row', ← h.op_eq row, ← h'.op_eq row']
  exact ⟨mask, by rw [← h.1, ← h'.1, mask]⟩

end Sys2Proof.Machine

namespace Sys2Proof

/-! ## Which words decode -/

theorem isCommand_decodePadding (f : Fields) (mk : Scheme → Instr) :
    isCommand (decodePadding f mk) = true ↔ f.mode.toNat = 0 ∧ f.pad.toNat ≤ 5 := by
  have zero : f.mode.toNat = 0 ↔ f.mode = 0 := BitVec.toNat_inj (y := 0)
  rw [← schemeOf_isSome_iff, zero, decodePadding]
  by_cases mode : f.mode = 0
  · rw [if_neg (not_not.mpr mode)]
    cases schemeOf f.pad <;> simp [isCommand, mode]
  · rw [if_pos mode]
    exact iff_of_false Bool.false_ne_true fun both => mode both.1

theorem isCommand_decodeTransform (f : Fields) (mk : Mode → Instr) :
    isCommand (decodeTransform f mk) = true ↔ f.mode.toNat ≤ 4 ∧ f.pad.toNat = 0 := by
  have zero : f.pad.toNat = 0 ↔ f.pad = 0 := BitVec.toNat_inj (y := 0)
  rw [← modeOf_isSome_iff, zero, decodeTransform]
  cases modeOf f.mode with
  | none => simp [isCommand]
  | some m =>
    by_cases pad : f.pad = 0
    · simp [isCommand, pad]
    · simp only [ne_eq, pad, not_false_eq_true, if_true, and_false, iff_false]
      exact Bool.false_ne_true

theorem isCommand_decodeContract (f : Fields) (mk : Mode → Scheme → Instr) :
    isCommand (decodeContract f mk) = true ↔ f.mode.toNat ≤ 4 ∧ f.pad.toNat ≤ 5 := by
  rw [← modeOf_isSome_iff, ← schemeOf_isSome_iff, decodeContract]
  cases modeOf f.mode <;> cases schemeOf f.pad <;> simp [isCommand]

/-- The fields that decode to a command, by OP (R85). -/
theorem isCommand_decodeFields (f : Fields) :
    isCommand (decodeFields f) = true ↔ f.rsv = 0 ∧
      (((f.op.toNat = 1 ∨ f.op.toNat = 2) ∧ f.mode.toNat = 0 ∧ f.pad.toNat ≤ 5) ∨
       ((f.op.toNat = 3 ∨ f.op.toNat = 4) ∧ f.mode.toNat ≤ 4 ∧ f.pad.toNat = 0) ∨
       ((f.op.toNat = 5 ∨ f.op.toNat = 6) ∧ f.mode.toNat ≤ 4 ∧ f.pad.toNat ≤ 5)) := by
  unfold decodeFields
  by_cases rsv : f.rsv = 0
  · rw [if_neg (not_not.mpr rsv)]
    rcases f.op.toNat with _ | _ | _ | _ | _ | _ | _ | op
    · simp [isCommand]
    · simp [isCommand_decodePadding, rsv]
    · simp [isCommand_decodePadding, rsv]
    · simp [isCommand_decodeTransform, rsv]
    · simp [isCommand_decodeTransform, rsv]
    · simp [isCommand_decodeContract, rsv]
    · simp [isCommand_decodeContract, rsv]
    · simp [isCommand]
  · rw [if_pos rsv]
    exact iff_of_false Bool.false_ne_true fun both => rsv both.1

end Sys2Proof

namespace Sys2Proof.Machine

/-! ## The issue of a word -/

theorem issueFrame_started (w : Word) (s : State) : IssueFrame s (s.started w) := by constructor <;> rfl

theorem issueFrame_illegal (w : Word) (s : State) :
    IssueFrame s (completeFault .illegalCommand w (s.accept w)) := by constructor <;> rfl

/-- What the issue of a word does whether the word is legal or not (R95). -/
theorem issue_accepts (w : Word) (s : State) :
    (s.issue w).lastcmd = w ∧ (s.issue w).done = false ∧ IssueFrame s (s.issue w) := by
  rcases issue_cases w s with ⟨-, h⟩ | ⟨-, h⟩ <;> rw [h]
  · exact ⟨rfl, rfl, issueFrame_started w s⟩
  · exact ⟨rfl, rfl, issueFrame_illegal w s⟩

theorem issue_illegal {w : Word} {s : State} (h : isCommand (decode w) = false) :
    s.issue w = completeFault .illegalCommand w (s.accept w) := by
  rcases issue_cases w s with ⟨command, -⟩ | ⟨-, issued⟩
  · rw [h] at command; cases command
  · exact issued

theorem issue_command {w : Word} {s : State} {i : Instr} (h : decode w = .command i) : s.issue w = s.started w := by
  rw [State.issue, h]

theorem hostWrite_cmd_idle {w : Word} {s : State} (idle : s.phase = .idle) : hostWrite 0x008 4 w s = s.issue w := by
  rw [hostWrite_cmd, whileIdle_idle _ idle]

/-! ## The engine's turn of a command -/

theorem engineTurn_command {s : State} {i : Instr} (busy : s.phase = .busy) (h : decode s.cur = .command i) :
    engineTurn s = exec i s := by
  simp only [engineTurn, busy, h]

theorem step_of_no_inputs {s : State} (h : s.inputs = []) : step s = engineTurn s := by
  rw [step, nextTurn, h]

theorem decode_of_decodeTableWord {nbits w : Nat} {i : Instr} (h : decodeTableWord nbits w = some i) :
    decode (BitVec.ofNat 32 (w % 2 ^ nbits)) = .command i := by
  unfold decodeTableWord at h
  split at h
  · split at h <;> cases h
    assumption
  · cases h

/-- A command in a legal machine ends in no fault and no refusal. -/
theorem exec_answers (i : Instr) {s : State} (hl : s.legal = true) : ∃ t, exec i s = .next t := by
  rcases exec_cases i s hl with ⟨u, h, -⟩ | ⟨e, info, u, h, -⟩ | ⟨h, -⟩
  · exact ⟨_, h⟩
  · exact ⟨_, h⟩
  · exact ⟨_, h⟩

theorem engineTurn_answers {s : State} (hl : s.legal = true) : ∃ t, engineTurn s = .next t := by
  unfold engineTurn
  split
  · exact ⟨s, rfl⟩
  · split
    · exact exec_answers _ hl
    · exact ⟨_, rfl⟩

theorem takeInput_answers (x : Input) {s : State} (hl : s.legal = true) : ∃ t, takeInput x s = .next t := by
  cases x with
  | engine => exact engineTurn_answers hl
  | _ => exact ⟨_, rfl⟩

/-! ## The IV check -/

theorem ivMode_fwdCommand (m : Mode) : ivMode (fwdCommand m) ≠ none ↔ needsIv m = true := by cases m <;> decide

theorem ivMode_invCommand (m : Mode) : ivMode (invCommand m) ≠ none ↔ needsIv m = true := by cases m <;> decide

theorem ivMode_encCommand (m : Mode) (p : Scheme) : ivMode (encCommand m p) ≠ none ↔ needsIv m = true := by
  cases m <;> simp [ivMode, encCommand, needsIv]

theorem ivMode_decCommand (m : Mode) (p : Scheme) : ivMode (decCommand m p) ≠ none ↔ needsIv m = true := by
  cases m <;> simp [ivMode, decCommand, needsIv]

theorem ivMode_padCommand (p : Scheme) : ivMode (padCommand p) = none := by cases p <;> rfl

theorem ivMode_unpadCommand (p : Scheme) : ivMode (unpadCommand p) = none := by cases p <;> rfl

/-- Without a complete IV a command of a mode that needs it raises IvMissing before anything else (R96). -/
theorem raises_ivMissing {i : Instr} {s : State} (hl : s.legal = true) (hi : ivMode i ≠ none)
    (h : s.ivComplete = false) : Raises i s .ivMissing (s.ivvalid.extractLsb' 0 32) := by
  rcases i.family with ⟨p, rfl⟩ | ⟨p, rfl⟩ | ⟨m, rfl⟩ | ⟨m, rfl⟩ | ⟨m, p, rfl⟩ | ⟨m, p, rfl⟩
  · exact absurd (ivMode_padCommand p) hi
  · exact absurd (ivMode_unpadCommand p) hi
  · have needs := (ivMode_fwdCommand m).mp hi
    exact raises_of_runCommand (exec_fwdCommand m s) hl (by rw [modeIvCheck_raised needs h, andThen_raised])
  · have needs := (ivMode_invCommand m).mp hi
    exact raises_of_runCommand (exec_invCommand m s) hl (by rw [modeIvCheck_raised needs h, andThen_raised])
  · have needs := (ivMode_encCommand m p).mp hi
    exact raises_of_runCommand (exec_encCommand m p s) hl (encStages_ivMissing _ p needs h)
  · have needs := (ivMode_decCommand m p).mp hi
    exact raises_of_runCommand (exec_decCommand m p s) hl (decStages_ivMissing _ p needs h)

/-- A command of a mode without the IV check does not have IvMissing among its faults (R231). -/
theorem ivMissing_not_mem_faultsOf {i : Instr} (hi : ivMode i = none) : .ivMissing ∉ faultsOf i := by
  have unpad (q : Scheme) : .ivMissing ∉ unpadFaults q := by cases q <;> decide
  have pad (q : Scheme) : .ivMissing ∉ padFaults q := by cases q <;> decide
  cases i with
  | unpadNone => exact unpad .nopad
  | unpadZero => exact unpad .zero
  | unpadIso7816 => exact unpad .iso7816
  | unpadX923 => exact unpad .x923
  | unpadIso10126 => exact unpad .iso10126
  | unpadPkcs7 => exact unpad .pkcs7
  | encEcb p => exact pad p
  | decEcb p => exact List.not_mem_cons_of_ne_of_not_mem (by decide) (unpad p)
  | padNone | padZero | padIso7816 | padX923 | padIso10126 | padPkcs7 | fwdEcb | invEcb => decide
  | _ => cases hi

theorem errCode_eq_ivMissing_iff (e : Err) : errCode e = errCode .ivMissing ↔ e = .ivMissing := by
  cases e <;> decide

/-! ## The PAD field of a stream mode -/

theorem effPad_stream {m : Mode} (stream : isBlockMode m = false) (p : Scheme) : effPad m p = .nopad := by
  rw [effPad, stream]
  rfl

/-- ENC of a stream mode does not look at its PAD field (R92, R151). -/
theorem exec_encCommand_stream {m : Mode} (stream : isBlockMode m = false) (p : Scheme) (s : State) :
    exec (encCommand m p) s = exec (encCommand m .nopad) s := by
  have stages : encStages Config.cipher m p = encStages Config.cipher m .nopad := by
    funext s
    simp only [encStages, effPad_stream stream]
  rw [exec_encCommand, exec_encCommand, stages]

/-- DEC of a stream mode does not look at its PAD field (R92, R151). -/
theorem exec_decCommand_stream {m : Mode} (stream : isBlockMode m = false) (p : Scheme) (s : State) :
    exec (decCommand m p) s = exec (decCommand m .nopad) s := by
  have stages : decStages Config.cipher m p = decStages Config.cipher m .nopad := by
    funext s
    simp only [decStages, effPad_stream stream]
  rw [exec_decCommand, exec_decCommand, stages]

theorem assembledScheme_stream {m : Mode} (stream : isBlockMode m = false) (p : Scheme) :
    assembledScheme m (some p) = none ∧ assembledScheme m none = some .nopad := by
  cases m with
  | ecb | cbc => cases stream
  | cfb | ofb | ctr => exact ⟨rfl, rfl⟩

theorem assembledScheme_block {m : Mode} (block : isBlockMode m = true) :
    assembledScheme m none = assembledScheme m (some .iso7816) := by
  cases m with
  | ecb | cbc => rfl
  | cfb | ofb | ctr => cases block

end Sys2Proof.Machine
end

section
/-! The settled statements of spec/30_encoding.md: the decoder and the opcode table, illegal words, the issue of a word, the
step of the engine, the IV check, and the assembler. -/

namespace Sys2Proof.Machine

/-! ## The decoder -/

/-- Settles O1: decoding inverts encoding on the fields, and a word is its fields. -/
theorem decodeInvertsEncode : Obligations.DecodeInvertsEncode := fun i w => decode_eq_command_iff w i

/-- Settles O2: a word in a row is the word of the row's command, and the word of every command is in a row; OP tells a
row's mask, and the mask its pattern. -/
theorem decodeIsTheOpcodeTable : Obligations.DecodeIsTheOpcodeTable := by
  refine ⟨fun w i => ?_, fun w r row r' row' h h' => h.unique row row' h'⟩
  rw [decode_eq_command_iff]
  constructor
  · rintro rfl
    exact encode_in_table i
  · rintro ⟨r, row, p, h, scheme, rfl⟩
    exact h.eq_encode row scheme

/-- Settles O3: the illegal words are those outside the fields of R85, and their issue is a fault completion. -/
theorem illegalWordsCompleteAtIssue : Obligations.IllegalWordsCompleteAtIssue := by
  refine ⟨?_, ?_⟩
  · rintro w op mode pad rfl rfl rfl
    rw [← Bool.not_eq_true, decode, isCommand_decodeFields]
    simp only [fieldsOf]
    by_cases rsv : w.extractLsb' 12 20 = 0
    · simp only [rsv, true_and, ne_eq, not_true, false_or]
      omega
    · exact iff_of_true (fun both => rsv both.1) (.inr (.inr (.inl rsv)))
  · rintro s _ w idle illegal rfl
    rw [hostWrite_cmd_idle idle, issue_illegal illegal]
    exact ⟨rfl, rfl, rfl, rfl, rfl, rfl, issueFrame_illegal w s⟩

/-- Settles O4, each word being the one its command encodes to. -/
theorem writtenOutWordsDecode : Obligations.WrittenOutWordsDecode :=
  ⟨decode_encode .padIso7816, decode_encode .unpadPkcs7, decode_encode .fwdCbc, decode_encode .invCtr,
    decode_encode (.encEcb .pkcs7), decode_encode (.encCtr .x923), decode_encode (.decCbc .iso10126),
    decode_encode (.decOfb .nopad)⟩

/-- Settles O5: a stream mode looks at no PAD field, neither in the assembler nor in the engine. -/
theorem assemblerDefaults : Obligations.AssemblerDefaults := by
  refine ⟨fun m block => ?_, rfl, fun m p stream => ?_⟩
  · simp only [assemble, assembledScheme_block block, and_self]
  · obtain ⟨refused, plain⟩ := assembledScheme_stream stream p
    simp only [assemble, refused, plain, Option.map_none, Option.map_some, decode_encode, true_and]
    exact fun s => ⟨exec_encCommand_stream stream p s, exec_decCommand_stream stream p s⟩

/-! ## The step -/

/-- Settles O11: in a legal machine every turn answers, and what the engine's turn runs are commands. -/
theorem stepAlwaysAnswers : Obligations.StepAlwaysAnswers := by
  intro s hs
  cases inputs : s.inputs with
  | nil =>
    rw [step_of_no_inputs inputs]
    exact engineTurn_answers hs.legal
  | cons x rest =>
    rw [step_of_inputs inputs]
    exact takeInput_answers x hs.legal

/-- Settles O6: with no input, and at its own input, the engine has its turn. -/
theorem stepRunsTheLatchedCommand : Obligations.StepRunsTheLatchedCommand := by
  refine ⟨fun s i busy command empty => ?_, fun s i rest busy command turn => ?_, fun s nbits w i h => ?_,
    fun s idle empty => ?_⟩
  · rw [step_of_no_inputs empty, engineTurn_command busy command]
  · rw [step_of_inputs turn]
    exact engineTurn_command busy command
  · rw [step_of_no_inputs rfl]
    exact engineTurn_command rfl (decode_of_decodeTableWord h)
  · rw [step_of_no_inputs empty, engineTurn_idle idle]

/-! ## Commands -/

/-- Settles O38: the check stands before every other stage, and IvMissing is among the faults of no other command. -/
theorem ivCheckComesFirst : Obligations.IvCheckComesFirst := by
  intro i s hl
  refine ⟨raises_ivMissing hl, fun hi noErr t h err => ?_⟩
  rcases exec_cases i s hl with ⟨u, hu, touch, -⟩ | ⟨e, info, u, hu, -, -, mem⟩ | ⟨hu, -⟩ <;> rw [hu] at h <;> cases h
  · rw [completeOk_err, touch.err, noErr] at err
    cases err
  · intro code
    rw [completeFault_errcode, errCode_eq_ivMissing_iff] at code
    exact ivMissing_not_mem_faultsOf hi (code ▸ mem)
  · rw [noErr] at err
    cases err

/-- Settles O57, by the phase and by whether the word is a command. -/
theorem issueOfACommandWord : Obligations.IssueOfACommandWord := by
  rintro s _ w rfl
  refine ⟨fun busy => ?_, fun idle => ?_, fun idle illegal => ?_, fun i idle command => ?_⟩
  · exact whileIdle_busy _ busy
  · rw [hostWrite_cmd_idle idle]
    exact issue_accepts w s
  · rw [hostWrite_cmd_idle idle, issue_illegal illegal]
    exact ⟨rfl, rfl, rfl, rfl⟩
  · rw [hostWrite_cmd_idle idle, issue_command command]
    exact ⟨rfl, rfl, rfl, rfl, rfl, rfl, rfl, rfl, engineTurn_command rfl command⟩

end Sys2Proof.Machine
end

section
/-! The facts under the statements of spec/40_padding.md: PAD and UNPAD as commands, the rules of the unpad stages byte by
byte, and UNPAD after PAD. -/

namespace Sys2Proof.Machine

/-! ## PAD and UNPAD as commands -/

theorem exec_padCommand (q : Scheme) (s : State) : exec (padCommand q) s = runCommand (padStage q) s := by
  cases q <;> rfl

theorem exec_unpadCommand (q : Scheme) (s : State) : exec (unpadCommand q) s = runCommand (unpadStage q) s := by
  cases q <;> rfl

theorem blockBytes_pos {s : State} (hl : s.legal = true) : 0 < s.blockBytes :=
  Nat.lt_of_lt_of_le (by decide) (legal_blockBytes hl).1

/-- PAD with room, and the random bytes it asks for, completes and appends its tail (R111 to R123). -/
theorem pad_completes (q : Scheme) {s : State} (hl : s.legal = true)
    (room : paddedLength q s.blockBytes s.length ≤ s.bufBytes) (served : s.randomServes q) :
    ∃ t tail, exec (padCommand q) s = .next t ∧ Completed s t ∧ Frame s t ∧ Appended s t tail ∧
      PadTail q s.blockBytes s.length tail ∧
      (q = .iso10126 → ∀ j, j + 1 < tail.length → byteOf tail j = Config.draw (s.draws + j)) := by
  obtain ⟨u, tail, ran, isTail, appended, touch, draws⟩ := padStage_ok q s hl room fun iso => (served iso).symm
  rw [exec_padCommand]
  exact ⟨completeOk u, tail, runCommand_ok hl ran, completed_of_touch touch, touch.frame.trans (frame_completeOk u),
    appended, isTail, draws⟩

/-- PAD without room raises BufferOverflow, with the length it would have reached (R111). -/
theorem pad_overflows (q : Scheme) {s : State} (hl : s.legal = true)
    (large : s.bufBytes < paddedLength q s.blockBytes s.length) :
    Raises (padCommand q) s .bufferOverflow (toWord (paddedLength q s.blockBytes s.length)) :=
  raises_of_runCommand (exec_padCommand q s) hl (padStage_overflow q s hl large)

/-- A PAD that asks a silent random port for a byte waits (R70, R121). -/
theorem pad_waits {q : Scheme} {s : State} (hl : s.legal = true)
    (room : paddedLength q s.blockBytes s.length ≤ s.bufBytes) (unserved : ¬ s.randomServes q) :
    exec (padCommand q) s = .next s := by
  simp only [State.randomServes, Classical.not_imp, not_or, Bool.not_eq_true] at unserved
  obtain ⟨rfl, silent, asks⟩ := unserved
  have := requiredPad_pos (L := s.length) (blockBytes_pos hl)
  rw [exec_padCommand]
  exact runCommand_waiting hl (padStage_waiting s room (by omega) silent)

/-- PAD of a scheme whose tail `tail` is fixed, at both sides of the capacity check. -/
theorem pad_appends_or_overflows (q : Scheme) {s : State} {tail : List Byte} (hl : s.legal = true) (steady : q ≠ .iso10126)
    (isTail : ∀ {x}, PadTail q s.blockBytes s.length x → x = tail) :
    (paddedLength q s.blockBytes s.length ≤ s.bufBytes →
      ∃ t, exec (padCommand q) s = .next t ∧ Completed s t ∧ Frame s t ∧ Appended s t tail) ∧
    (s.bufBytes < paddedLength q s.blockBytes s.length →
      Raises (padCommand q) s .bufferOverflow (toWord (paddedLength q s.blockBytes s.length))) := by
  refine ⟨fun room => ?_, pad_overflows q hl⟩
  obtain ⟨t, x, ran, completed, frame, appended, padTail, -⟩ :=
    pad_completes q hl room fun iso => absurd iso steady
  exact ⟨t, ran, completed, frame, isTail padTail ▸ appended⟩

/-- The tail of ISO10126, where its filler is draws. -/
theorem PadTail.iso10126_eq {B L d : Nat} {tail : List Byte} (h : PadTail .iso10126 B L tail)
    (draws : ∀ j, j + 1 < tail.length → byteOf tail j = Config.draw (d + j)) :
    tail = drawnBytes d (requiredPad B L - 1) ++ [toByte (requiredPad B L)] := by
  obtain ⟨filler, length, rfl⟩ := h
  rw [eq_of_byteOf (v := filler) (w := drawnBytes d (requiredPad B L - 1)) (by rw [length, drawnBytes_length])]
  intro j hj
  rw [byteOf_drawnBytes (length ▸ hj), ← draws j (by simpa using hj), byteOf_append_left hj]

/-- UNPAD always ends: on some bytes that the buffer may read as it succeeds or raises as the rules say, DATA as it
was (R112 to R124). -/
theorem unpad_ends (q : Scheme) {s : State} (hl : s.legal = true) :
    ∃ t v, exec (unpadCommand q) s = .next t ∧ s.mayHold v ∧ Frame s t ∧ SameData s t ∧
      ((Unpads q s.blockBytes v t.length ∧ Completed s t) ∨
       (∃ e i, UnpadFails q s.blockBytes v e i ∧ Faulted e (toWord i) s t)) := by
  have spec := unpadStage_spec q s
  rw [exec_unpadCommand]
  cases ran : unpadStage q s with
  | ok u =>
    rw [ran] at spec
    obtain ⟨touch, v, holds, unpads⟩ := spec
    exact ⟨completeOk u, v, runCommand_ok hl ran, holds, touch.frame.trans (frame_completeOk u),
      fun a => touch.beyond a (Nat.zero_le a), .inl ⟨unpads, completed_of_touch touch⟩⟩
  | raised e info u =>
    rw [ran] at spec
    obtain ⟨touch, len, v, i, holds, rfl, fails⟩ := spec
    exact ⟨completeFault e (toWord i) u, v, runCommand_raised hl ran, holds,
      touch.frame.trans (frame_completeFault e _ u), fun a => touch.beyond a (Nat.zero_le a),
      .inr ⟨e, i, fails, faulted_of_touch touch len e _⟩⟩
  | waiting => rw [ran] at spec; exact spec.elim

/-- A buffer whose bytes all are written reads as those bytes only. -/
theorem State.bufferIs.eq_of_mayHold {s : State} {v w : List Byte} (h : s.bufferIs v) (k : s.mayHold w) : w = v := by
  refine eq_of_byteOf (by rw [k.1, h.1]) fun j hj => ?_
  rw [k.1] at hj
  rcases k.2 j hj with written | unwritten
  · exact Option.some.inj (written.symm.trans (h.2 j hj))
  · rw [h.2 j hj] at unwritten; cases unwritten

/-! ## The last byte that differs -/

/-- `i` is the last index below `b` at which `v` does not hold `x`: where a scan from `b - 1` downward stops. -/
def LastNe (x : Byte) (v : List Byte) (b i : Nat) : Prop := i < b ∧ byteOf v i ≠ x ∧ AllAre x v (i + 1) b

/-- A scan downward from `b - 1` to `a` meets only `x`, or stops. -/
theorem allAre_or_lastNe (x : Byte) (v : List Byte) (a b : Nat) : AllAre x v a b ∨ ∃ i, a ≤ i ∧ LastNe x v b i := by
  induction b with
  | zero => exact .inl fun i _ lt => absurd lt (Nat.not_lt_zero i)
  | succ b ih =>
    by_cases low : a ≤ b
    · by_cases top : byteOf v b = x
      · have extend {c : Nat} (h : AllAre x v c b) : AllAre x v c (b + 1) := fun i le lt =>
          (Nat.lt_succ_iff_lt_or_eq.mp lt).elim (h i le) fun eq => eq ▸ top
        rcases ih with all | ⟨i, le, lt, ne, all⟩
        · exact .inl (extend all)
        · exact .inr ⟨i, le, by omega, ne, extend all⟩
      · exact .inr ⟨b, low, Nat.lt_succ_self b, top, fun i le lt => by omega⟩
    · exact .inl fun i le lt => by omega

theorem AllAre.not_lastNe {x : Byte} {v : List Byte} {a b i : Nat} (h : AllAre x v a b) (le : a ≤ i) :
    ¬ LastNe x v b i := fun ⟨lt, ne, _⟩ => ne (h i le lt)

theorem LastNe.unique {x : Byte} {v : List Byte} {b i i' : Nat} (h : LastNe x v b i) (h' : LastNe x v b i') : i = i' := by
  rcases Nat.lt_trichotomy i i' with lt | eq | lt
  · exact absurd h' (h.2.2.not_lastNe lt)
  · exact eq
  · exact absurd h (h'.2.2.not_lastNe lt)

/-! ## The length byte -/

theorem LengthByteFails.not_ok {B : Nat} {v : List Byte} {e : Err} {i : Nat} (h : LengthByteFails B v e i) :
    ¬ LengthByteOk B v := by
  rintro ⟨nonempty, pos, le, fits⟩
  rcases h with ⟨empty, -⟩ | ⟨-, zero, -⟩ | ⟨-, large, -⟩ <;> omega

theorem LengthByteFails.unique {B : Nat} {v : List Byte} {e e' : Err} {i i' : Nat} (h : LengthByteFails B v e i)
    (h' : LengthByteFails B v e' i') : e = e' ∧ i = i' := by
  rcases h with ⟨empty, rfl, rfl⟩ | ⟨nonempty, zero, rfl, rfl⟩ | ⟨nonempty, large, rfl, rfl⟩
  · rcases h' with ⟨-, rfl, rfl⟩ | ⟨nonempty, -⟩ | ⟨nonempty, -⟩
    · exact ⟨rfl, rfl⟩
    · omega
    · omega
  · rcases h' with ⟨empty, -⟩ | ⟨-, -, rfl, rfl⟩ | ⟨-, large, -⟩
    · omega
    · exact ⟨rfl, rfl⟩
    · omega
  · rcases h' with ⟨empty, -⟩ | ⟨-, zero, -⟩ | ⟨-, -, rfl, rfl⟩
    · omega
    · omega
    · exact ⟨rfl, rfl⟩

theorem lengthByte_ok_or_fails (B : Nat) (v : List Byte) : LengthByteOk B v ∨ ∃ e i, LengthByteFails B v e i := by
  by_cases empty : v.length = 0
  · exact .inr ⟨_, _, .inl ⟨empty, rfl, rfl⟩⟩
  have nonempty := Nat.pos_of_ne_zero empty
  by_cases zero : lastByte v = 0
  · exact .inr ⟨_, _, .inr (.inl ⟨nonempty, zero, rfl, rfl⟩)⟩
  by_cases large : B < lastByte v ∨ v.length < lastByte v
  · exact .inr ⟨_, _, .inr (.inr ⟨nonempty, large, rfl, rfl⟩)⟩
  · exact .inl ⟨nonempty, by omega, by omega, by omega⟩

/-- The filler check stops at the last filler byte that differs. -/
theorem fillerFails_iff (x : Byte) (B : Nat) (v : List Byte) (e : Err) (i : Nat) :
    FillerFails x B v e i ↔
      LengthByteOk B v ∧ v.length - lastByte v ≤ i ∧ LastNe x v (v.length - 1) i ∧ e = .paddingByteMismatch := by
  simp only [FillerFails, LastNe, and_assoc]

/-- The schemes with a length byte and a filler check, X.923 and PKCS7, fail in one way. -/
theorem lengthByteFails_or_fillerFails_unique {x : Byte} {B : Nat} {v : List Byte} {e e' : Err} {i i' : Nat}
    (h : LengthByteFails B v e i ∨ FillerFails x B v e i) (h' : LengthByteFails B v e' i' ∨ FillerFails x B v e' i') :
    e = e' ∧ i = i' := by
  simp only [fillerFails_iff] at h h'
  rcases h with length | ⟨ok, -, last, rfl⟩ <;> rcases h' with length' | ⟨ok', -, last', rfl⟩
  · exact length.unique length'
  · exact absurd ok' length.not_ok
  · exact absurd ok length'.not_ok
  · exact ⟨rfl, last.unique last'⟩

/-- The schemes with a length byte and a filler check succeed or fail. -/
theorem filler_ok_or_fails (x : Byte) (B : Nat) (v : List Byte) :
    (∃ n, LengthByteOk B v ∧ n = v.length - lastByte v ∧ AllAre x v n (v.length - 1)) ∨
    ∃ e i, LengthByteFails B v e i ∨ FillerFails x B v e i := by
  rcases lengthByte_ok_or_fails B v with ok | ⟨e, i, fails⟩
  · rcases allAre_or_lastNe x v (v.length - lastByte v) (v.length - 1) with all | ⟨i, le, last⟩
    · exact .inl ⟨_, ok, rfl, all⟩
    · exact .inr ⟨_, i, .inr ((fillerFails_iff x B v _ i).mpr ⟨ok, le, last, rfl⟩)⟩
  · exact .inr ⟨e, i, .inl fails⟩

/-- A length byte and a filler that pass their checks raise no fault of either. -/
theorem filler_ok_not_fails {x : Byte} {B : Nat} {v : List Byte} {e : Err} {i : Nat} (ok : LengthByteOk B v)
    (all : AllAre x v (v.length - lastByte v) (v.length - 1)) :
    ¬ (LengthByteFails B v e i ∨ FillerFails x B v e i) := by
  rw [fillerFails_iff]
  rintro (fails | ⟨-, le, last, -⟩)
  · exact fails.not_ok ok
  · exact all.not_lastNe le last

/-! ## The answer of an unpad stage -/

/-- The marker of ISO7816-4 is the last byte that is not 0x00. -/
theorem unpads_iso7816_iff (B : Nat) (v : List Byte) (n : Nat) :
    Unpads .iso7816 B v n ↔ LastNe 0x00 v v.length n ∧ v.length - n ≤ B ∧ byteOf v n = 0x80 := by
  simp only [Unpads, LastNe]
  constructor
  · rintro ⟨lt, near, marker, zeros⟩
    exact ⟨⟨lt, by rw [marker]; decide, zeros⟩, near, marker⟩
  · rintro ⟨⟨lt, -, zeros⟩, near, marker⟩
    exact ⟨lt, near, marker, zeros⟩

theorem unpadFails_iso7816_iff (B : Nat) (v : List Byte) (e : Err) (i : Nat) :
    UnpadFails .iso7816 B v e i ↔
      (LastNe 0x00 v v.length i ∧ v.length - i ≤ B ∧ byteOf v i ≠ 0x80 ∧ e = .paddingByteMismatch) ∨
      (i = v.length - min v.length B ∧ AllAre 0x00 v i v.length ∧ e = .paddingNotFound) := by
  simp only [UnpadFails, LastNe]
  refine or_congr ⟨?_, ?_⟩ Iff.rfl
  · rintro ⟨lt, near, marker, ne, zeros, rfl⟩
    exact ⟨⟨lt, ne, zeros⟩, near, marker, rfl⟩
  · rintro ⟨⟨lt, ne, zeros⟩, near, marker, rfl⟩
    exact ⟨lt, near, marker, ne, zeros, rfl⟩

theorem unpads_or_unpadFails (q : Scheme) (B : Nat) (v : List Byte) :
    (∃ n, Unpads q B v n) ∨ ∃ e i, UnpadFails q B v e i := by
  cases q with
  | nopad => exact .inl ⟨v.length, rfl⟩
  | zero =>
    rcases allAre_or_lastNe 0x00 v 0 v.length with all | ⟨i, -, lt, ne, all⟩
    · exact .inl ⟨0, Nat.zero_le _, all, fun pos => absurd pos (Nat.lt_irrefl 0)⟩
    · exact .inl ⟨i + 1, lt, all, fun _ => ne⟩
  | iso7816 =>
    rcases allAre_or_lastNe 0x00 v (v.length - min v.length B) v.length with all | ⟨i, le, last⟩
    · exact .inr ⟨_, _, (unpadFails_iso7816_iff B v _ _).mpr (.inr ⟨rfl, all, rfl⟩)⟩
    · have near : v.length - i ≤ B := by omega
      by_cases marker : byteOf v i = 0x80
      · exact .inl ⟨i, (unpads_iso7816_iff B v i).mpr ⟨last, near, marker⟩⟩
      · exact .inr ⟨_, i, (unpadFails_iso7816_iff B v _ i).mpr (.inl ⟨last, near, marker, rfl⟩)⟩
  | x923 => exact filler_ok_or_fails 0x00 B v
  | iso10126 => exact (lengthByte_ok_or_fails B v).imp (fun ok => ⟨_, ok, rfl⟩) id
  | pkcs7 => exact filler_ok_or_fails (toByte (lastByte v)) B v

/-- UNPAD.ZERO strips to the least length that its rule admits. -/
theorem unpads_zero_le {B : Nat} {v : List Byte} {n n' : Nat} (h : Unpads .zero B v n) (h' : Unpads .zero B v n') :
    n ≤ n' := by
  obtain ⟨le, -, stop⟩ := h
  obtain ⟨-, zeros, -⟩ := h'
  by_contra above
  exact stop (by omega) (zeros (n - 1) (by omega) (by omega))

theorem Unpads.unique {q : Scheme} {B : Nat} {v : List Byte} {n n' : Nat} (h : Unpads q B v n) (h' : Unpads q B v n') :
    n = n' := by
  cases q with
  | nopad => exact h.trans h'.symm
  | zero => exact Nat.le_antisymm (unpads_zero_le h h') (unpads_zero_le h' h)
  | iso7816 =>
    rw [unpads_iso7816_iff] at h h'
    exact h.1.unique h'.1
  | x923 | pkcs7 => exact h.2.1.trans h'.2.1.symm
  | iso10126 => exact h.2.trans h'.2.symm

theorem UnpadFails.unique {q : Scheme} {B : Nat} {v : List Byte} {e e' : Err} {i i' : Nat} (h : UnpadFails q B v e i)
    (h' : UnpadFails q B v e' i') : e = e' ∧ i = i' := by
  cases q with
  | nopad | zero => exact h.elim
  | iso7816 =>
    rw [unpadFails_iso7816_iff] at h h'
    rcases h with ⟨last, near, -, rfl⟩ | ⟨rfl, zeros, rfl⟩ <;>
      rcases h' with ⟨last', near', -, rfl⟩ | ⟨rfl, zeros', rfl⟩
    · exact ⟨rfl, last.unique last'⟩
    · exact absurd last (zeros'.not_lastNe (by omega))
    · exact absurd last' (zeros.not_lastNe (by omega))
    · exact ⟨rfl, rfl⟩
  | x923 | pkcs7 => exact lengthByteFails_or_fillerFails_unique h h'
  | iso10126 => exact LengthByteFails.unique h h'

theorem Unpads.not_unpadFails {q : Scheme} {B : Nat} {v : List Byte} {n i : Nat} {e : Err} (h : Unpads q B v n) :
    ¬ UnpadFails q B v e i := by
  cases q with
  | nopad | zero => exact id
  | iso7816 =>
    rw [unpads_iso7816_iff] at h
    rw [unpadFails_iso7816_iff]
    obtain ⟨last, near, marker⟩ := h
    rintro (⟨last', -, other, -⟩ | ⟨rfl, zeros, -⟩)
    · exact other (last'.unique last ▸ marker)
    · exact zeros.not_lastNe (by omega) last
  | x923 | pkcs7 =>
    obtain ⟨ok, rfl, all⟩ := h
    exact filler_ok_not_fails ok all
  | iso10126 => exact fun fails => fails.not_ok h.1

/-! ## UNPAD of a buffer whose bytes all are written -/

theorem unpad_completes (q : Scheme) {s : State} {v : List Byte} {n : Nat} (hl : s.legal = true) (hv : s.bufferIs v)
    (unpads : Unpads q s.blockBytes v n) :
    ∃ t, exec (unpadCommand q) s = .next t ∧ Completed s t ∧ Frame s t ∧ t.length = n ∧ SameData s t := by
  obtain ⟨t, w, ran, holds, frame, data, ended⟩ := unpad_ends q hl
  obtain rfl := hv.eq_of_mayHold holds
  rcases ended with ⟨unpads', completed⟩ | ⟨e, i, fails, -⟩
  · exact ⟨t, ran, completed, frame, unpads'.unique unpads, data⟩
  · exact absurd fails unpads.not_unpadFails

theorem unpad_raises (q : Scheme) {s : State} {v : List Byte} {e : Err} {i : Nat} (hl : s.legal = true)
    (hv : s.bufferIs v) (fails : UnpadFails q s.blockBytes v e i) : Raises (unpadCommand q) s e (toWord i) := by
  obtain ⟨t, w, ran, holds, frame, data, ended⟩ := unpad_ends q hl
  obtain rfl := hv.eq_of_mayHold holds
  rcases ended with ⟨unpads, -⟩ | ⟨e', i', fails', faulted⟩
  · exact absurd fails unpads.not_unpadFails
  · obtain ⟨rfl, rfl⟩ := fails.unique fails'
    exact ⟨t, ran, faulted, frame, data⟩

/-- The faults of the length byte, for every scheme that decodes one (R112). -/
theorem unpad_raises_lengthByte (q : Scheme) {s : State} {v : List Byte} (hl : s.legal = true) (hv : s.bufferIs v)
    (decodes : ∀ {e i}, LengthByteFails s.blockBytes v e i → UnpadFails q s.blockBytes v e i) :
    (v.length = 0 → Raises (unpadCommand q) s .paddingUnderflow 0) ∧
    (0 < v.length → lastByte v = 0 → Raises (unpadCommand q) s .paddingUnderflow (toWord (v.length - 1))) ∧
    (0 < v.length → s.blockBytes < lastByte v ∨ v.length < lastByte v →
      Raises (unpadCommand q) s .paddingOverflow (toWord (v.length - 1))) :=
  ⟨fun empty => unpad_raises q hl hv (decodes (.inl ⟨empty, rfl, rfl⟩)),
    fun nonempty zero => unpad_raises q hl hv (decodes (.inr (.inl ⟨nonempty, zero, rfl, rfl⟩))),
    fun nonempty large => unpad_raises q hl hv (decodes (.inr (.inr ⟨nonempty, large, rfl, rfl⟩)))⟩

/-- A byte equals the length byte exactly when its number does. -/
theorem eq_toByte_lastByte_iff (b : Byte) (v : List Byte) : b = toByte (lastByte v) ↔ b.toNat = lastByte v := by
  rw [lastByte, toByte, BitVec.ofNat_toNat, BitVec.setWidth_eq, BitVec.toNat_inj]

/-- Bytes counted from the end, as a range of indices. -/
theorem allAre_of_forall_from_end {x : Byte} {v : List Byte} {a L : Nat}
    (h : ∀ k, 1 ≤ k → k ≤ L - a → byteOf v (L - k) = x) : AllAre x v a L := fun i le lt => by
  rw [show i = L - (L - i) by omega]
  exact h (L - i) (by omega) (by omega)

/-! ## UNPAD after PAD -/

/-- The length byte of a buffer that ends in its padding length is legal, and points behind the data. -/
theorem lengthByte_of_padded {B N : Nat} {w filler : List Byte} (hB : B < 256) (le : N ≤ B) (pos : 1 ≤ N)
    (length : filler.length = N - 1) :
    LengthByteOk B (w ++ (filler ++ [toByte N])) ∧
    w.length = (w ++ (filler ++ [toByte N])).length - lastByte (w ++ (filler ++ [toByte N])) := by
  have last : lastByte (w ++ (filler ++ [toByte N])) = N := by
    rw [← List.append_assoc, lastByte_snoc, toByte_toNat (by omega)]
  have total : (w ++ (filler ++ [toByte N])).length = w.length + N := by simp [length]; omega
  rw [LengthByteOk, last, total]
  omega

/-- The filler of a padded buffer, where it is one byte repeated. -/
theorem allAre_filler (w : List Byte) (x b : Byte) (n : Nat) :
    AllAre x (w ++ (List.replicate n x ++ [b])) w.length ((w ++ (List.replicate n x ++ [b])).length - 1) := by
  intro i le lt
  simp only [List.length_append, List.length_replicate, List.length_singleton] at lt
  rw [byteOf_append_right le, byteOf_append_left (by rw [List.length_replicate]; omega), byteOf_replicate (by omega)]

/-- R126 on byte vectors: what a pad stage appended, the unpad stage of its scheme removes; ZERO alone may remove more. -/
theorem unpads_append_padTail {q : Scheme} {B : Nat} {w tail : List Byte} (notZero : q ≠ .zero) (pos : 0 < B) (hB : B < 256)
    (h : PadTail q B w.length tail) : Unpads q B (w ++ tail) w.length := by
  have one : 1 ≤ requiredPad B w.length := requiredPad_pos pos
  have le : requiredPad B w.length ≤ B := requiredPad_le
  cases q with
  | nopad =>
    obtain rfl := h
    rw [List.append_nil, Unpads]
  | zero => exact absurd rfl notZero
  | iso7816 =>
    obtain rfl := h
    have total : (w ++ 0x80 :: List.replicate (requiredPad B w.length - 1) (0x00 : Byte)).length =
        w.length + requiredPad B w.length := by simp; omega
    refine ⟨by omega, by omega, ?_, fun i low high => ?_⟩
    · rw [byteOf_append_right le_rfl, Nat.sub_self, byteOf_cons_zero]
    · rw [byteOf_append_right (by omega), show i - w.length = i - w.length - 1 + 1 by omega, byteOf_cons_succ,
        byteOf_replicate (by omega)]
  | x923 =>
    obtain rfl := h
    obtain ⟨ok, length⟩ := lengthByte_of_padded (w := w) (filler := List.replicate _ 0x00) hB le one
      List.length_replicate
    exact ⟨ok, length, allAre_filler w 0x00 _ _⟩
  | iso10126 =>
    obtain ⟨filler, length, rfl⟩ := h
    exact lengthByte_of_padded hB le one length
  | pkcs7 =>
    have snoc : tail = List.replicate (requiredPad B w.length - 1) (toByte (requiredPad B w.length)) ++
        [toByte (requiredPad B w.length)] := by
      rw [← List.replicate_succ', Nat.sub_add_cancel one]
      exact h
    subst snoc
    obtain ⟨ok, length⟩ := lengthByte_of_padded (w := w) (filler := List.replicate _ (toByte (requiredPad B w.length))) hB le
      one List.length_replicate
    refine ⟨ok, length, ?_⟩
    rw [← List.append_assoc, lastByte_snoc, toByte_toNat (by omega), List.append_assoc]
    exact allAre_filler w _ _ _

/-- No unpad stage fails on what the pad stage of its scheme left. -/
theorem PadTail.not_unpadFails {q : Scheme} {B : Nat} {w tail : List Byte} {e : Err} {i : Nat} (pos : 0 < B)
    (hB : B < 256) (h : PadTail q B w.length tail) : ¬ UnpadFails q B (w ++ tail) e i := by
  by_cases zero : q = .zero
  · subst zero
    exact id
  · exact (unpads_append_padTail zero pos hB h).not_unpadFails

/-- What the buffer reads as after a pad: what it read as before, and the tail. -/
theorem Appended.mayHold_eq {s t : State} {v tail : List Byte} (h : Appended s t tail) (holds : t.mayHold v) :
    ∃ w, v = w ++ tail ∧ s.mayHold w := by
  obtain ⟨length, written, kept⟩ := h
  obtain ⟨hv, reads⟩ := holds
  rw [length] at hv reads
  have hw : (v.take s.length).length = s.length := by rw [List.length_take]; omega
  have front {i : Nat} (hi : i < s.length) : byteOf (v.take s.length) i = byteOf v i := by simp [byteOf, hi]
  refine ⟨v.take s.length, eq_of_byteOf (by rw [List.length_append, hw, hv]) fun j hj => ?_, hw, fun i hi => ?_⟩
  · by_cases low : j < s.length
    · rw [byteOf_append_left (by omega), front low]
    · have atTail := written (j - s.length) (by omega)
      rw [Nat.add_sub_cancel' (Nat.le_of_not_lt low)] at atTail
      rw [byteOf_append_right (by omega), hw]
      rcases reads j (by omega) with read | unwritten
      · exact Option.some.inj (read.symm.trans atTail)
      · rw [atTail] at unwritten; cases unwritten
  · rw [front hi, ← kept i (.inl hi)]
    exact reads i (by omega)

/-- PAD and then UNPAD of one scheme, issued by a host write: both complete, the unpad stage saw what the buffer read as
before and the tail, and the data bytes are as they were. -/
theorem unpad_after_pad (q : Scheme) {s : State} (hl : s.legal = true)
    (room : paddedLength q s.blockBytes s.length ≤ s.bufBytes) (served : s.randomServes q) :
    ∃ t u w tail, exec (padCommand q) s = .next t ∧ Completed s t ∧
      exec (unpadCommand q) (t.issued (unpadCommand q)) = .next u ∧ u.phase = .idle ∧ u.done = true ∧ u.err = false ∧
      s.mayHold w ∧ PadTail q s.blockBytes s.length tail ∧ Unpads q s.blockBytes (w ++ tail) u.length ∧
      ∀ i, i < s.length → u.byteAt i = s.byteAt i := by
  have hB := legal_blockBytes hl
  obtain ⟨t, tail, padded, completed, frame, appended, isTail, -⟩ := pad_completes q hl room served
  have length : t.length = paddedLength q s.blockBytes s.length := by
    rw [appended.1, isTail.length (by omega), paddedLength]
  have blockBytes : t.blockBytes = s.blockBytes := by rw [State.blockBytes, frame.params, State.blockBytes]
  have ht : t.legal = true := by
    rw [legal_iff, frame.params, State.bufBytes, frame.params, length]
    exact ⟨((legal_iff s).mp hl).1, room⟩
  have issued := issued_started completed.phase (decode_encode (unpadCommand q))
  obtain ⟨u, v, ran, holds, -, data, ended⟩ := unpad_ends (s := t.started (encode (unpadCommand q))) q ht
  obtain ⟨w, rfl, before⟩ := appended.mayHold_eq (v := v) holds
  rw [← issued] at ran
  rw [started_blockBytes, blockBytes] at ended
  rcases ended with ⟨unpads, done⟩ | ⟨e, i, fails, -⟩
  · exact ⟨t, u, w, tail, padded, completed, ran, done.phase, done.done, done.err, before, isTail, unpads,
      fun i hi => (data i).trans (appended.2.2 i (.inl hi))⟩
  · rw [← before.1] at isTail
    exact absurd fails (isTail.not_unpadFails (by omega) (by omega))

/-- Where UNPAD.ZERO stops after PAD.ZERO: at the last data byte that is not 0x00 (R127). -/
theorem unpads_zero_append_replicate {B z n : Nat} {v : List Byte} (h : Unpads .zero B (v ++ List.replicate z 0x00) n) :
    n ≤ v.length ∧ (n = v.length ↔ v.length = 0 ∨ byteOf v (v.length - 1) ≠ 0x00) := by
  obtain ⟨le, zeros, stop⟩ := h
  rw [List.length_append, List.length_replicate] at le zeros
  have below : n ≤ v.length := by
    by_contra above
    refine stop (by omega) ?_
    rw [byteOf_append_right (by omega), byteOf_replicate (by omega)]
  refine ⟨below, ?_⟩
  constructor
  · rintro rfl
    by_cases empty : v.length = 0
    · exact .inl empty
    · have ne := stop (Nat.pos_of_ne_zero empty)
      rw [byteOf_append_left (by omega)] at ne
      exact .inr ne
  · rintro (empty | ne)
    · omega
    · by_contra short
      have zero := zeros (v.length - 1) (by omega) (by omega)
      rw [byteOf_append_left (by omega)] at zero
      exact ne zero

end Sys2Proof.Machine
end

section
/-! The settled statements of spec/40_padding.md: the pad commands, the unpad commands, and the laws of the padding
schemes. -/

namespace Sys2Proof.Machine

/-! ## PAD -/

/-- Settles O18: both stages finish at once in the state they were given. -/
theorem noPaddingDoesNothing : Obligations.NoPaddingDoesNothing := by
  refine ⟨rfl, rfl, ?_⟩
  rintro i s (rfl | rfl) hl
  · exact ⟨completeOk s, runCommand_ok hl rfl, completed_of_touch (Touch.refl 0 s), frame_completeOk s, rfl, fun _ => rfl⟩
  · exact ⟨completeOk s, runCommand_ok hl rfl, completed_of_touch (Touch.refl 0 s), frame_completeOk s, rfl, fun _ => rfl⟩

/-- Settles O19, with the tail of Z(L) zero bytes. -/
theorem padZeroAppends : Obligations.PadZeroAppends := by
  refine ⟨rfl, ?_⟩
  rintro s _ _ _ hl rfl rfl rfl
  exact pad_appends_or_overflows .zero hl (by decide) id

/-- Settles O20, with the tail that the marker begins. -/
theorem padIso7816Appends : Obligations.PadIso7816Appends := by
  refine ⟨rfl, ?_⟩
  rintro s _ _ _ hl rfl rfl rfl
  exact pad_appends_or_overflows .iso7816 hl (by decide) id

/-- Settles O21, with the tail that the length byte ends. -/
theorem padX923Appends : Obligations.PadX923Appends := by
  refine ⟨rfl, ?_⟩
  rintro s _ _ _ hl rfl rfl rfl
  exact pad_appends_or_overflows .x923 hl (by decide) id

/-- Settles O22: the filler is drawn in index order, and the capacity check stands before the first draw. -/
theorem padIso10126Appends : Obligations.PadIso10126Appends := by
  refine ⟨rfl, ?_⟩
  rintro s _ _ _ hl rfl rfl rfl
  refine ⟨fun room served => ?_, pad_overflows .iso10126 hl⟩
  obtain ⟨t, tail, ran, completed, frame, appended, isTail, draws⟩ := pad_completes .iso10126 hl room fun _ => served
  exact ⟨t, ran, completed, frame, isTail.iso10126_eq (draws rfl) ▸ appended⟩

/-- Settles O23, with the tail of N copies. -/
theorem padPkcs7Appends : Obligations.PadPkcs7Appends := by
  refine ⟨rfl, ?_⟩
  rintro s _ _ _ hl rfl rfl rfl
  exact pad_appends_or_overflows .pkcs7 hl (by decide) id

/-! ## UNPAD -/

/-- Settles O24: the length is the one the rule of UNPAD.ZERO names. -/
theorem unpadZeroStripsTrailingZeros : Obligations.UnpadZeroStripsTrailingZeros := by
  refine ⟨rfl, fun s v n hl hv le zeros stop => ?_⟩
  exact unpad_completes .zero hl hv ⟨le, zeros, fun pos => stop.resolve_left (Nat.ne_of_gt pos)⟩

/-- Settles O25: the scan from the end stops at the last byte that is not 0x00. -/
theorem unpadIso7816RemovesTheMarker : Obligations.UnpadIso7816RemovesTheMarker := by
  refine ⟨rfl, ?_⟩
  rintro s v L _ hl hv hL rfl
  obtain rfl : L = v.length := hL.trans hv.1.symm
  have behind {j : Nat} (pos : 1 ≤ j) (le : j ≤ min v.length s.blockBytes)
      (zeros : ∀ k, 1 ≤ k → k < j → byteOf v (v.length - k) = 0x00) :
      AllAre 0x00 v (v.length - j + 1) v.length :=
    allAre_of_forall_from_end fun k one near => zeros k one (by omega)
  refine ⟨fun j pos le marker zeros => ?_, fun j pos le other ne zeros => ?_, fun zeros => ?_⟩
  · exact unpad_completes .iso7816 hl hv ⟨by omega, by omega, marker, behind pos le zeros⟩
  · exact unpad_raises .iso7816 hl hv (.inl ⟨by omega, by omega, other, ne, behind pos le zeros, rfl⟩)
  · exact unpad_raises .iso7816 hl hv
      (.inr ⟨rfl, allAre_of_forall_from_end fun k one near => zeros k one (by omega), rfl⟩)

/-- Settles O26: the faults of the length byte, then the filler check against 0x00. -/
theorem unpadX923ChecksZeros : Obligations.UnpadX923ChecksZeros := by
  refine ⟨rfl, ?_⟩
  rintro s v L _ hl hv hL rfl
  obtain rfl : L = v.length := hL.trans hv.1.symm
  obtain ⟨empty, zero, large⟩ := unpad_raises_lengthByte .x923 hl hv .inl
  refine ⟨empty, zero, large, fun nonempty one le fits => ⟨fun i low high ne zeros => ?_, fun zeros => ?_⟩⟩
  · exact unpad_raises .x923 hl hv (.inr ⟨⟨nonempty, one, le, fits⟩, low, high, ne, zeros, rfl⟩)
  · exact unpad_completes .x923 hl hv ⟨⟨nonempty, one, le, fits⟩, rfl, zeros⟩

/-- Settles O27: the faults of the length byte, and no others. -/
theorem unpadIso10126TrustsTheLengthByte : Obligations.UnpadIso10126TrustsTheLengthByte := by
  refine ⟨rfl, ?_⟩
  rintro s v L _ hl hv hL rfl
  obtain rfl : L = v.length := hL.trans hv.1.symm
  obtain ⟨empty, zero, large⟩ := unpad_raises_lengthByte .iso10126 hl hv id
  exact ⟨empty, zero, large, fun nonempty one le fits =>
    unpad_completes .iso10126 hl hv ⟨⟨nonempty, one, le, fits⟩, rfl⟩⟩

/-- Settles O28: as X.923, with the length byte for the filler. -/
theorem unpadPkcs7ChecksCopies : Obligations.UnpadPkcs7ChecksCopies := by
  refine ⟨rfl, ?_⟩
  rintro s v L _ hl hv hL rfl
  obtain rfl : L = v.length := hL.trans hv.1.symm
  obtain ⟨empty, zero, large⟩ := unpad_raises_lengthByte .pkcs7 hl hv .inl
  simp only [← eq_toByte_lastByte_iff, ne_eq]
  refine ⟨empty, zero, large, fun nonempty one le fits => ⟨fun i low high ne copies => ?_, fun copies => ?_⟩⟩
  · exact unpad_raises .pkcs7 hl hv (.inr ⟨⟨nonempty, one, le, fits⟩, low, high, ne, copies, rfl⟩)
  · exact unpad_completes .pkcs7 hl hv ⟨⟨nonempty, one, le, fits⟩, rfl, copies⟩

/-- Settles O29: the rules answer once on every byte vector, and the stage answers by the rules. -/
theorem unpadAnswersOnce : Obligations.UnpadAnswersOnce :=
  ⟨fun q B v => ⟨unpads_or_unpadFails q B v, fun _ _ => Unpads.unique, fun _ _ _ _ => UnpadFails.unique,
    fun _ _ _ => Unpads.not_unpadFails⟩, fun q _ hl => unpad_ends q hl⟩

/-! ## Laws of the padding schemes -/

/-- Settles O44: of the three ways in which PAD ends, only its completion leaves DONE. -/
theorem padLeavesWholeBlocks : Obligations.PadLeavesWholeBlocks := by
  intro q s t notNone clear ran done
  have hl := legal_of_exec_next ran
  have hB := blockBytes_pos hl
  by_cases room : paddedLength q s.blockBytes s.length ≤ s.bufBytes
  · by_cases served : s.randomServes q
    · obtain ⟨u, tail, ran', -, -, appended, isTail, -⟩ := pad_completes q hl room served
      obtain rfl := Host.Outcome.next.inj (ran.symm.trans ran')
      rw [appended.1, isTail.length hB]
      exact padded_aligned hB notNone
    · obtain rfl := Host.Outcome.next.inj (ran.symm.trans (pad_waits hl room served))
      rw [clear] at done; cases done
  · obtain ⟨u, ran', faulted, -, -⟩ := pad_overflows q hl (Nat.lt_of_not_le room)
    obtain rfl := Host.Outcome.next.inj (ran.symm.trans ran')
    rw [faulted.done, clear] at done; cases done

/-- Settles O45: the unpad stage removes what the pad stage appended. -/
theorem unpadReversesPad : Obligations.UnpadReversesPad := by
  intro q s hl notZero room served
  have hB := legal_blockBytes hl
  obtain ⟨t, u, w, tail, padded, completed, ran, idle, done, noErr, before, isTail, unpads, data⟩ :=
    unpad_after_pad q hl room served
  rw [← before.1] at isTail
  have length := unpads.unique (unpads_append_padTail notZero (by omega) (by omega) isTail)
  exact ⟨t, u, padded, completed.phase, completed.done, ran, idle, done, noErr, length.trans before.1, data⟩

/-- Settles O46: the strip does not stop at the bytes PAD.ZERO appended. -/
theorem zeroPaddingAmbiguity : Obligations.ZeroPaddingAmbiguity := by
  intro s v hl hv room
  obtain ⟨t, u, w, tail, padded, completed, ran, -, done, noErr, before, isTail, unpads, data⟩ :=
    unpad_after_pad .zero hl room (by intro iso; cases iso)
  obtain rfl := hv.eq_of_mayHold before
  obtain rfl := isTail
  obtain ⟨le, restored⟩ := unpads_zero_append_replicate unpads
  rw [hv.1] at le restored
  exact ⟨t, u, padded, completed.done, ran, done, noErr, restored, le, data⟩

end Sys2Proof.Machine
end

section
/-! The facts under the statements of spec/41_mode_contract.md: a stream mode's contract as its transform, ENC and DEC as
commands with any cipher behind the port, DEC after ENC, and two runs of one command on the same operands. -/

namespace Sys2Proof.Machine

/-! ## Stream modes -/

theorem needsIv_of_stream {m : Mode} (stream : isBlockMode m = false) : needsIv m = true := by
  cases m with
  | ecb | cbc => cases stream
  | cfb | ofb | ctr => rfl

theorem modeIvCheck_stream {m : Mode} (stream : isBlockMode m = false) (s : State) : modeIvCheck m s = ivCheck s := by
  rw [modeIvCheck, if_pos (needsIv_of_stream stream)]

/-- Outside a legal machine no stage runs. -/
theorem runCommand_congr {f g : State → StageResult} {s : State} (h : s.legal = true → f s = g s) :
    runCommand f s = runCommand g s := by
  cases hl : s.legal with
  | false => simp only [runCommand, hl, Bool.false_eq_true, if_false]
  | true => rw [runCommand, runCommand, h hl]

/-- ENC of a stream mode is FWD (R150, R152). -/
theorem exec_encCommand_eq_fwdCommand {m : Mode} (stream : isBlockMode m = false) (p : Scheme) (s : State) :
    exec (encCommand m p) s = exec (fwdCommand m) s := by
  rw [exec_encCommand, exec_fwdCommand]
  refine runCommand_congr fun hl => ?_
  rw [encStages_stream _ p stream (legal_length hl), modeIvCheck_stream stream]

/-- DEC of a stream mode is INV (R150, R153). -/
theorem exec_decCommand_eq_invCommand {m : Mode} (stream : isBlockMode m = false) (p : Scheme) (s : State) :
    exec (decCommand m p) s = exec (invCommand m) s := by
  rw [exec_decCommand, exec_invCommand]
  refine runCommand_congr fun _ => ?_
  rw [decStages_stream _ p stream, modeIvCheck_stream stream]

/-! ## ENC, with any cipher behind the port -/

theorem effPad_block {m : Mode} (block : isBlockMode m = true) (p : Scheme) : effPad m p = p := if_pos block

theorem execWith_encCommand (c : Cipher) (m : Mode) (p : Scheme) (s : State) :
    execWith c (encCommand m p) s = runCommand (encStages c m p) s := by
  cases m <;> rfl

theorem execWith_decCommand (c : Cipher) (m : Mode) (p : Scheme) (s : State) :
    execWith c (decCommand m p) s = runCommand (decStages c m p) s := by
  cases m <;> rfl

/-- An ENC from `s` to `t` that completed: it read `v`, appended `tail`, and left the transform `w` of the two (R152). -/
structure Encrypted (c : Cipher) (m : Mode) (q : Scheme) (s t : State) (v tail w : List Byte) : Prop where
  completed : Completed s t
  frame : Frame s t
  before : s.mayHold v
  isTail : PadTail q s.blockBytes s.length tail
  draws : q = .iso10126 → ∀ j, j + 1 < tail.length → byteOf tail j = Config.draw (s.draws + j)
  length : t.length = paddedLength q s.blockBytes s.length
  after : t.bufferIs w
  beyond : SameBeyond (paddedLength q s.blockBytes s.length) s t
  forward : Forward c m s (v ++ tail) w

/-- What the transform of an ENC works on has the padded length. -/
theorem Encrypted.length_append {c : Cipher} {m : Mode} {q : Scheme} {s t : State} {v tail w : List Byte}
    (h : Encrypted c m q s t v tail w) (hB : 0 < s.blockBytes) :
    (v ++ tail).length = paddedLength q s.blockBytes s.length := by
  rw [List.length_append, h.before.1, h.isTail.length hB, paddedLength]

/-- A padded length suits the transform: padding but NONE completes whole blocks (R125, R152). -/
theorem paddedLength_fits {m : Mode} {q : Scheme} {B L : Nat} (hB : 0 < B)
    (whole : isBlockMode m = true → q = .nopad → L % B = 0) : LengthFits m B (paddedLength q B L) := by
  intro block
  by_cases none : q = .nopad
  · rw [none, paddedLength, padCount, Nat.add_zero]
    exact whole block none
  · exact padded_aligned hB none

/-- ENC completes where its checks pass and its ports serve it (R152). -/
theorem enc_completes (c : Cipher) (m : Mode) (p : Scheme) {s : State} (hl : s.legal = true) (hiv : s.ivReady m)
    (room : paddedLength (effPad m p) s.blockBytes s.length ≤ s.bufBytes)
    (whole : isBlockMode m = true → effPad m p = .nopad → s.length % s.blockBytes = 0)
    (served : s.randomServes (effPad m p))
    (up : paddedLength (effPad m p) s.blockBytes s.length = 0 ∨ s.cipherUp = true) (steady : s.keyChanged = false) :
    ∃ t v tail w, execWith c (encCommand m p) s = .next t ∧ Encrypted c m (effPad m p) s t v tail w := by
  have hB := blockBytes_pos hl
  obtain ⟨u, v, tail, w, ran, isTail, before, forward, after, length, touch, draws⟩ :=
    encStages_served c m p s hl hiv room (paddedLength_fits hB whole) served up steady
  have total : w.length = paddedLength (effPad m p) s.blockBytes s.length := by
    rw [length, isTail.length hB, paddedLength]
  rw [execWith_encCommand]
  exact ⟨completeOk u, v, tail, w, runCommand_ok hl ran, {
    completed := completed_of_touch touch
    frame := touch.frame.trans (frame_completeOk u)
    before, isTail, draws, after, forward
    length := after.1.symm.trans total
    beyond := total ▸ touch.beyond }⟩

/-- ENC of a block mode, block by block: `f` names a block of the ciphertext by the padded buffer and the ciphertext. -/
theorem enc_completes_blockwise {m : Mode} (block : isBlockMode m = true) (p : Scheme) {s : State} (hl : s.legal = true)
    (hiv : s.ivReady m) (room : paddedLength p s.blockBytes s.length ≤ s.bufBytes)
    (whole : p = .nopad → s.length % s.blockBytes = 0) (served : s.randomServes p)
    (up : paddedLength p s.blockBytes s.length = 0 ∨ s.cipherUp = true) (steady : s.keyChanged = false)
    {f : List Byte → List Byte → Nat → List Byte}
    (blocks : ∀ v w, Forward Config.cipher m s v w → BlockwiseIs s v w (f v w)) :
    ∃ t v tail w, exec (encCommand m p) s = .next t ∧ Completed s t ∧ Frame s t ∧ s.mayHold v ∧
      PadTail p s.blockBytes s.length tail ∧
      (p = .iso10126 → ∀ j, j + 1 < tail.length → byteOf tail j = Config.draw (s.draws + j)) ∧
      t.length = paddedLength p s.blockBytes s.length ∧ t.bufferIs w ∧
      SameBeyond (paddedLength p s.blockBytes s.length) s t ∧
      ∀ k, (k + 1) * s.blockBytes ≤ paddedLength p s.blockBytes s.length → s.blk w k = f (v ++ tail) w k := by
  rw [← effPad_block block p] at room whole served up
  obtain ⟨t, v, tail, w, ran, encrypted⟩ :=
    enc_completes Config.cipher m p hl hiv room (fun _ => whole) served up steady
  rw [effPad_block block] at encrypted
  rw [← exec_eq] at ran
  have total := encrypted.length_append (blockBytes_pos hl)
  exact ⟨t, v, tail, w, ran, encrypted.completed, encrypted.frame, encrypted.before, encrypted.isTail, encrypted.draws,
    encrypted.length, encrypted.after, encrypted.beyond,
    fun k inside => (blocks _ _ encrypted.forward).2 k (inside.trans_eq total.symm)⟩

/-- ENC of a block mode without room for the padding (R152). -/
theorem enc_overflows {m : Mode} (block : isBlockMode m = true) (p : Scheme) {s : State} (hl : s.legal = true)
    (hiv : s.ivReady m) (large : s.bufBytes < paddedLength p s.blockBytes s.length) :
    Raises (encCommand m p) s .bufferOverflow (toWord (paddedLength p s.blockBytes s.length)) := by
  have raised := encStages_overflow Config.cipher (p := p) hiv (by rwa [effPad_block block])
  rw [effPad_block block] at raised
  exact raises_of_runCommand (exec_encCommand m p s) hl raised

/-- ENC of a block mode with NONE on a length that is not aligned (R152). -/
theorem enc_unaligned {m : Mode} (block : isBlockMode m = true) {s : State} (hl : s.legal = true) (hiv : s.ivReady m)
    (partly : s.length % s.blockBytes ≠ 0) :
    Raises (encCommand m .nopad) s .lengthNotAligned (toWord (paddedLength .nopad s.blockBytes s.length)) := by
  have raised := encStages_unaligned Config.cipher (p := .nopad) hiv block
    (by rw [effPad_block block]; exact legal_length hl) (by rw [effPad_block block]; exact partly)
  rw [effPad_block block] at raised
  exact raises_of_runCommand (exec_encCommand m .nopad s) hl raised

/-! ## DEC, with any cipher behind the port -/

/-- DEC after its checks, served: it transforms what it read of the buffer back and unpads that (R153, R235). -/
theorem dec_ends (c : Cipher) (m : Mode) (p : Scheme) {s : State} (hl : s.legal = true) (hiv : s.ivReady m)
    (fits : LengthFits m s.blockBytes s.length) (serves : s.cipherServes)
    (ivLength : m = .cbc → s.iv.length = s.blockBytes) :
    ∃ t v w, execWith c (decCommand m p) s = .next t ∧ s.mayHold v ∧ w.length = v.length ∧ Backward c m s v w ∧
      Unpadded (effPad m p) s t w := by
  obtain ⟨v, w, before, length, backward, all⟩ :=
    decStages_served c m p s hl hiv fits serves.1 serves.2 ivLength
  rw [execWith_decCommand]
  cases ran : decStages c m p s with
  | ok u =>
    rw [ran] at all
    obtain ⟨touch, data, unpads⟩ := all
    exact ⟨completeOk u, v, w, runCommand_ok hl ran, before, length.trans before.1.symm, backward,
      touch.frame.trans (frame_completeOk u), data, touch.beyond, .inl ⟨unpads, completed_of_touch touch⟩⟩
  | raised e info u =>
    rw [ran] at all
    obtain ⟨touch, data, len, a, rfl, fails⟩ := all
    exact ⟨completeFault e (toWord a) u, v, w, runCommand_raised hl ran, before, length.trans before.1.symm, backward,
      touch.frame.trans (frame_completeFault e _ u), data, touch.beyond,
      .inr ⟨e, a, fails, faulted_of_touch touch len e _⟩⟩
  | waiting => rw [ran] at all; exact all.elim

theorem Unpadded.completed {q : Scheme} {s t : State} {w : List Byte} {n : Nat} (h : Unpadded q s t w)
    (unpads : Unpads q s.blockBytes w n) : Completed s t ∧ t.length = n := by
  rcases h.ended with ⟨unpads', completed⟩ | ⟨e, a, fails, -⟩
  · exact ⟨completed, unpads'.unique unpads⟩
  · exact absurd fails unpads.not_unpadFails

theorem Unpadded.faulted {q : Scheme} {s t : State} {w : List Byte} {e : Err} {a : Nat} (h : Unpadded q s t w)
    (fails : UnpadFails q s.blockBytes w e a) : Faulted e (toWord a) s t := by
  rcases h.ended with ⟨unpads, -⟩ | ⟨e', a', fails', faulted⟩
  · exact absurd fails unpads.not_unpadFails
  · obtain ⟨rfl, rfl⟩ := fails.unique fails'
    exact faulted

/-- DEC of a block mode on a buffer whose bytes all are written: the one buffer `w` that the inverse transform makes of it
decides how DEC ends. -/
theorem dec_of_written {m : Mode} (block : isBlockMode m = true) (p : Scheme) {s : State} {v w : List Byte}
    (hl : s.legal = true) (hiv : s.ivReady m) (whole : s.length % s.blockBytes = 0) (serves : s.cipherServes)
    (ivLength : m = .cbc → s.iv.length = s.blockBytes) (hv : s.bufferIs v) (backward : Backward Config.cipher m s v w) :
    (∀ n, Unpads p s.blockBytes w n →
      ∃ t, exec (decCommand m p) s = .next t ∧ Completed s t ∧ Frame s t ∧ t.length = n ∧
        (∀ a, a < s.length → t.byteAt a = some (byteOf w a)) ∧ SameBeyond s.length s t) ∧
    (∀ e a, UnpadFails p s.blockBytes w e a →
      ∃ t, exec (decCommand m p) s = .next t ∧ Faulted e (toWord a) s t ∧ Frame s t ∧
        (∀ a, a < s.length → t.byteAt a = some (byteOf w a)) ∧ SameBeyond s.length s t) := by
  obtain ⟨t, v', w', ran, before, -, backward', unpadded⟩ :=
    dec_ends Config.cipher m p hl hiv (fun _ => whole) serves ivLength
  obtain rfl := hv.eq_of_mayHold before
  obtain rfl := backward_unique (blockBytes_pos hl) (fun _ => by rwa [hv.1]) backward backward'
  rw [← exec_eq] at ran
  rw [effPad_block block] at unpadded
  refine ⟨fun n unpads => ?_, fun e a fails => ?_⟩
  · obtain ⟨completed, length⟩ := unpadded.completed unpads
    exact ⟨t, ran, completed, unpadded.frame, length, unpadded.data, unpadded.beyond⟩
  · exact ⟨t, ran, unpadded.faulted fails, unpadded.frame, unpadded.data, unpadded.beyond⟩

theorem toWord_length (s : State) : toWord s.length = s.len := by
  rw [toWord, State.length, BitVec.ofNat_toNat, BitVec.setWidth_eq]

/-- DEC of a block mode on a length that is not aligned raises before any write (R153). -/
theorem dec_unaligned {m : Mode} (block : isBlockMode m = true) (p : Scheme) {s : State} (hl : s.legal = true)
    (hiv : s.ivReady m) (partly : s.length % s.blockBytes ≠ 0) : Raises (decCommand m p) s .lengthNotAligned s.len := by
  have raised := decStages_unaligned Config.cipher p hiv block partly
  rw [toWord_length] at raised
  exact raises_of_runCommand (exec_decCommand m p s) hl raised

/-! ## DEC after ENC -/

/-- Where the unpad stage stops on what the pad stage of its scheme left: at the data, where ZERO does not eat into it
(R126, R127). -/
theorem Unpads.eq_length_of_padTail {q : Scheme} {B n : Nat} {v tail : List Byte} (pos : 0 < B) (hB : B < 256)
    (isTail : PadTail q B v.length tail) (unpads : Unpads q B (v ++ tail) n)
    (zero : q = .zero → v.length = 0 ∨ byteOf v (v.length - 1) ≠ 0x00) : n = v.length := by
  by_cases isZero : q = .zero
  · subst isZero
    obtain rfl := isTail
    exact (unpads_zero_append_replicate unpads).2.mpr (zero rfl)
  · exact unpads.unique (unpads_append_padTail isZero pos hB isTail)

/-- The state of the DEC that the host issues after an ENC: the operands of the ENC, and its result in the buffer. -/
theorem Encrypted.started {c : Cipher} {m : Mode} {q : Scheme} {s t : State} {v tail w : List Byte}
    (h : Encrypted c m q s t v tail w) (hl : s.legal = true) (room : paddedLength q s.blockBytes s.length ≤ s.bufBytes)
    (word : Word) :
    (t.started word).legal = true ∧ SameOperands s (t.started word) ∧ (t.started word).ivComplete = s.ivComplete ∧
    (t.started word).bufferIs w ∧ (t.started word).length = paddedLength q s.blockBytes s.length := by
  have params : (t.started word).params = s.params := h.frame.params
  refine ⟨(legal_iff _).mpr ⟨?_, ?_⟩, ⟨params, h.frame.key, h.frame.iv⟩, ?_, h.after, h.length⟩
  · rw [params]
    exact ((legal_iff s).mp hl).1
  · rw [State.bufBytes, params, started_length, h.length]
    exact room
  · rw [State.ivComplete, params, started_ivvalid, h.frame.ivvalid, State.ivComplete]

/-- DEC reverses ENC: the unpad stage sees what the pad stage left, since the inverse transform turns the forward transform
back (R165). -/
theorem dec_after_enc (c : Cipher) (m : Mode) (p : Scheme) {s t : State} {v tail w : List Byte} (hl : s.legal = true)
    (hiv : s.ivReady m) (ivLength : s.iv.length = s.blockBytes) (up : s.cipherUp = true)
    (room : paddedLength (effPad m p) s.blockBytes s.length ≤ s.bufBytes)
    (whole : isBlockMode m = true → effPad m p = .nopad → s.length % s.blockBytes = 0)
    (inverse : isBlockMode m = true → c.Inverse s.blockBytes s.key)
    (encrypted : Encrypted c m (effPad m p) s t v tail w) :
    ∃ u, execWith c (decCommand m p) (t.issued (decCommand m p)) = .next u ∧
      Unpadded (effPad m p) (t.started (encode (decCommand m p))) u (v ++ tail) := by
  have hB := blockBytes_pos hl
  have fits := paddedLength_fits hB whole
  obtain ⟨hl', same, ivComplete, buffer, length⟩ := encrypted.started hl room (encode (decCommand m p))
  have blockBytes := same.names.1
  obtain ⟨u, w', x, ran, before, -, backward, unpadded⟩ := dec_ends c m p hl'
    (fun needs => ivComplete.trans (hiv needs)) (by rw [blockBytes, length]; exact fits)
    ⟨.inr (encrypted.frame.cipherUp.trans up), rfl⟩ fun _ => by rw [same.iv, blockBytes, ivLength]
  obtain rfl := buffer.eq_of_mayHold before
  rw [same.backward] at backward
  obtain rfl := backward_forward hB (by rw [encrypted.length_append hB]; exact fits) (fun _ => ivLength) inverse
    encrypted.forward backward
  rw [issued_started encrypted.completed.phase (decode_encode _)]
  exact ⟨u, ran, unpadded⟩

/-! ## Two runs of one command -/

/-- The states of two runs of one command at one point of it: legal machines that agree on what the command reads and on
what it shows the host. The buffers are the same too, unless random filler was drawn into them. -/
structure Alike (filler : Bool) (s s' : State) : Prop where
  legal : s.legal = true
  iv_length : s.iv.length = s.blockBytes
  params : s'.params = s.params
  len : s'.len = s.len
  iv : s'.iv = s.iv
  ivvalid : s'.ivvalid = s.ivvalid
  key : s'.key = s.key
  steady : s.keyChanged = false ∧ s'.keyChanged = false
  cipherUp : s'.cipherUp = s.cipherUp
  randomUp : s'.randomUp = s.randomUp
  phase : s'.phase = s.phase
  done : s'.done = s.done
  err : s'.err = s.err
  errcode : s'.errcode = s.errcode
  errinfo : s'.errinfo = s.errinfo
  buffer : filler = false → ∃ v, s.bufferIs v ∧ s'.bufferIs v

/-- Two ends of one stage: both finished, both raised the same, or both wait; in states that are alike. -/
def SameEnd (filler : Bool) : StageResult → StageResult → Prop
  | .ok t, .ok t' => Alike filler t t'
  | .raised e info t, .raised e' info' t' => e' = e ∧ info' = info ∧ Alike filler t t'
  | .waiting, .waiting => True
  | _, _ => False

theorem SameForCommand.alike {s s' : State} (h : SameForCommand s s') (hl : s.legal = true)
    (ivLength : s.iv.length = s.blockBytes) : Alike false s s' where
  legal := hl
  iv_length := ivLength
  params := h.params
  len := h.len
  iv := h.iv
  ivvalid := h.ivvalid
  key := h.key
  steady := h.keySteady
  cipherUp := h.cipherUp
  randomUp := h.randomUp
  phase := h.phase
  done := h.done
  err := h.err
  errcode := h.errcode
  errinfo := h.errinfo
  buffer := fun _ => h.buffer

section Alike
variable {filler : Bool} {s s' t t' : State}

theorem Alike.blockBytes (h : Alike filler s s') : s'.blockBytes = s.blockBytes := by
  rw [State.blockBytes, h.params, State.blockBytes]

theorem Alike.bufBytes (h : Alike filler s s') : s'.bufBytes = s.bufBytes := by
  rw [State.bufBytes, h.params, State.bufBytes]

theorem Alike.length (h : Alike filler s s') : s'.length = s.length := by
  rw [State.length, h.len, State.length]

theorem Alike.ivComplete (h : Alike filler s s') : s'.ivComplete = s.ivComplete := by
  rw [State.ivComplete, h.params, h.ivvalid, State.ivComplete]

theorem Alike.legal_right (h : Alike filler s s') : s'.legal = true := by
  rw [legal_iff, h.params, h.length, h.bufBytes, ← legal_iff]
  exact h.legal

theorem Alike.sameOperands (h : Alike filler s s') : SameOperands s s' := ⟨h.params, h.key, h.iv⟩

theorem Alike.weaken {before : Bool} (h : Alike before s s') (le : before ≤ filler) : Alike filler s s' :=
  { h with buffer := fun same => h.buffer (Bool.eq_false_of_le_false (same ▸ le)) }

/-- Two parts of a command that end with one LEN and one buffer keep two states alike. -/
theorem Alike.of_touch {before : Bool} {n n' : Nat} (h : Alike before s s') (touch : Touch n s t) (touch' : Touch n' s' t')
    (len : t'.len = t.len) (fits : t.length ≤ s.bufBytes)
    (buffer : filler = false → ∃ w, t.bufferIs w ∧ t'.bufferIs w) : Alike filler t t' where
  legal := by
    rw [legal_iff, touch.params, touch.bufBytes]
    exact ⟨((legal_iff s).mp h.legal).1, fits⟩
  iv_length := by rw [touch.iv, touch.blockBytes, h.iv_length]
  params := by rw [touch'.params, touch.params, h.params]
  len := len
  iv := by rw [touch'.iv, touch.iv, h.iv]
  ivvalid := by rw [touch'.ivvalid, touch.ivvalid, h.ivvalid]
  key := by rw [touch'.key, touch.key, h.key]
  steady := ⟨touch.keyChanged.trans h.steady.1, touch'.keyChanged.trans h.steady.2⟩
  cipherUp := by rw [touch'.cipherUp, touch.cipherUp, h.cipherUp]
  randomUp := by rw [touch'.randomUp, touch.randomUp, h.randomUp]
  phase := by rw [touch'.phase, touch.phase, h.phase]
  done := by rw [touch'.done, touch.done, h.done]
  err := by rw [touch'.err, touch.err, h.err]
  errcode := by rw [touch'.errcode, touch.errcode, h.errcode]
  errinfo := by rw [touch'.errinfo, touch.errinfo, h.errinfo]
  buffer := buffer

theorem Alike.completeOk (h : Alike filler s s') : Alike filler (completeOk s) (completeOk s') :=
  { h with phase := rfl, done := rfl }

theorem Alike.completeFault (h : Alike filler s s') (e : Err) (info : Word) :
    Alike filler (completeFault e info s) (completeFault e info s') :=
  { h with phase := rfl, err := rfl, errcode := rfl, errinfo := rfl }

/-- Two stages in a row. -/
theorem SameEnd.andThen {before : Bool} {r r' : StageResult} {f f' : State → StageResult} (h : SameEnd before r r')
    (le : before ≤ filler) (next : ∀ t t', Alike before t t' → SameEnd filler (f t) (f' t')) :
    SameEnd filler (r.andThen f) (r'.andThen f') := by
  cases r <;> cases r' <;> simp only [SameEnd] at h
  case ok.ok => exact next _ _ h
  case raised.raised =>
    obtain ⟨rfl, rfl, h⟩ := h
    exact ⟨rfl, rfl, h.weaken le⟩
  case waiting.waiting => exact trivial

/-- The skeleton of a command takes stages that end alike to outcomes that are alike (R94). -/
theorem SameEnd.runCommand {f : State → StageResult} (alike : Alike false s s')
    (h : SameEnd filler (f s) (f s')) :
    ∃ t t', runCommand f s = .next t ∧ runCommand f s' = .next t' ∧ Alike filler t t' := by
  cases ran : f s <;> cases ran' : f s' <;> simp only [ran, ran', SameEnd] at h
  case ok.ok =>
    exact ⟨_, _, runCommand_ok alike.legal ran, runCommand_ok alike.legal_right ran', h.completeOk⟩
  case raised.raised =>
    obtain ⟨rfl, rfl, h⟩ := h
    exact ⟨_, _, runCommand_raised alike.legal ran, runCommand_raised alike.legal_right ran', h.completeFault _ _⟩
  case waiting.waiting =>
    exact ⟨s, s', runCommand_waiting alike.legal ran, runCommand_waiting alike.legal_right ran',
      alike.weaken (Bool.false_le filler)⟩

end Alike

/-! ## The preconditions in two runs -/

theorem ivCheck_alike {filler : Bool} {s s' : State} (h : Alike filler s s') :
    SameEnd filler (ivCheck s) (ivCheck s') := by
  rw [ivCheck, ivCheck, h.ivComplete, h.ivvalid]
  split
  · exact h
  · exact ⟨rfl, rfl, h⟩

theorem modeIvCheck_alike (m : Mode) {filler : Bool} {s s' : State} (h : Alike filler s s') :
    SameEnd filler (modeIvCheck m s) (modeIvCheck m s') := by
  unfold modeIvCheck
  split
  · exact ivCheck_alike h
  · exact h

theorem capacity_alike (total : Nat) {filler : Bool} {s s' : State} (h : Alike filler s s') :
    SameEnd filler (capacity total s) (capacity total s') := by
  rw [capacity, capacity, h.bufBytes]
  split
  · exact ⟨rfl, rfl, h⟩
  · exact h

theorem aligned_alike (total : Nat) {filler : Bool} {s s' : State} (h : Alike filler s s') :
    SameEnd filler (aligned total s) (aligned total s') := by
  rw [aligned, aligned, h.blockBytes]
  split
  · exact ⟨rfl, rfl, h⟩
  · exact h

/-! ## The pad stage in two runs -/

theorem PadTail.unique {q : Scheme} {B L : Nat} {tail tail' : List Byte} (steady : q ≠ .iso10126)
    (h : PadTail q B L tail) (h' : PadTail q B L tail') : tail = tail' := by
  cases q with
  | iso10126 => exact absurd rfl steady
  | nopad | zero | iso7816 | x923 | pkcs7 => exact h.trans h'.symm

/-- A buffer whose bytes all are written, after a tail was appended to it. -/
theorem Appended.bufferIs {s t : State} {v tail : List Byte} (h : Appended s t tail) (hv : s.bufferIs v) :
    t.bufferIs (v ++ tail) := by
  obtain ⟨length, written, kept⟩ := h
  refine ⟨by rw [List.length_append, hv.1, length], fun i hi => ?_⟩
  by_cases low : i < s.length
  · rw [byteOf_append_left (by rw [hv.1]; exact low), kept i (.inl low)]
    exact hv.2 i low
  · have atTail := written (i - s.length) (by omega)
    rw [Nat.add_sub_cancel' (Nat.le_of_not_lt low)] at atTail
    rw [byteOf_append_right (by rw [hv.1]; exact Nat.le_of_not_lt low), hv.1]
    exact atTail

/-- A pad stage with room waits where the random port does not serve it (R70, R121). -/
theorem padStage_unserved {q : Scheme} {s : State} (hl : s.legal = true)
    (room : paddedLength q s.blockBytes s.length ≤ s.bufBytes) (unserved : ¬ s.randomServes q) :
    padStage q s = .waiting := by
  simp only [State.randomServes, Classical.not_imp, not_or, Bool.not_eq_true] at unserved
  obtain ⟨rfl, silent, asks⟩ := unserved
  have := requiredPad_pos (L := s.length) (blockBytes_pos hl)
  exact padStage_waiting s room (by omega) silent

theorem Alike.randomServes_iff {filler : Bool} {s s' : State} (h : Alike filler s s') (q : Scheme) :
    s'.randomServes q ↔ s.randomServes q := by
  rw [State.randomServes, State.randomServes, h.randomUp, h.blockBytes, h.length]

theorem padStage_alike (q : Scheme) {s s' : State} (h : Alike false s s') :
    SameEnd (q == .iso10126) (padStage q s) (padStage q s') := by
  by_cases room : paddedLength q s.blockBytes s.length ≤ s.bufBytes
  · have room' : paddedLength q s'.blockBytes s'.length ≤ s'.bufBytes := by rwa [h.blockBytes, h.length, h.bufBytes]
    by_cases served : s.randomServes q
    · obtain ⟨t, tail, ran, isTail, appended, touch, -⟩ := padStage_ok q s h.legal room fun iso => (served iso).symm
      obtain ⟨t', tail', ran', isTail', appended', touch', -⟩ := padStage_ok q s' h.legal_right room' fun iso =>
        ((h.randomServes_iff q).mpr served iso).symm
      rw [h.blockBytes, h.length] at isTail'
      have hB := blockBytes_pos h.legal
      have length : t.length = paddedLength q s.blockBytes s.length := by
        rw [appended.1, isTail.length hB, paddedLength]
      have length' : t'.length = paddedLength q s.blockBytes s.length := by
        rw [appended'.1, isTail'.length hB, h.length, paddedLength]
      rw [ran, ran']
      have len : t'.len = t.len := BitVec.eq_of_toNat_eq (length'.trans length.symm)
      refine h.of_touch touch touch' len (length.trans_le room) fun steady => ?_
      obtain ⟨v, hv, hv'⟩ := h.buffer rfl
      obtain rfl := isTail.unique (beq_eq_false_iff_ne.mp steady) isTail'
      exact ⟨v ++ tail, appended.bufferIs hv, appended'.bufferIs hv'⟩
    · rw [padStage_unserved h.legal room served,
        padStage_unserved h.legal_right room' (mt (h.randomServes_iff q).mp served)]
      exact trivial
  · have large := Nat.lt_of_not_le room
    rw [padStage_overflow q s h.legal large,
      padStage_overflow q s' h.legal_right (by rw [h.blockBytes, h.length, h.bufBytes]; exact large), h.blockBytes, h.length]
    exact ⟨rfl, rfl, h.weaken (Bool.false_le _)⟩

/-! ## The unpad stage in two runs -/

/-- A buffer whose bytes all are written, after LEN went down and DATA stayed. -/
theorem State.bufferIs.take {s t : State} {v : List Byte} (hv : s.bufferIs v) (touch : Touch 0 s t)
    (le : t.length ≤ s.length) : t.bufferIs (v.take t.length) := by
  refine ⟨by rw [List.length_take, hv.1]; omega, fun i hi => ?_⟩
  rw [touch.beyond i (Nat.zero_le i), show byteOf (v.take t.length) i = byteOf v i by simp [byteOf, hi]]
  exact hv.2 i (by omega)

/-- The unpad stage on a buffer whose bytes all are written. -/
theorem unpadStage_of_written (q : Scheme) {s : State} {v : List Byte} (hv : s.bufferIs v) :
    (unpadStage q s).All (fun t => Touch 0 s t ∧ Unpads q s.blockBytes v t.length)
      (fun e info t => Touch 0 s t ∧ t.len = s.len ∧ ∃ a, info = toWord a ∧ UnpadFails q s.blockBytes v e a)
      False := by
  refine (unpadStage_spec q s).imp ?_ ?_ id
  · rintro t ⟨touch, w, holds, unpads⟩
    obtain rfl := hv.eq_of_mayHold holds
    exact ⟨touch, unpads⟩
  · rintro e info t ⟨touch, len, w, a, holds, rfl, fails⟩
    obtain rfl := hv.eq_of_mayHold holds
    exact ⟨touch, len, a, rfl, fails⟩

theorem Alike.of_unpad {s s' t t' : State} (h : Alike false s s') (touch : Touch 0 s t) (touch' : Touch 0 s' t')
    (length : t'.length = t.length) (le : t.length ≤ s.length) : Alike false t t' := by
  obtain ⟨v, hv, hv'⟩ := h.buffer rfl
  refine h.of_touch touch touch' (BitVec.eq_of_toNat_eq length) (le.trans (legal_length h.legal)) fun _ =>
    ⟨v.take t.length, hv.take touch le, ?_⟩
  rw [← length] at le ⊢
  exact hv'.take touch' (h.length ▸ le)

theorem unpadStage_alike (q : Scheme) {s s' : State} (h : Alike false s s') :
    SameEnd false (unpadStage q s) (unpadStage q s') := by
  obtain ⟨v, hv, hv'⟩ := h.buffer rfl
  have spec := unpadStage_of_written q hv
  have spec' := unpadStage_of_written q hv'
  rw [h.blockBytes] at spec'
  cases ran : unpadStage q s <;> cases ran' : unpadStage q s' <;>
    simp only [ran, ran', StageResult.All] at spec spec'
  case ok.ok =>
    obtain ⟨touch, unpads⟩ := spec
    obtain ⟨touch', unpads'⟩ := spec'
    exact h.of_unpad touch touch' (unpads'.unique unpads) (hv.1 ▸ unpads_le unpads)
  case raised.raised =>
    obtain ⟨touch, len, a, rfl, fails⟩ := spec
    obtain ⟨touch', len', a', rfl, fails'⟩ := spec'
    obtain ⟨rfl, rfl⟩ := fails.unique fails'
    exact ⟨rfl, rfl, h.of_unpad touch touch' (by rw [State.length, State.length, len', len, h.len])
      (by rw [State.length, len, State.length])⟩
  case ok.raised =>
    obtain ⟨-, -, a, -, fails⟩ := spec'
    exact spec.2.not_unpadFails fails
  case raised.ok =>
    obtain ⟨-, -, a, -, fails⟩ := spec
    exact spec'.2.not_unpadFails fails

/-! ## The transforms in two runs -/

/-- What FWD and INV of a mode `m` have in common: a stage `f` that makes of the buffer the one buffer that `rel` names, with
the checks and the requests of the mode (R180, R59, R69). -/
structure Transform (m : Mode) (f : State → StageResult) (rel : State → List Byte → List Byte → Prop) : Prop where
  served : ∀ s, s.legal = true → s.iv.length = s.blockBytes → LengthFits m s.blockBytes s.length →
    s.length = 0 ∨ s.cipherUp = true → s.keyChanged = false → ∃ t v w, f s = .ok t ∧ Ran s t v w ∧ rel s v w
  silent : ∀ s, s.legal = true → LengthFits m s.blockBytes s.length → 0 < s.length → s.cipherUp = false →
    f s = .waiting
  unaligned : ∀ s, isBlockMode m = true → s.length % s.blockBytes ≠ 0 →
    f s = .raised .lengthNotAligned (toWord s.length) s
  unique : ∀ s v w w', s.legal = true → LengthFits m s.blockBytes v.length → rel s v w → rel s v w' → w' = w
  operands : ∀ s s' v w, SameOperands s s' → rel s' v w → rel s v w

theorem fwdStage_transform (c : Cipher) (m : Mode) : Transform m (fwdStage c m) (Forward c m) where
  served s hl _ fits up steady := fwdStage_served c m s (blockBytes_pos hl) fits up steady
  silent s hl := fwdStage_silent c m s (blockBytes_pos hl)
  unaligned _ block := fwdStage_unaligned c block
  unique _ _ _ _ hl := forward_unique (blockBytes_pos hl)
  operands _ _ v w same := (same.forward c m v w).mp

theorem invStage_transform (c : Cipher) (m : Mode) : Transform m (invStage c m) (Backward c m) where
  served s hl ivLength fits up steady := invStage_served c m s (blockBytes_pos hl) fits up steady fun _ => ivLength
  silent s hl := invStage_silent c m s (blockBytes_pos hl)
  unaligned _ block := invStage_unaligned c block
  unique _ _ _ _ hl := backward_unique (blockBytes_pos hl)
  operands _ _ v w same := (same.backward c m v w).mp

theorem Transform.alike {m : Mode} {f : State → StageResult} {rel : State → List Byte → List Byte → Prop}
    (transform : Transform m f rel) {filler : Bool} {s s' : State} (h : Alike filler s s') :
    SameEnd filler (f s) (f s') := by
  by_cases fits : LengthFits m s.blockBytes s.length
  · have fits' : LengthFits m s'.blockBytes s'.length := by rwa [h.blockBytes, h.length]
    by_cases up : s.length = 0 ∨ s.cipherUp = true
    · obtain ⟨t, v, w, ran, did, makes⟩ := transform.served s h.legal h.iv_length fits up h.steady.1
      obtain ⟨t', v', w', ran', did', makes'⟩ := transform.served s' h.legal_right
        (by rw [h.iv, h.blockBytes, h.iv_length]) fits' (by rwa [h.length, h.cipherUp]) h.steady.2
      have le : t.length ≤ s.bufBytes := by
        rw [State.length, did.len]
        exact legal_length h.legal
      rw [ran, ran']
      refine h.of_touch did.touch did'.touch (by rw [did'.len, did.len, h.len]) le fun same => ?_
      obtain ⟨x, hx, hx'⟩ := h.buffer same
      obtain rfl := hx.eq_of_mayHold did.before
      obtain rfl := hx'.eq_of_mayHold did'.before
      have makes_left := transform.operands s s' _ _ h.sameOperands makes'
      obtain rfl := transform.unique s _ _ _ h.legal (by rwa [hx.1]) makes makes_left
      exact ⟨_, did.after, did'.after⟩
    · simp only [not_or, Bool.not_eq_true] at up
      obtain ⟨nonempty, silent⟩ := up
      rw [transform.silent s h.legal fits (Nat.pos_of_ne_zero nonempty) silent, transform.silent s' h.legal_right fits'
        (by rw [h.length]; exact Nat.pos_of_ne_zero nonempty) (by rw [h.cipherUp, silent])]
      exact trivial
  · simp only [LengthFits, Classical.not_imp] at fits
    obtain ⟨block, partly⟩ := fits
    rw [transform.unaligned s block partly, transform.unaligned s' block (by rwa [h.length, h.blockBytes]), h.length]
    exact ⟨rfl, rfl, h⟩

/-! ## Commands in two runs -/

theorem encStages_alike (c : Cipher) (m : Mode) (p : Scheme) {s s' : State} (h : Alike false s s') :
    SameEnd (effPad m p == .iso10126) (encStages c m p s) (encStages c m p s') := by
  simp only [encStages, h.blockBytes, h.length]
  refine (modeIvCheck_alike m h).andThen (Bool.false_le _) fun _ _ h => ?_
  refine (capacity_alike _ h).andThen (Bool.false_le _) fun _ _ h => ?_
  refine SameEnd.andThen (before := false) ?_ (Bool.false_le _) fun _ _ h => ?_
  · split
    · exact aligned_alike _ h
    · exact h
  · exact (padStage_alike _ h).andThen le_rfl fun _ _ => (fwdStage_transform c m).alike

theorem decStages_alike (c : Cipher) (m : Mode) (p : Scheme) {s s' : State} (h : Alike false s s') :
    SameEnd false (decStages c m p s) (decStages c m p s') :=
  (modeIvCheck_alike m h).andThen le_rfl fun _ _ h =>
    ((invStage_transform c m).alike h).andThen le_rfl fun _ _ => unpadStage_alike _

theorem drawsRandom_padCommand (q : Scheme) : drawsRandom (padCommand q) = (q == .iso10126) := by cases q <;> rfl

theorem drawsRandom_unpadCommand (q : Scheme) : drawsRandom (unpadCommand q) = false := by cases q <;> rfl

theorem drawsRandom_fwdCommand (m : Mode) : drawsRandom (fwdCommand m) = false := by cases m <;> rfl

theorem drawsRandom_invCommand (m : Mode) : drawsRandom (invCommand m) = false := by cases m <;> rfl

theorem drawsRandom_encCommand (m : Mode) (p : Scheme) :
    drawsRandom (encCommand m p) = (effPad m p == .iso10126) := by cases m <;> rfl

theorem drawsRandom_decCommand (m : Mode) (p : Scheme) : drawsRandom (decCommand m p) = false := by cases m <;> rfl

/-- Every command takes states that are alike to states that are alike, but for the filler it draws (R166, R240). -/
theorem exec_alike (i : Instr) {s s' : State} (h : Alike false s s') :
    ∃ t t', exec i s = .next t ∧ exec i s' = .next t' ∧ Alike (drawsRandom i) t t' := by
  rcases i.family with ⟨p, rfl⟩ | ⟨p, rfl⟩ | ⟨m, rfl⟩ | ⟨m, rfl⟩ | ⟨m, p, rfl⟩ | ⟨m, p, rfl⟩
  · rw [exec_padCommand, exec_padCommand, drawsRandom_padCommand]
    exact (padStage_alike p h).runCommand h
  · rw [exec_unpadCommand, exec_unpadCommand, drawsRandom_unpadCommand]
    exact (unpadStage_alike p h).runCommand h
  · rw [exec_fwdCommand, exec_fwdCommand, drawsRandom_fwdCommand]
    exact SameEnd.runCommand h
      ((modeIvCheck_alike m h).andThen le_rfl fun _ _ => (fwdStage_transform Config.cipher m).alike)
  · rw [exec_invCommand, exec_invCommand, drawsRandom_invCommand]
    exact SameEnd.runCommand h
      ((modeIvCheck_alike m h).andThen le_rfl fun _ _ => (invStage_transform Config.cipher m).alike)
  · rw [exec_encCommand, exec_encCommand, drawsRandom_encCommand]
    exact (encStages_alike Config.cipher m p h).runCommand h
  · rw [exec_decCommand, exec_decCommand, drawsRandom_decCommand]
    exact (decStages_alike Config.cipher m p h).runCommand h

end Sys2Proof.Machine
end

section
/-! The settled statements of spec/41_mode_contract.md: the stream modes, ENC and DEC of the block modes, the round trip,
and what a command reads. -/

namespace Sys2Proof.Machine

/-! ## The stream modes -/

/-- Settles O43: R204 and R212 define the inverse transforms of OFB and CTR as the forward ones. -/
theorem streamContractIsTheTransform : Obligations.StreamContractIsTheTransform := fun p s =>
  ⟨exec_encCommand_eq_fwdCommand (m := .cfb) rfl p s, exec_decCommand_eq_invCommand (m := .cfb) rfl p s,
    exec_encCommand_eq_fwdCommand (m := .ofb) rfl p s, exec_decCommand_eq_invCommand (m := .ofb) rfl p s,
    exec_encCommand_eq_fwdCommand (m := .ctr) rfl p s, exec_decCommand_eq_invCommand (m := .ctr) rfl p s, rfl, rfl⟩

/-! ## ENC and DEC of the block modes -/

/-- Settles O39, with no IV to check. -/
theorem encEcbPadsThenEncrypts : Obligations.EncEcbPadsThenEncrypts := by
  refine ⟨rfl, ?_⟩
  rintro p s _ hl rfl
  have hiv : s.ivReady .ecb := by intro needs; cases needs
  refine ⟨by cases p <;> rfl, enc_overflows (m := .ecb) rfl p hl hiv, ?_, fun room whole served up steady => ?_⟩
  · rintro rfl
    exact enc_unaligned (m := .ecb) rfl hl hiv
  · exact enc_completes_blockwise (m := .ecb) rfl p hl hiv room whole served up steady fun _ _ forward => forward

/-- Settles O40: the IV check comes before the checks that ENC.ECB makes too. -/
theorem encCbcPadsThenChains : Obligations.EncCbcPadsThenChains := by
  refine ⟨rfl, ?_⟩
  rintro p s _ hl rfl
  refine ⟨by cases p <;> rfl, raises_ivMissing hl (by simp [ivMode]),
    fun hiv => enc_overflows (m := .cbc) rfl p hl fun _ => hiv, ?_, fun hiv room whole served up steady => ?_⟩
  · rintro hiv rfl
    exact enc_unaligned (m := .cbc) rfl hl fun _ => hiv
  · exact enc_completes_blockwise (m := .cbc) rfl p hl (fun _ => hiv) room whole served up steady
      fun _ _ forward => forward

/-- Settles O41: the decrypted buffer is one, and the unpad rules answer once on it. -/
theorem decEcbDecryptsThenUnpads : Obligations.DecEcbDecryptsThenUnpads := by
  refine ⟨rfl, fun p s hl => ?_⟩
  have hiv : s.ivReady .ecb := by intro needs; cases needs
  refine ⟨by cases p <;> rfl, dec_unaligned (m := .ecb) rfl p hl hiv, fun v w whole serves hv length blocks => ?_,
    fun whole serves => ?_⟩
  · have backward : Backward Config.cipher .ecb s v w := ⟨length, fun k block => blocks k (block.trans_eq hv.1)⟩
    exact dec_of_written (m := .ecb) rfl p hl hiv whole serves (by intro other; cases other) hv backward
  · obtain ⟨t, v, w, ran, before, length, backward, unpadded⟩ :=
      dec_ends Config.cipher .ecb p hl hiv (fun _ => whole) serves (by intro other; cases other)
    rw [← exec_eq] at ran
    exact ⟨t, v, w, ran, before, length, fun k block => backward.2 k (block.trans_eq before.1.symm), unpadded⟩

/-- Settles O42: as DEC.ECB, after the IV check. -/
theorem decCbcUnchainsThenUnpads : Obligations.DecCbcUnchainsThenUnpads := by
  refine ⟨rfl, fun p s hl ivLength => ?_⟩
  refine ⟨by cases p <;> rfl, raises_ivMissing hl (by simp [ivMode]),
    fun hiv => dec_unaligned (m := .cbc) rfl p hl fun _ => hiv, fun v w hiv whole serves hv length blocks => ?_,
    fun hiv whole serves => ?_⟩
  · have backward : Backward Config.cipher .cbc s v w := ⟨length, fun k block => blocks k (block.trans_eq hv.1)⟩
    exact dec_of_written (m := .cbc) rfl p hl (fun _ => hiv) whole serves (fun _ => ivLength) hv backward
  · obtain ⟨t, v, w, ran, before, length, backward, unpadded⟩ :=
      dec_ends Config.cipher .cbc p hl (fun _ => hiv) (fun _ => whole) serves fun _ => ivLength
    rw [← exec_eq] at ran
    exact ⟨t, v, w, ran, before, length, fun k block => backward.2 k (block.trans_eq before.1.symm), unpadded⟩

/-! ## The round trip -/

/-- Settles O47: DEC unpads the buffer that the pad stage of ENC left, and no unpad stage fails on such a buffer. -/
theorem decReversesEnc : Obligations.DecReversesEnc := by
  refine ⟨exec_eq, fun c m p s v hl hv ivLength hiv up steady served room inverse whole zero => ?_⟩
  have hB := legal_blockBytes hl
  obtain ⟨t, v', tail, w, ran, encrypted⟩ := enc_completes c m p hl hiv room whole served (.inr up) steady
  obtain rfl := hv.eq_of_mayHold encrypted.before
  obtain ⟨u, ran', unpadded⟩ := dec_after_enc c m p hl hiv ivLength up room whole inverse encrypted
  obtain ⟨-, same, -, -, length⟩ := encrypted.started hl room (encode (decCommand m p))
  have isTail := encrypted.isTail
  rw [← hv.1] at isTail zero
  rcases unpadded.ended with ⟨unpads, completed⟩ | ⟨e, a, fails, -⟩
  · rw [same.names.1] at unpads
    have restored := (unpads.eq_length_of_padTail (by omega) (by omega) isTail zero).trans hv.1
    refine ⟨t, u, ran, encrypted.completed.phase, encrypted.completed.done, ran', completed.phase, completed.done,
      completed.err, restored, hv.1.trans restored.symm, fun i hi => ?_⟩
    rw [restored] at hi
    rw [unpadded.data i (by rw [length, paddedLength]; omega), byteOf_append_left (hi.trans_eq hv.1.symm)]
  · rw [same.names.1] at fails
    exact absurd fails (isTail.not_unpadFails (by omega) (by omega))

/-! ## What a command reads -/

/-- Settles O52: states that are alike stay alike through every stage. -/
theorem commandReadsOnlyItsOperands : Obligations.CommandReadsOnlyItsOperands := by
  intro i s s' hl ivLength same
  obtain ⟨t, t', ran, ran', alike⟩ := exec_alike i (same.alike hl ivLength)
  refine ⟨t, t', ran, ran', alike.phase, alike.done, alike.err, alike.errcode, alike.errinfo, alike.len,
    fun steady a ha => ?_⟩
  obtain ⟨v, hv, hv'⟩ := alike.buffer steady
  rw [hv.2 a ha, hv'.2 a (ha.trans_eq alike.length.symm)]

end Sys2Proof.Machine
end

section
/-! The facts under the statements of spec/42_ecb_cbc.md: FWD and INV as commands with any cipher behind the port, INV after
FWD, and two runs of INV.CBC on ciphertexts that differ in one block. -/

namespace Sys2Proof.Machine

/-! ## FWD and INV, with any cipher behind the port -/

theorem execWith_fwdCommand (c : Cipher) (m : Mode) (s : State) :
    execWith c (fwdCommand m) s = runCommand (fun s => (modeIvCheck m s).andThen (fwdStage c m)) s := by
  cases m <;> rfl

theorem execWith_invCommand (c : Cipher) (m : Mode) (s : State) :
    execWith c (invCommand m) s = runCommand (fun s => (modeIvCheck m s).andThen (invStage c m)) s := by
  cases m <;> rfl

/-- ECB needs no IV (R96). -/
theorem ivReady_ecb (s : State) : s.ivReady .ecb := fun needs => by cases needs

/-- A mode whose IV check passes goes on to its transform. -/
theorem modeIvCheck_andThen {m : Mode} {s : State} (hiv : s.ivReady m) (f : State → StageResult) :
    (modeIvCheck m s).andThen f = f s := by
  rw [modeIvCheck_ok hiv, andThen_ok]

/-- FWD or INV of a block mode on a length that is not aligned raises before any write (R180). -/
theorem Transform.raises_unaligned {m : Mode} {f : State → StageResult} {rel : State → List Byte → List Byte → Prop}
    (transform : Transform m f rel) {i : Instr} {s : State}
    (runs : exec i s = runCommand (fun s => (modeIvCheck m s).andThen f) s) (block : isBlockMode m = true)
    (hl : s.legal = true) (hiv : s.ivReady m) (partly : s.length % s.blockBytes ≠ 0) :
    Raises i s .lengthNotAligned s.len := by
  have raised := transform.unaligned s block partly
  rw [toWord_length] at raised
  exact raises_of_runCommand runs hl ((modeIvCheck_andThen hiv f).trans raised)

/-- FWD after its checks, served, completes with the forward transform of what it read of the buffer. -/
theorem fwd_completes (c : Cipher) (m : Mode) {s : State} (hl : s.legal = true) (hiv : s.ivReady m)
    (fits : LengthFits m s.blockBytes s.length) (serves : s.cipherServes) :
    ∃ t v w, execWith c (fwdCommand m) s = .next t ∧ Transformed s t v w ∧ Forward c m s v w := by
  obtain ⟨u, v, w, finished, ran, forward⟩ := fwdStage_served c m s (blockBytes_pos hl) fits serves.1 serves.2
  rw [execWith_fwdCommand]
  exact ⟨completeOk u, v, w, runCommand_ok hl ((modeIvCheck_andThen hiv _).trans finished), ran.transformed, forward⟩

/-- INV after its checks, served, completes with the inverse transform of what it read of the buffer. -/
theorem inv_completes (c : Cipher) (m : Mode) {s : State} (hl : s.legal = true) (hiv : s.ivReady m)
    (fits : LengthFits m s.blockBytes s.length) (serves : s.cipherServes)
    (ivLength : m = .cbc → s.iv.length = s.blockBytes) :
    ∃ t v w, execWith c (invCommand m) s = .next t ∧ Transformed s t v w ∧ Backward c m s v w := by
  obtain ⟨u, v, w, finished, ran, backward⟩ :=
    invStage_served c m s (blockBytes_pos hl) fits serves.1 serves.2 ivLength
  rw [execWith_invCommand]
  exact ⟨completeOk u, v, w, runCommand_ok hl ((modeIvCheck_andThen hiv _).trans finished), ran.transformed, backward⟩

/-- A relation of the blocks of two buffers, on the blocks of DATA that the transform covered. -/
theorem Transformed.blocks {s t : State} {v w : List Byte} {f : Nat → List Byte} (h : Transformed s t v w)
    (blockwise : BlockwiseIs s v w f) (k : Nat) (inside : (k + 1) * s.blockBytes ≤ s.length) : s.blk w k = f k :=
  blockwise.2 k (inside.trans_eq h.before.1.symm)

/-! ## INV after FWD -/

/-- The state of a second transform that the host issues after a first: the same operands, but for the result of the first
in the buffer. -/
theorem Transformed.started {s t : State} {v w : List Byte} (h : Transformed s t v w) (hl : s.legal = true) (word : Word) :
    (t.started word).legal = true ∧ SameOperands s (t.started word) ∧ (t.started word).ivComplete = s.ivComplete ∧
    (t.started word).bufferIs w ∧ (t.started word).length = s.length := by
  have params : (t.started word).params = s.params := h.frame.params
  have length : (t.started word).length = s.length := by rw [started_length, State.length, h.len, State.length]
  refine ⟨?_, ⟨params, h.frame.key, h.frame.iv⟩, ?_, h.after, length⟩
  · rw [legal_iff, State.bufBytes, params, length]
    exact (legal_iff s).mp hl
  · rw [State.ivComplete, params, started_ivvalid, h.frame.ivvalid, State.ivComplete]

/-- INV after FWD restores what FWD read of the buffer: for every cipher in a stream mode, in a block mode for every cipher
with D(E(x)) = x. -/
theorem inv_after_fwd (c : Cipher) (m : Mode) {s t : State} {v w : List Byte} (hl : s.legal = true) (hiv : s.ivReady m)
    (ivLength : m = .cbc → s.iv.length = s.blockBytes) (fits : LengthFits m s.blockBytes s.length)
    (serves : s.cipherServes) (inverse : isBlockMode m = true → c.Inverse s.blockBytes s.key)
    (transformed : Transformed s t v w) (forward : Forward c m s v w) :
    ∃ u, execWith c (invCommand m) (t.issued (invCommand m)) = .next u ∧
      Transformed (t.started (encode (invCommand m))) u w v := by
  obtain ⟨hl', same, ivComplete, buffer, length⟩ := transformed.started hl (encode (invCommand m))
  have blockBytes := same.names.1
  obtain ⟨u, w', x, ran, restored, backward⟩ := inv_completes c m hl' (fun needs => ivComplete.trans (hiv needs))
    (by rw [blockBytes, length]; exact fits)
    ⟨by rw [length, started_cipherUp, transformed.frame.cipherUp]; exact serves.1, rfl⟩
    fun cbc => by rw [same.iv, blockBytes, ivLength cbc]
  obtain rfl := buffer.eq_of_mayHold restored.before
  rw [same.backward] at backward
  obtain rfl := backward_forward (blockBytes_pos hl) (by rw [transformed.before.1]; exact fits) ivLength inverse forward
    backward
  rw [issued_started transformed.completed.phase (decode_encode _)]
  exact ⟨u, ran, restored⟩

/-! ## The cipher on blocks -/

/-- R12's `D(E(x)) = x` makes `D` injective on blocks: there are finitely many, so `E` reaches every one of them. -/
theorem decBlock_injOn {c : Cipher} {n key : Nat} (inverse : c.Inverse n key) :
    Set.InjOn (c.decBlock n key) {x | x.length = n} := by
  have finite : Finite Byte := Finite.of_equiv _ BitVec.equivFin.symm.toEquiv
  have leftInverse : Set.LeftInvOn (c.decBlock n key) (c.encBlock n key) {x | x.length = n} := inverse
  have mapsTo : Set.MapsTo (c.encBlock n key) {x | x.length = n} {x | x.length = n} := fun x _ =>
    encBlock_length c n key x
  have image := (((List.finite_length_eq Byte n).injOn_iff_bijOn_of_mapsTo mapsTo).mp leftInverse.injOn).image_eq
  have rightInverse := leftInverse.rightInvOn_image
  rw [image] at rightInverse
  exact rightInverse.injOn

theorem xor_xor_xor_byte (a b d : Byte) : a ^^^ b ^^^ (a ^^^ d) = b ^^^ d := by
  rw [BitVec.xor_comm a b, BitVec.xor_assoc, ← BitVec.xor_assoc a, BitVec.xor_self, BitVec.zero_xor]

/-- XOR with one vector leaves the difference of two vectors as it is. -/
theorem xorBytes_xorBytes_left {a b d : List Byte} (hb : b.length = a.length) (hd : d.length = a.length) :
    xorBytes (xorBytes a b) (xorBytes a d) = xorBytes b d := by
  refine eq_of_byteOf (by simp [hb, hd]) fun j hj => ?_
  simp only [xorBytes_length, hb, hd, min_self] at hj
  rw [byteOf_xorBytes (by simpa [hb] using hj) (by simpa [hd] using hj), byteOf_xorBytes hj (by omega),
    byteOf_xorBytes hj (by omega), byteOf_xorBytes (by omega) (by omega), xor_xor_xor_byte]

/-! ## INV.CBC on ciphertexts that differ in one block -/

theorem previous_congr {s : State} {v v' : List Byte} {k : Nat} (h : k ≠ 0 → s.blk v (k - 1) = s.blk v' (k - 1)) :
    s.previous v k = s.previous v' k := by
  unfold State.previous
  split
  · rfl
  · rename_i later
    exact h later

theorem previous_succ (s : State) (v : List Byte) (k : Nat) : s.previous v (k + 1) = s.blk v k := rfl

theorem block_inside_of_le {k j B L : Nat} (before : k ≤ j) (inside : (j + 1) * B ≤ L) : (k + 1) * B ≤ L :=
  (Nat.mul_le_mul_right B (Nat.succ_le_succ before)).trans inside

/-- Ciphertexts that differ in block `k` alone. -/
structure DifferOnlyAt (s : State) (v v' : List Byte) (k : Nat) : Prop where
  length : v'.length = v.length
  inside : (k + 1) * s.blockBytes ≤ v.length
  differ : s.blk v k ≠ s.blk v' k
  same : ∀ j, j ≠ k → (j + 1) * s.blockBytes ≤ v.length → s.blk v j = s.blk v' j

section CbcDifference
variable {c : Cipher} {s : State} {v v' w w' : List Byte} {k : Nat}

theorem DifferOnlyAt.previous_eq (h : DifferOnlyAt s v v' k) {j : Nat} (other : j ≠ k + 1)
    (inside : (j + 1) * s.blockBytes ≤ v.length) : s.previous v j = s.previous v' j :=
  previous_congr fun later => h.same (j - 1) (by omega) (block_inside_of_le (Nat.sub_le j 1) inside)

/-- Every plaintext block but `k` and `k + 1` is the same: it is made of blocks that are (R186). -/
theorem DifferOnlyAt.plain_eq (h : DifferOnlyAt s v v' k) (backward : Backward c .cbc s v w)
    (backward' : Backward c .cbc s v' w') {j : Nat} (notAt : j ≠ k) (notAfter : j ≠ k + 1)
    (inside : (j + 1) * s.blockBytes ≤ v.length) : s.blk w j = s.blk w' j := by
  rw [backward.2 j inside, backward'.2 j (by rwa [h.length])]
  dsimp only
  rw [h.same j notAt inside, h.previous_eq notAfter inside]

/-- Plaintext block `k` differs: one vector is XORed to answers of `D` that differ (R186). -/
theorem DifferOnlyAt.plain_ne (h : DifferOnlyAt s v v' k) (inverse : c.Inverse s.blockBytes s.key)
    (ivLength : s.iv.length = s.blockBytes) (backward : Backward c .cbc s v w) (backward' : Backward c .cbc s v' w') :
    s.blk w k ≠ s.blk w' k := by
  have inside' : (k + 1) * s.blockBytes ≤ v'.length := h.length ▸ h.inside
  have lengths (x : List Byte) : (s.D c x).length = (s.previous v k).length := by
    rw [previous_length ivLength h.inside, State.D, decBlock_length]
  intro equal
  rw [backward.2 k h.inside, backward'.2 k inside'] at equal
  dsimp only at equal
  rw [← h.previous_eq (by omega) h.inside] at equal
  have decrypted : s.D c (s.blk v k) = s.D c (s.blk v' k) := by
    rw [← xorBytes_cancel (lengths (s.blk v k)), equal, xorBytes_cancel (lengths _)]
  exact h.differ (decBlock_injOn inverse (blk_length h.inside) (blk_length inside') decrypted)

/-- Plaintext block `k + 1` differs by exactly the difference of the ciphertexts: one answer of `D` is XORed to both
(R186). -/
theorem DifferOnlyAt.plain_xor (h : DifferOnlyAt s v v' k) (backward : Backward c .cbc s v w)
    (backward' : Backward c .cbc s v' w') (next : (k + 2) * s.blockBytes ≤ v.length) :
    xorBytes (s.blk w (k + 1)) (s.blk w' (k + 1)) = xorBytes (s.blk v k) (s.blk v' k) := by
  rw [backward.2 (k + 1) next, backward'.2 (k + 1) (by rwa [h.length])]
  simp only [previous_succ, ← h.same (k + 1) (by omega) next]
  refine xorBytes_xorBytes_left ?_ ?_
  · rw [blk_length h.inside, State.D, decBlock_length]
  · rw [blk_length (by rw [h.length]; exact h.inside), State.D, decBlock_length]

end CbcDifference

end Sys2Proof.Machine
end

section
/-! The settled statements of spec/42_ecb_cbc.md: FWD and INV of ECB and CBC, equal blocks in ECB, and the propagation of an
error in CBC. -/

namespace Sys2Proof.Machine

/-! ## ECB -/

/-- Settles O30, with no IV to check. -/
theorem fwdEcbEncryptsBlocks : Obligations.FwdEcbEncryptsBlocks := by
  refine ⟨rfl, fun s hl => ⟨?_, fun whole serves => ?_⟩⟩
  · exact (fwdStage_transform _ .ecb).raises_unaligned (exec_fwdCommand .ecb s) rfl hl (ivReady_ecb s)
  · obtain ⟨t, v, w, ran, transformed, forward⟩ :=
      fwd_completes Config.cipher .ecb hl (ivReady_ecb s) (fun _ => whole) serves
    exact ⟨t, v, w, (exec_eq _ s).trans ran, transformed, transformed.blocks forward⟩

/-- Settles O31: what FWD.ECB left is what INV.ECB reads, and the inverse transform turns it back. -/
theorem invEcbDecryptsBlocks : Obligations.InvEcbDecryptsBlocks := by
  refine ⟨rfl, fun s => ⟨exec_eq _ s, exec_eq _ s⟩, fun c s v inverse hl whole serves hv => ?_,
    fun s hl => ⟨?_, fun whole serves => ?_⟩⟩
  · obtain ⟨t, v', w, ran, transformed, forward⟩ := fwd_completes c .ecb hl (ivReady_ecb s) (fun _ => whole) serves
    obtain rfl := hv.eq_of_mayHold transformed.before
    obtain ⟨u, ran', restored⟩ := inv_after_fwd c .ecb hl (ivReady_ecb s) (fun cbc => by cases cbc) (fun _ => whole)
      serves (fun _ => inverse) transformed forward
    obtain ⟨-, -, -, -, length⟩ := transformed.started hl (encode .invEcb)
    exact ⟨t, u, ran, transformed.completed.phase, ran', restored.completed.done, restored.completed.err, restored.after,
      fun i beyond => (restored.beyond i (length.trans_le beyond)).trans (transformed.beyond i beyond)⟩
  · exact (invStage_transform _ .ecb).raises_unaligned (exec_invCommand .ecb s) rfl hl (ivReady_ecb s)
  · obtain ⟨t, v, w, ran, transformed, backward⟩ := inv_completes Config.cipher .ecb hl (ivReady_ecb s) (fun _ => whole)
      serves (fun cbc => by cases cbc)
    exact ⟨t, v, w, (exec_eq _ s).trans ran, transformed, transformed.blocks backward⟩

/-- Settles O48: FWD.ECB encrypts each block for itself. -/
theorem ecbKeepsEqualBlocks : Obligations.EcbKeepsEqualBlocks := by
  intro s v k j hl whole serves hv insideK insideJ _ equal
  obtain ⟨t, v', w, ran, transformed, forward⟩ :=
    fwd_completes Config.cipher .ecb hl (ivReady_ecb s) (fun _ => whole) serves
  obtain rfl := hv.eq_of_mayHold transformed.before
  refine ⟨t, w, (exec_eq _ s).trans ran, transformed.after, ?_⟩
  rw [transformed.blocks forward k insideK, transformed.blocks forward j insideJ, equal]

/-! ## CBC -/

/-- Settles O32: the IV check comes before the checks that FWD.ECB makes too. -/
theorem fwdCbcChainsCiphertext : Obligations.FwdCbcChainsCiphertext := by
  refine ⟨rfl, fun s hl => ⟨raises_ivMissing hl (by simp [ivMode]), fun hiv => ?_, fun hiv whole serves => ?_⟩⟩
  · exact (fwdStage_transform _ .cbc).raises_unaligned (exec_fwdCommand .cbc s) rfl hl fun _ => hiv
  · obtain ⟨t, v, w, ran, transformed, forward⟩ :=
      fwd_completes Config.cipher .cbc hl (fun _ => hiv) (fun _ => whole) serves
    exact ⟨t, v, w, (exec_eq _ s).trans ran, transformed, transformed.blocks forward⟩

/-- Settles O33: as FWD.CBC, with the ciphertext in the buffer at the issue. -/
theorem invCbcChainsCiphertext : Obligations.InvCbcChainsCiphertext := by
  refine ⟨rfl, fun s hl ivLength => ⟨raises_ivMissing hl (by simp [ivMode]), fun hiv => ?_, fun hiv whole serves => ?_⟩⟩
  · exact (invStage_transform _ .cbc).raises_unaligned (exec_invCommand .cbc s) rfl hl fun _ => hiv
  · obtain ⟨t, v, w, ran, transformed, backward⟩ :=
      inv_completes Config.cipher .cbc hl (fun _ => hiv) (fun _ => whole) serves fun _ => ivLength
    exact ⟨t, v, w, (exec_eq _ s).trans ran, transformed, transformed.blocks backward⟩

/-- Settles O49: the two states have the same operands but the ciphertext. -/
theorem cbcErrorPropagation : Obligations.CbcErrorPropagation := by
  refine ⟨exec_eq, fun c s s' v v' k inverse hl ivLength hiv whole serves sameButData hv hv' inside differ same => ?_⟩
  generalize s'.data = data at sameButData
  subst sameButData
  obtain ⟨t, x, w, ran, transformed, backward⟩ :=
    inv_completes c .cbc hl (fun _ => hiv) (fun _ => whole) serves fun _ => ivLength
  obtain ⟨t', x', w', ran', transformed', backward'⟩ :=
    inv_completes c .cbc (s := { s with data }) hl (fun _ => hiv) (fun _ => whole) serves fun _ => ivLength
  obtain rfl := hv.eq_of_mayHold transformed.before
  obtain rfl := hv'.eq_of_mayHold transformed'.before
  have operands : SameOperands s { s with data } := ⟨rfl, rfl, rfl⟩
  rw [operands.backward] at backward'
  have difference : DifferOnlyAt s x x' k :=
    ⟨hv'.1.trans hv.1.symm, hv.1 ▸ inside, differ, fun j other covered => same j other (hv.1 ▸ covered)⟩
  exact ⟨t, t', w, w', ran, ran', transformed.after, transformed'.after,
    difference.plain_ne inverse ivLength backward backward',
    fun next => difference.plain_xor backward backward' (hv.1 ▸ next),
    fun j notAt notAfter covered => difference.plain_eq backward backward' notAt notAfter (hv.1 ▸ covered)⟩

end Sys2Proof.Machine
end

section
/-! The facts under the statements of spec/43_cfb_ofb_ctr.md: the commands of a stream mode as its transforms, a second
transform that undoes the first, and the window of the counter as a number. -/

namespace Sys2Proof.Machine

/-! ## The commands of a stream mode -/

/-- A stream mode asks for no length (R59). -/
theorem lengthFits_stream {m : Mode} (stream : isBlockMode m = false) (B L : Nat) : LengthFits m B L := fun block =>
  absurd (stream.symm.trans block) Bool.false_ne_true

theorem ne_cbc_of_stream {m : Mode} (stream : isBlockMode m = false) : m ≠ .cbc := by
  rintro rfl
  cases stream

/-- The command `i` of a stream mode: IvMissing without a complete IV (R96); else, served, it completes, and what it read
of the buffer and what it left there are related by `rel`. -/
def StreamMeaning (i : Instr) (s : State) (rel : List Byte → List Byte → Prop) : Prop :=
  (s.ivComplete = false → Raises i s .ivMissing (s.ivvalid.extractLsb' 0 32)) ∧
  (s.ivComplete = true → s.cipherServes → ∃ t v w, exec i s = .next t ∧ Transformed s t v w ∧ rel v w)

/-- The relation by a keystream, on each byte of DATA that the transform covered. -/
theorem StreamMeaning.bytes (ks : List Byte → List Byte → Nat → List Byte) {i : Instr} {s : State}
    (meaning : StreamMeaning i s fun v w => XoredWith s v w (ks v w)) :
    StreamMeaning i s fun v w => ∀ a, a < s.length →
      byteOf w a = byteOf v a ^^^ byteOf (ks v w (a / s.blockBytes)) (a % s.blockBytes) := by
  refine ⟨meaning.1, fun hiv serves => ?_⟩
  obtain ⟨t, v, w, ran, transformed, xored⟩ := meaning.2 hiv serves
  exact ⟨t, v, w, ran, transformed, fun a inside => xored.2 a (inside.trans_eq transformed.before.1.symm)⟩

/-- FWD and ENC of a stream mode: the IV check (R96), then, served, the forward transform of a buffer of any length,
whatever the PAD field is (R150, R152). -/
theorem stream_forward {m : Mode} (stream : isBlockMode m = false) {i : Instr} {s : State}
    (command : i = fwdCommand m ∨ ∃ p, i = encCommand m p) (hl : s.legal = true) :
    StreamMeaning i s (Forward Config.cipher m s) := by
  have needs := needsIv_of_stream stream
  have completes (hiv : s.ivComplete = true) (serves : s.cipherServes) :=
    fwd_completes Config.cipher m hl (fun _ => hiv) (lengthFits_stream stream _ _) serves
  simp only [← exec_eq] at completes
  rcases command with rfl | ⟨p, rfl⟩
  · exact ⟨raises_ivMissing hl ((ivMode_fwdCommand m).mpr needs), completes⟩
  · rw [StreamMeaning, exec_encCommand_eq_fwdCommand stream]
    exact ⟨raises_ivMissing hl ((ivMode_encCommand m p).mpr needs), completes⟩

/-- INV and DEC of a stream mode, as FWD and ENC, with the inverse transform (R150, R153). -/
theorem stream_backward {m : Mode} (stream : isBlockMode m = false) {i : Instr} {s : State}
    (command : i = invCommand m ∨ ∃ p, i = decCommand m p) (hl : s.legal = true) :
    StreamMeaning i s (Backward Config.cipher m s) := by
  have needs := needsIv_of_stream stream
  have completes (hiv : s.ivComplete = true) (serves : s.cipherServes) :=
    inv_completes Config.cipher m hl (fun _ => hiv) (lengthFits_stream stream _ _) serves
      fun cbc => absurd cbc (ne_cbc_of_stream stream)
  simp only [← exec_eq] at completes
  rcases command with rfl | ⟨p, rfl⟩
  · exact ⟨raises_ivMissing hl ((ivMode_invCommand m).mpr needs), completes⟩
  · rw [StreamMeaning, exec_decCommand_eq_invCommand stream]
    exact ⟨raises_ivMissing hl ((ivMode_decCommand m p).mpr needs), completes⟩

/-- OFB and CTR have one transform for both directions (R204, R212): what is said of it holds of all four commands. -/
theorem stream_symmetric {m : Mode} (stream : isBlockMode m = false)
    (symmetric : ∀ c s, Backward c m s = Forward c m s) {i : Instr} {s : State}
    (command : i = fwdCommand m ∨ i = invCommand m ∨ (∃ p, i = encCommand m p) ∨ ∃ p, i = decCommand m p)
    (hl : s.legal = true) :
    StreamMeaning i s (Forward Config.cipher m s) := by
  rcases command with fwd | inv | enc | dec
  · exact stream_forward stream (.inl fwd) hl
  · exact symmetric Config.cipher s ▸ stream_backward stream (.inl inv) hl
  · exact stream_forward stream (.inr enc) hl
  · exact symmetric Config.cipher s ▸ stream_backward stream (.inr dec) hl

/-! ## One transform after another -/

/-- Where INV runs as FWD, a command that is one of the two runs as either. -/
theorem exec_of_symmetric {m : Mode} (symmetric : ∀ s, exec (invCommand m) s = exec (fwdCommand m) s) {i : Instr}
    (member : i ∈ [fwdCommand m, invCommand m]) :
    (∀ s, exec i s = exec (fwdCommand m) s) ∧ ∀ s, exec i s = exec (invCommand m) s := by
  rcases List.mem_pair.mp member with rfl | rfl
  · exact ⟨fun _ => rfl, fun s => (symmetric s).symm⟩
  · exact ⟨symmetric, fun _ => rfl⟩

/-- In a stream mode a command that runs as INV restores what a command that ran as FWD was given, whatever the cipher is
(R202, R205, R213). -/
theorem stream_restores {m : Mode} (stream : isBlockMode m = false) {i j : Instr} {s : State} {v : List Byte}
    (first : ∀ s, exec i s = exec (fwdCommand m) s) (second : ∀ s, exec j s = exec (invCommand m) s)
    (hl : s.legal = true) (hiv : s.ivComplete = true) (serves : s.cipherServes) (hv : s.bufferIs v) :
    ∃ t u, exec i s = .next t ∧ t.done = true ∧ exec j (t.issued j) = .next u ∧ u.done = true ∧ u.err = false ∧
      u.length = s.length ∧ u.bufferIs v ∧ SameBeyond s.length s u := by
  obtain ⟨t, v', w, ran, transformed, forward⟩ := (stream_forward stream (.inl rfl) hl).2 hiv serves
  obtain rfl := hv.eq_of_mayHold transformed.before
  obtain ⟨hl', same, ivComplete, buffer, length⟩ := transformed.started hl (encode j)
  have serves' : (t.started (encode j)).cipherServes :=
    ⟨by rw [length, started_cipherUp, transformed.frame.cipherUp]; exact serves.1, rfl⟩
  obtain ⟨u, w', x, ran', restored, backward⟩ :=
    (stream_backward stream (.inl rfl) hl').2 (ivComplete.trans hiv) serves'
  obtain rfl := buffer.eq_of_mayHold restored.before
  rw [same.backward] at backward
  obtain rfl := backward_forward (blockBytes_pos hl) (lengthFits_stream stream _ _)
    (fun cbc => absurd cbc (ne_cbc_of_stream stream)) (fun block => absurd (stream.symm.trans block) Bool.false_ne_true)
    forward backward
  refine ⟨t, u, (first s).trans ran, transformed.completed.done, ?_, restored.completed.done, restored.completed.err,
    (congrArg BitVec.toNat restored.len).trans length, restored.after,
    fun a beyond => (restored.beyond a (length.trans_le beyond)).trans (transformed.beyond a beyond)⟩
  rw [issued_started transformed.completed.phase (decode_encode j), second]
  exact ran'

/-! ## The counter -/

/-- The `n` bytes of a vector up to index `p` as one big-endian number (R55). -/
def windowValue : Nat → Nat → List Byte → Nat
  | 0, _, _ => 0
  | n + 1, p, v => windowValue n (p - 1) v * 2 ^ 8 + (byteOf v p).toNat

theorem counterWindow_toNat {B : Nat} (hB : 4 ≤ B) (v : List Byte) :
    (counterWindow B v).toNat = windowValue 4 (B - 1) v := by
  have below : B - 1 - 1 = B - 2 ∧ B - 2 - 1 = B - 3 ∧ B - 3 - 1 = B - 4 := by omega
  simp only [counterWindow, packWord, windowValue, below, BitVec.toNat_append, ← Nat.shiftLeft_eq,
    Nat.shiftLeft_add_eq_or_of_lt (BitVec.isLt _), Nat.zero_shiftLeft, Nat.zero_add]

theorem windowValue_congr {n p : Nat} {v w : List Byte} (same : ∀ j, j ≤ p → p < j + n → byteOf w j = byteOf v j) :
    windowValue n p w = windowValue n p v := by
  induction n generalizing p with
  | zero => rfl
  | succ n ih =>
    rw [windowValue, windowValue, same p le_rfl (by omega), ih fun j above below => same j (by omega) (by omega)]

/-- A carry over `n` bytes from index `p` downward touches no other byte (R210). -/
theorem byteOf_ctrCarry_outside {n p j : Nat} (v : List Byte) (outside : j + n ≤ p ∨ p < j) :
    byteOf (ctrCarry n p v) j = byteOf v j := by
  induction n generalizing p v with
  | zero => rfl
  | succ n ih =>
    have notHere (b : Byte) : byteOf (v.set p b) j = byteOf v j := by rw [byteOf_set, if_neg (by omega)]
    rw [ctrCarry]
    split
    · exact notHere _
    · rw [ih _ (by omega), notHere]

/-- The carry adds 1 to the number in the window, and a carry out of it is dropped (R210). -/
theorem windowValue_ctrCarry {n p : Nat} (v : List Byte) (room : n ≤ p + 1) (inside : p < v.length) :
    windowValue n p (ctrCarry n p v) ≡ windowValue n p v + 1 [MOD (2 ^ 8) ^ n] := by
  induction n generalizing p v with
  | zero => exact Nat.modEq_one
  | succ n ih =>
    have here (b : Byte) : byteOf (v.set p b) p = b := by rw [byteOf_set, if_pos ⟨rfl, inside⟩]
    have above (b : Byte) : windowValue n (p - 1) (v.set p b) = windowValue n (p - 1) v :=
      windowValue_congr fun j _ _ => by rw [byteOf_set, if_neg (by omega)]
    rw [ctrCarry]
    split
    next noWrap =>
      have grown : (byteOf v p + 1).toNat = (byteOf v p).toNat + 1 := by bv_omega
      rw [windowValue, windowValue, above, here, grown, Nat.add_assoc]
    next wrap =>
      have wrapped : byteOf v p + 1 = 0 := not_not.mp wrap
      have full : (byteOf v p).toNat + 1 = 2 ^ 8 := by bv_omega
      have lowest : (byteOf (ctrCarry n (p - 1) (v.set p 0)) p).toNat = 0 := by
        rw [byteOf_ctrCarry_outside _ (by omega), here]
        rfl
      have carried := ih (p := p - 1) (v.set p 0) (by omega) (by rw [List.length_set]; omega)
      rw [above] at carried
      rw [wrapped, windowValue, windowValue, lowest, add_zero, Nat.add_assoc, full, ← Nat.succ_mul, pow_succ]
      exact carried.mul_right' (2 ^ 8)

theorem counterWindow_ctrInc {B : Nat} {v : List Byte} (hB : 4 ≤ B) (length : v.length = B) :
    counterWindow B (ctrInc B v) = counterWindow B v + 1 := by
  apply BitVec.eq_of_toNat_eq
  have grown : (counterWindow B (ctrInc B v)).toNat ≡ (counterWindow B v).toNat + 1 [MOD (2 ^ 8) ^ 4] := by
    rw [counterWindow_toNat hB, counterWindow_toNat hB]
    exact windowValue_ctrCarry v (by omega) (by omega)
  rw [BitVec.toNat_add, ← Nat.mod_eq_of_lt (BitVec.isLt (counterWindow B (ctrInc B v)))]
  exact grown

theorem ctrInc_iterate_length (B k : Nat) (v : List Byte) : ((ctrInc B)^[k] v).length = v.length := by
  induction k with
  | zero => rfl
  | succ k ih => rw [Function.iterate_succ_apply', ctrInc_length, ih]

/-- The window counts the increments modulo 2^32 (R210). -/
theorem counterWindow_iterate {B : Nat} {v : List Byte} (hB : 4 ≤ B) (length : v.length = B) (k : Nat) :
    counterWindow B ((ctrInc B)^[k] v) = counterWindow B v + BitVec.ofNat 32 k := by
  induction k with
  | zero => exact (BitVec.add_zero _).symm
  | succ k ih =>
    rw [Function.iterate_succ_apply', counterWindow_ctrInc hB ((ctrInc_iterate_length B k v).trans length), ih,
      BitVec.add_assoc, BitVec.ofNat_add]
    rfl

end Sys2Proof.Machine
end

section
/-! The settled statements of spec/43_cfb_ofb_ctr.md: the keystreams of CFB, OFB and CTR, one transform after another, and
the counter. -/

namespace Sys2Proof.Machine

/-! ## The keystreams -/

/-- Settles O34: the keystream is made of the ciphertext that the transform leaves. -/
theorem cfbEncryptFeedsBackCiphertext : Obligations.CfbEncryptFeedsBackCiphertext :=
  ⟨rfl, rfl, fun _ s command hl => StreamMeaning.bytes (fun _ w k => s.E Config.cipher (s.previous w k))
    (stream_forward (m := .cfb) rfl command hl)⟩

/-- Settles O35: the keystream is made of the ciphertext that the transform reads. -/
theorem cfbDecryptFeedsBackCiphertext : Obligations.CfbDecryptFeedsBackCiphertext :=
  ⟨rfl, rfl, fun _ s command hl => StreamMeaning.bytes (fun v _ k => s.E Config.cipher (s.previous v k))
    (stream_backward (m := .cfb) rfl command hl)⟩

/-- Settles O36: the keystream does not look at DATA, and is one in both directions. -/
theorem ofbKeystreamIsTheIteratedCipher : Obligations.OfbKeystreamIsTheIteratedCipher :=
  ⟨rfl, rfl, rfl, rfl, fun _ s command hl => StreamMeaning.bytes (fun _ _ k => (s.E Config.cipher)^[k + 1] s.iv)
    (stream_symmetric (m := .ofb) rfl (fun _ _ => rfl) command hl)⟩

/-- Settles O37: as OFB, with the encryption of the counter. -/
theorem ctrKeystreamIsTheEncryptedCounter : Obligations.CtrKeystreamIsTheEncryptedCounter :=
  ⟨rfl, rfl, rfl, rfl, fun _ s command hl =>
    StreamMeaning.bytes (fun _ _ k => s.E Config.cipher ((ctrInc s.blockBytes)^[k] s.iv))
      (stream_symmetric (m := .ctr) rfl (fun _ _ => rfl) command hl)⟩

/-! ## One transform after another -/

/-- Settles O50: each pair is one that runs as FWD and then INV of one stream mode. -/
theorem streamModesAreSelfInverse : Obligations.StreamModesAreSelfInverse := by
  intro i j s v pair
  rcases pair with cfb | ⟨first, second⟩ | ⟨first, second⟩
  · obtain ⟨rfl, rfl⟩ := Prod.mk.inj cfb
    exact stream_restores (m := .cfb) rfl (fun _ => rfl) (fun _ => rfl)
  · exact stream_restores (m := .ofb) rfl (exec_of_symmetric (fun _ => rfl) first).1
      (exec_of_symmetric (m := .ofb) (fun _ => rfl) second).2
  · exact stream_restores (m := .ctr) rfl (exec_of_symmetric (fun _ => rfl) first).1
      (exec_of_symmetric (m := .ctr) (fun _ => rfl) second).2

/-! ## The counter -/

/-- Settles O51: the windows of two counters differ, so the counters do. -/
theorem counterWindowIncrements : Obligations.CounterWindowIncrements := by
  intro B v hB length
  refine ⟨(ctrInc_length B v).trans length, fun j before => byteOf_ctrCarry_outside v (.inl (by omega)),
    counterWindow_ctrInc hB length, fun j k less bound equal => ?_⟩
  have windows := congrArg (counterWindow B) equal
  rw [counterWindow_iterate hB length, counterWindow_iterate hB length, BitVec.add_right_inj] at windows
  have counts := congrArg BitVec.toNat windows
  rw [BitVec.toNat_ofNat, BitVec.toNat_ofNat, Nat.mod_eq_of_lt (by omega), Nat.mod_eq_of_lt bound] at counts
  omega

end Sys2Proof.Machine
end

section
/-! The facts under the statements of spec/60_exceptions.md: what STATUS and ERRINFO show after each kind of completion, and
the command that a BUSY engine has latched. -/

namespace Sys2Proof.Machine

/-! ## STATUS and ERRINFO after a completion -/

/-- DONE stands alone: no fault is shown beside it (R23, R33, R233). -/
theorem State.Inv.no_fault_of_done {s : State} (hs : s.Inv) (done : s.done = true) :
    s.err = false ∧ s.errcode = 0 ∧ s.errinfo = 0 := by
  have noErr : s.err = false := hs.not_both.resolve_left (by simp [done])
  have noCode : s.errcode = 0 := not_not.mp (mt hs.errcode_iff.mp (by simp [noErr]))
  exact ⟨noErr, noCode, hs.errinfo_zero noErr⟩

/-- ERR comes with a code and without DONE (R23, R234). -/
theorem State.Inv.code_of_err {s : State} (hs : s.Inv) (err : s.err = true) : s.done = false ∧ s.errcode ≠ 0 :=
  ⟨hs.not_both.resolve_right (by simp [err]), hs.errcode_iff.mpr err⟩

/-! ## The latched command -/

/-- What a BUSY engine has latched in CUR is a command (R43, R95). -/
theorem State.Inv.latched_command {s : State} (hs : s.Inv) (busy : s.phase = .busy) : ∃ i, decode s.cur = .command i := by
  obtain ⟨-, command⟩ := hs.busy_cur ((busy_eq_true_iff s).mpr busy)
  cases decoded : decode s.cur with
  | command i => exact ⟨i, rfl⟩
  | illegal e => rw [decoded] at command; cases command

end Sys2Proof.Machine
end

section
/-! The settled statements of spec/60_exceptions.md: every command ends where both ports answer, and a BUSY engine completes
at its turn. -/

namespace Sys2Proof.Machine

/-! ## Completion -/

/-- Settles O15: of the three ways in which a command ends, waiting is for a silent port. -/
theorem everyCommandEnds : Obligations.EveryCommandEnds := by
  intro i s hl cipherUp randomUp
  obtain ⟨t, ht⟩ := exec_answers i hl
  obtain ⟨frame, -, -, completed | ⟨e, mem, info, faulted, -⟩ | ⟨-, silent⟩⟩ := commandFrame i s t ht
  · exact ⟨t, ht, frame, .inl completed⟩
  · exact ⟨t, ht, frame, .inr ⟨e, mem, info, faulted⟩⟩
  · simp [cipherUp, randomUp] at silent

/-- Settles O13: the latched command ends, and the invariant, which the step keeps, tells the rest of STATUS from DONE or
ERR. -/
theorem busyCommandCompletes : Obligations.BusyCommandCompletes := by
  intro s hs busy cipherUp randomUp empty
  obtain ⟨i, command⟩ := hs.latched_command busy
  obtain ⟨t, ht, -, ends⟩ := everyCommandEnds i s hs.legal cipherUp randomUp
  have stepped : step s = .next t := by rw [step_of_no_inputs empty, engineTurn_command busy command, ht]
  have inv : t.Inv := stepKeepsTheInvariant s t hs stepped
  rcases ends with completed | ⟨e, -, info, faulted⟩
  · exact ⟨t, stepped, completed.phase, .inl ⟨completed.done, inv.no_fault_of_done completed.done⟩⟩
  · obtain ⟨notDone, code⟩ := inv.code_of_err faulted.err
    exact ⟨t, stepped, faulted.phase, .inr ⟨notDone, faulted.err, code⟩⟩

end Sys2Proof.Machine
end

section
/-! The facts under the statements of spec/70_reset_and_hazards.md: the reset input, a key change and its record, and why no
command can tell one cipher from another while the record of a key change stands. -/

namespace Sys2Proof.Machine

/-! ## The reset input -/

theorem statusWord_assertReset (s : State) : s.assertReset.statusWord = 0 := statusWord_resetOf s.params

theorem intenWord_assertReset (s : State) : s.assertReset.intenWord = 0 := intenWord_resetOf s.params

theorem byteAt_assertReset (s : State) (i : Nat) : s.assertReset.byteAt i = none := rfl

/-! ## The record of a key change -/

/-- A key change is recorded while BUSY; while IDLE the record stays as it was (R265). -/
theorem rekeyed_eq (k : Nat) (s : State) :
    s.rekeyed k = { s with key := k, keyChanged := if s.phase = .busy then true else s.keyChanged } := by
  cases phase : s.phase <;> simp [State.rekeyed, State.busy, phase]

theorem issued_keyChanged {s : State} (idle : s.phase = .idle) (i : Instr) : (s.issued i).keyChanged = false := by
  rw [issued_started idle (decode_encode i), started_keyChanged]

@[simp] theorem readByte_keyChanged (i : Nat) (s : State) : (s.readByte i).2.keyChanged = s.keyChanged :=
  (touch_readByte 0 i s).keyChanged

@[simp] theorem memRead_keyChanged (n i : Nat) (s : State) : (memRead n i s).2.keyChanged = s.keyChanged :=
  (touch_memRead 0 n i s).keyChanged

@[simp] theorem memWrite_keyChanged (v : List Byte) (i : Nat) (s : State) : (memWrite v i s).keyChanged = s.keyChanged := by
  rw [memWrite_eq]

@[simp] theorem cbcPrev_keyChanged (k : Nat) (s : State) : (cbcPrev k s).2.keyChanged = s.keyChanged :=
  (cbcPrev_touch k s).1.keyChanged

@[simp] theorem ctrBytes_keyChanged (base n j : Nat) (s : State) : (ctrBytes base n j s).keyChanged = s.keyChanged := by
  obtain ⟨v, w, run, -⟩ := ctrBytes_spec base n j s
  exact run.touch.keyChanged

theorem keyChanged_of_blockEncrypt {c : Cipher} {v y : List Byte} {s t : State} (h : blockEncrypt c v s = some (y, t)) :
    t.keyChanged = s.keyChanged :=
  (touch_answer (blockEncrypt_answered h).2.2).1.keyChanged

theorem keyChanged_of_blockDecrypt {c : Cipher} {v y : List Byte} {s t : State} (h : blockDecrypt c v s = some (y, t)) :
    t.keyChanged = s.keyChanged :=
  (touch_answer (blockDecrypt_answered h).2.2).1.keyChanged

/-! ## The cipher port after a key change -/

/-- After a key change a request takes one block of draws, and the answer of the cipher is not used (R265). -/
theorem cipherAnswer_changed {s : State} (changed : s.keyChanged = true) (answer : List Byte) :
    s.cipherAnswer answer = if s.cipherUp then some (s.drawBytes s.blockBytes) else none := by
  rw [State.cipherAnswer, if_pos changed]

theorem blockEncrypt_changed {s : State} (changed : s.keyChanged = true) (c c' : Cipher) (v : List Byte) :
    blockEncrypt c v s = blockEncrypt c' v s := by
  rw [blockEncrypt, blockEncrypt, cipherAnswer_changed changed, cipherAnswer_changed changed]

theorem blockDecrypt_changed {s : State} (changed : s.keyChanged = true) (c c' : Cipher) (v : List Byte) :
    blockDecrypt c v s = blockDecrypt c' v s := by
  rw [blockDecrypt, blockDecrypt, cipherAnswer_changed changed, cipherAnswer_changed changed]

theorem refresh_changed {s : State} (changed : s.keyChanged = true) (c c' : Cipher) (i : Nat) :
    refresh c i s = refresh c' i s := by
  rw [refresh, refresh, blockEncrypt_changed changed c c']

theorem keyChanged_of_refresh {c : Cipher} {i : Nat} {s t : State} (h : refresh c i s = some t) :
    t.keyChanged = s.keyChanged := by
  unfold refresh at h
  split at h
  · split at h
    · cases h
    · rename_i answered
      cases h
      rw [setWork_keyChanged, keyChanged_of_blockEncrypt answered]
  · cases h
    rfl

/-! ## The loops of the transforms after a key change -/

section Loops
variable {s : State} (changed : s.keyChanged = true) (c c' : Cipher)
include changed

theorem fwdEcbLoop_changed (n k : Nat) : fwdEcbLoop c n k s = fwdEcbLoop c' n k s := by
  induction n generalizing k s with
  | zero => rfl
  | succ n ih =>
    simp only [fwdEcbLoop]
    rw [blockEncrypt_changed (by simpa using changed) c c']
    split
    · rfl
    · rename_i answered
      exact ih (by simpa [keyChanged_of_blockEncrypt answered] using changed) _

theorem invEcbLoop_changed (n k : Nat) : invEcbLoop c n k s = invEcbLoop c' n k s := by
  induction n generalizing k s with
  | zero => rfl
  | succ n ih =>
    simp only [invEcbLoop]
    rw [blockDecrypt_changed (by simpa using changed) c c']
    split
    · rfl
    · rename_i answered
      exact ih (by simpa [keyChanged_of_blockDecrypt answered] using changed) _

theorem fwdCbcLoop_changed (n k : Nat) : fwdCbcLoop c n k s = fwdCbcLoop c' n k s := by
  induction n generalizing k s with
  | zero => rfl
  | succ n ih =>
    simp only [fwdCbcLoop]
    rw [blockEncrypt_changed (by simpa using changed) c c']
    split
    · rfl
    · rename_i answered
      exact ih (by simpa [keyChanged_of_blockEncrypt answered] using changed) _

theorem invCbcLoop_changed (n k : Nat) : invCbcLoop c n k s = invCbcLoop c' n k s := by
  induction n generalizing k s with
  | zero => rfl
  | succ n ih =>
    simp only [invCbcLoop]
    rw [blockDecrypt_changed (by simpa using changed) c c']
    split
    · rfl
    · rename_i answered
      exact ih (by simpa [keyChanged_of_blockDecrypt answered] using changed) _

theorem fwdCfbLoop_changed (n i : Nat) : fwdCfbLoop c n i s = fwdCfbLoop c' n i s := by
  induction n generalizing i s with
  | zero => rfl
  | succ n ih =>
    simp only [fwdCfbLoop]
    rw [refresh_changed (by simpa using changed) c c']
    split
    · rfl
    · rename_i refreshed
      exact ih (by simpa [keyChanged_of_refresh refreshed] using changed) _

theorem invCfbLoop_changed (n i : Nat) : invCfbLoop c n i s = invCfbLoop c' n i s := by
  induction n generalizing i s with
  | zero => rfl
  | succ n ih =>
    simp only [invCfbLoop]
    rw [refresh_changed (by simpa using changed) c c']
    split
    · rfl
    · rename_i refreshed
      exact ih (by simpa [keyChanged_of_refresh refreshed] using changed) _

theorem fwdOfbLoop_changed (n i : Nat) : fwdOfbLoop c n i s = fwdOfbLoop c' n i s := by
  induction n generalizing i s with
  | zero => rfl
  | succ n ih =>
    simp only [fwdOfbLoop]
    rw [refresh_changed (by simpa using changed) c c']
    split
    · rfl
    · rename_i refreshed
      exact ih (by simpa [keyChanged_of_refresh refreshed] using changed) _

theorem fwdCtrLoop_changed (L n k : Nat) : fwdCtrLoop c L n k s = fwdCtrLoop c' L n k s := by
  induction n generalizing k s with
  | zero => rfl
  | succ n ih =>
    simp only [fwdCtrLoop]
    rw [blockEncrypt_changed (by simpa using changed) c c']
    split
    · rfl
    · rename_i answered
      exact ih (by simpa [keyChanged_of_blockEncrypt answered] using changed) _

end Loops

/-! ## The stages after a key change -/

/-- Two runs of a stage with different successors agree where the successors agree on the states the stage ends in. -/
theorem andThen_congr {r : StageResult} {P : State → Prop} {Q : Err → Word → State → Prop} {W : Prop}
    {f g : State → StageResult} (ends : r.All P Q W) (h : ∀ t, P t → f t = g t) : r.andThen f = r.andThen g := by
  cases r with
  | ok t => exact h t ends
  | raised e info t => rfl
  | waiting => rfl

/-- A check that does not raise hands on the state as it was. -/
def HandsOn (s : State) (r : StageResult) : Prop := r.All (· = s) (fun _ _ _ => True) True

theorem modeIvCheck_handsOn (m : Mode) (s : State) : HandsOn s (modeIvCheck m s) := by
  unfold modeIvCheck
  split
  · rcases ivCheck_cases s with ⟨-, h⟩ | ⟨-, h⟩ <;> rw [h]
    · exact rfl
    · exact trivial
  · exact rfl

theorem capacity_handsOn (total : Nat) (s : State) : HandsOn s (capacity total s) := by
  rcases capacity_cases total s with ⟨-, h⟩ | ⟨-, h⟩ <;> rw [h]
  · exact rfl
  · exact trivial

theorem aligned_handsOn (total : Nat) (s : State) : HandsOn s (aligned total s) := by
  rcases aligned_cases total s with ⟨-, h⟩ | ⟨-, h⟩ <;> rw [h]
  · exact rfl
  · exact trivial

theorem HandsOn.andThen_congr {s : State} {r : StageResult} {f g : State → StageResult} (check : HandsOn s r)
    (h : f s = g s) : r.andThen f = r.andThen g := by
  refine Machine.andThen_congr check ?_
  rintro t rfl
  exact h

section Stages
variable {s : State} (changed : s.keyChanged = true) (c c' : Cipher)
include changed

theorem fwdStage_changed (m : Mode) : fwdStage c m s = fwdStage c' m s := by
  cases m with
  | ecb => exact (aligned_handsOn _ s).andThen_congr (fwdEcbLoop_changed changed c c' _ _)
  | cbc => exact (aligned_handsOn _ s).andThen_congr (fwdCbcLoop_changed changed c c' _ _)
  | cfb => exact fwdCfbLoop_changed (s := s.setWork s.iv) changed c c' _ _
  | ofb => exact fwdOfbLoop_changed (s := s.setWork s.iv) changed c c' _ _
  | ctr => exact fwdCtrLoop_changed (s := s.setWork s.iv) changed c c' _ _ _

theorem invStage_changed (m : Mode) : invStage c m s = invStage c' m s := by
  cases m with
  | ecb => exact (aligned_handsOn _ s).andThen_congr (invEcbLoop_changed changed c c' _ _)
  | cbc => exact (aligned_handsOn _ s).andThen_congr (invCbcLoop_changed (s := s.setWork s.iv) changed c c' _ _)
  | cfb => exact invCfbLoop_changed (s := s.setWork s.iv) changed c c' _ _
  | ofb => exact fwdStage_changed changed c c' .ofb
  | ctr => exact fwdStage_changed changed c c' .ctr

/-- In `enc` the pad stage is the one stage before the transform that moves the state, and it keeps the record (R152). -/
theorem encStages_changed (legal : s.legal = true) (m : Mode) (p : Scheme) :
    encStages c m p s = encStages c' m p s := by
  refine (modeIvCheck_handsOn m s).andThen_congr <| (capacity_handsOn _ s).andThen_congr <|
    HandsOn.andThen_congr (s := s) ?_ <| andThen_congr (padStage_all _ s legal) ?_
  · split
    · exact aligned_handsOn _ s
    · exact rfl
  · rintro t ⟨touch, -⟩
    exact fwdStage_changed (touch.keyChanged.trans changed) c c' m

/-- In `dec` nothing moves the state before the transform, and the unpad stage makes no request (R153). -/
theorem decStages_changed (m : Mode) (p : Scheme) : decStages c m p s = decStages c' m p s := by
  refine (modeIvCheck_handsOn m s).andThen_congr ?_
  rw [invStage_changed changed c c' m]

/-- With the key changed while it runs, a command does the same for every cipher (R265). -/
theorem execWith_changed (i : Instr) : execWith c i s = execWith c' i s := by
  rcases i.family with ⟨p, rfl⟩ | ⟨p, rfl⟩ | ⟨m, rfl⟩ | ⟨m, rfl⟩ | ⟨m, p, rfl⟩ | ⟨m, p, rfl⟩
  · cases p <;> rfl
  · cases p <;> rfl
  · rw [execWith_fwdCommand, execWith_fwdCommand]
    exact runCommand_congr fun _ => (modeIvCheck_handsOn m s).andThen_congr (fwdStage_changed changed c c' m)
  · rw [execWith_invCommand, execWith_invCommand]
    exact runCommand_congr fun _ => (modeIvCheck_handsOn m s).andThen_congr (invStage_changed changed c c' m)
  · rw [execWith_encCommand, execWith_encCommand]
    exact runCommand_congr fun legal => encStages_changed changed c c' legal m p
  · rw [execWith_decCommand, execWith_decCommand]
    exact runCommand_congr fun _ => decStages_changed changed c c' m p

end Stages

end Sys2Proof.Machine
end

section
/-! The settled statements of spec/70_reset_and_hazards.md: the reset input, and a key changed while BUSY. -/

namespace Sys2Proof.Machine

/-- Settles O12: the state after the reset input is that of R39, but for what stands outside MCPE. -/
theorem resetInputAbandonsTheCommand : Obligations.ResetInputAbandonsTheCommand := by
  intro s rest first
  refine ⟨State.assertReset { s with inputs := rest }, step_of_inputs first, ?_⟩
  exact ⟨rfl, statusWord_assertReset _, intenWord_assertReset _, rfl, rfl, rfl, rfl, rfl, byteAt_assertReset _, rfl, rfl, rfl,
    rfl, rfl, rfl, rfl⟩

/-- Settles O60: while the record of a key change stands, a request takes draws in place of the cipher's answer, and every
part of a command keeps the record. -/
theorem keyChangeMakesAnswersDraws : Obligations.KeyChangeMakesAnswersDraws := by
  refine ⟨fun s k => congrArg _ (rekeyed_eq k s), fun s i idle => issued_keyChanged idle i, fun c v s up changed => ?_,
    fun i c c' s changed => execWith_changed changed c c' i⟩
  have answer : ∀ x, s.cipherAnswer x = some (s.drawBytes s.blockBytes) := fun x => by
    rw [cipherAnswer_changed changed, if_pos up]
  exact ⟨answer _, answer _⟩

end Sys2Proof.Machine
end
